-- ==== Sys2Proof/Word.lean ====
section
/-! DEFINITION. The word types of GS-CORE (00_scope.md R10): names for widths, nothing else. -/

namespace Sys2Proof

/-- A byte of BUF or of a byte string (R10, R48). -/
abbrev Byte := BitVec 8

/-- A `u16`: a 16-bit immediate, a salt size, an algorithm id (R86, R40). -/
abbrev Half := BitVec 16

/-- A `u32`: an operand register, a CSR, a command word, an address (R20, R30, R80). -/
abbrev Word := BitVec 32

/-- A `u64`: the word of BLAKE2b, SHA-384 and SHA-512 (R43, R190). -/
abbrev DWord := BitVec 64

/-- A byte string, offset 0 first (R10). -/
abbrev Bytes := List Byte

end Sys2Proof
end

