-- ==== Sys2Proof/Syntax.lean ====
section
/-! DEFINITION. The commands of GS-CORE: one constructor of `Instr` for each row of 30_encoding.md R87. -/

namespace Sys2Proof

/-- A register field: a `u4` index into `x[0..15]` (R81). -/
abbrev Reg := BitVec 4

/-- The implemented CSRs (10_state.md R30). -/
inductive Csr where
  | id | status | err | errcp | errcmd | cp
  | scCfg
  | evAlg | evIter | evSaltsz | evHsaltsz
  deriving DecidableEq, Repr

/-- A command (R87). Operands stand in the order of R91: the destination first. A field written
`buf(r)` in R87 is the first register of a descriptor pair (10_state.md R22). -/
inductive Instr where
  /-- `NOP` (R100). -/
  | nop
  /-- `SETLO rd, imm16` (R101). -/
  | setlo (rd : Reg) (imm : Half)
  /-- `SETHI rd, imm16` (R102). -/
  | sethi (rd : Reg) (imm : Half)
  /-- `MOV rd, ra` (R103). -/
  | mov (rd ra : Reg)
  /-- `CSRR rd, csr` (R104). -/
  | csrr (rd : Reg) (csr : Csr)
  /-- `CSRW csr, ra` (R105). -/
  | csrw (csr : Csr) (ra : Reg)
  /-- `WIPE` (R106). -/
  | wipe
  /-- `SC.KEY ra`: `buf(ra)` key (R130). -/
  | scKey (ra : Reg)
  /-- `SC.NONCE ra, rb`: `buf(ra)` nonce, `x[rb]` counter (R131). -/
  | scNonce (ra rb : Reg)
  /-- `SC.BLOCK rd`: `x[rd]` destination (R132). -/
  | scBlock (rd : Reg)
  /-- `SC.XOR rd, ra`: `buf(ra)` input, `x[rd]` destination (R133). -/
  | scXor (rd ra : Reg)
  /-- `SC.KS rd, ra`: `x[ra]` length, `x[rd]` destination (R134). -/
  | scKs (rd ra : Reg)
  /-- `SC.WIPE` (R135). -/
  | scWipe
  /-- `B2.INIT ra, rb, rc, imm8`: `buf(ra)` key, `buf(rb)` salt, `buf(rc)` personalization, `imm8` output length (R156). -/
  | b2Init (ra rb rc : Reg) (imm : Byte)
  /-- `B2.UPDATE ra`: `buf(ra)` input (R159). -/
  | b2Update (ra : Reg)
  /-- `B2.FINAL rd`: `x[rd]` destination (R160). -/
  | b2Final (rd : Reg)
  /-- `B2.WIPE` (R161). -/
  | b2Wipe
  /-- `HM.MAC rd, ra, rb, imm8`: `buf(ra)` key, `buf(rb)` message, `x[rd]` destination, `imm8` algorithm id (R199). -/
  | hmMac (rd ra rb : Reg) (imm : Byte)
  /-- `KD.INIT ra, rb, rc, imm8`: `buf(ra)` password, `buf(rb)` salt, `x[rc]` iterations, `imm8` algorithm id (R212). -/
  | kdInit (ra rb rc : Reg) (imm : Byte)
  /-- `KD.GET rd, ra`: `x[ra]` byte count, `x[rd]` destination (R213). -/
  | kdGet (rd ra : Reg)
  /-- `KD.WIPE` (R214). -/
  | kdWipe
  /-- `EV.ENC rd, ra, rb, rc`: `buf(ra)` data, `buf(rb)` key, `buf(rc)` metadata, `x[rd]` destination, `x[rd+1]` result length (R256). -/
  | evEnc (rd ra rb rc : Reg)
  /-- `EV.DEC rd, ra, rb, rc`: `buf(ra)` envelope, `buf(rb)` key, `x[rc]`, `x[rc+1]` metadata address and capacity, `x[rd]` destination, `x[rd+1]` result length (R262). -/
  | evDec (rd ra rb rc : Reg)
  deriving DecidableEq, Repr

end Sys2Proof
end

