-- ==== Sys2Proof/WellFormed.lean ====
section
/-! DEFINITION. Which commands have an encoding: the checks of 30_encoding.md R88, cases 3 and 4. -/

namespace Sys2Proof

/-- The register can start a descriptor pair: there is no `x[16]` (10_state.md R22). -/
def Reg.pairOk (r : Reg) : Bool := r != 15

/-- The CSRs that `CSRW` may write (10_state.md R30, 40_control_commands.md R105). -/
def Csr.writable : Csr → Bool
  | .scCfg | .evAlg | .evIter | .evSaltsz | .evHsaltsz => true
  | .id | .status | .err | .errcp | .errcmd | .cp => false

/-- The fields of a command that name a descriptor pair (R88, case 3). -/
def Instr.pairFields : Instr → List Reg
  | .nop | .setlo _ _ | .sethi _ _ | .mov _ _ | .csrr _ _ | .csrw _ _ | .wipe => []
  | .scKey ra => [ra]
  | .scNonce ra _ => [ra]
  | .scBlock _ => []
  | .scXor _ ra => [ra]
  | .scKs _ _ | .scWipe => []
  | .b2Init ra rb rc _ => [ra, rb, rc]
  | .b2Update ra => [ra]
  | .b2Final _ | .b2Wipe => []
  | .hmMac _ ra rb _ => [ra, rb]
  | .kdInit ra rb _ _ => [ra, rb]
  | .kdGet _ _ | .kdWipe => []
  | .evEnc rd ra rb rc => [ra, rb, rc, rd]
  | .evDec rd ra rb rc => [ra, rb, rc, rd]

/-- No pair field holds 15 (R88, case 3). -/
def Instr.pairsOk (i : Instr) : Bool := i.pairFields.all Reg.pairOk

/-- A `CSRW` names a writable CSR (R88, case 4). That a CSR is implemented is in the type `Csr`. -/
def Instr.csrOk : Instr → Bool
  | .csrw csr _ => csr.writable
  | _ => true

/-- The commands that some word encodes (R88). -/
def Instr.wf (i : Instr) : Bool := i.pairsOk && i.csrOk

end Sys2Proof
end

