-- ==== Sys2Proof/Decode.lean ====
section
/-! DEFINITION. The decoder, total on 32-bit words (30_encoding.md R87 to R89), and the encoder (R81, R87). -/

namespace Sys2Proof

/-- The 23 opcodes of R87. -/
inductive Op where
  | nop | setlo | sethi | mov | csrr | csrw | wipe
  | scKey | scNonce | scBlock | scXor | scKs | scWipe
  | b2Init | b2Update | b2Final | b2Wipe
  | hmMac
  | kdInit | kdGet | kdWipe
  | evEnc | evDec
  deriving DecidableEq, Repr

/-- Why a word is no command, in the order of R89. Each is an `IllegalCommand` (R88). -/
inductive DecodeError where
  /-- R88, case 1. -/
  | unknownOpcode
  /-- R88, case 2. -/
  | mustBeZero
  /-- R88, case 3. -/
  | pairField15
  /-- R88, case 4. -/
  | csrUnimplemented
  /-- R88, case 4. -/
  | csrReadOnly
  deriving DecidableEq, Repr

/-- The column `op` of R87. -/
def Op.code : Op → BitVec 8
  | .nop => 0x00 | .setlo => 0x01 | .sethi => 0x02 | .mov => 0x03
  | .csrr => 0x04 | .csrw => 0x05 | .wipe => 0x06
  | .scKey => 0x10 | .scNonce => 0x11 | .scBlock => 0x12
  | .scXor => 0x13 | .scKs => 0x14 | .scWipe => 0x15
  | .b2Init => 0x20 | .b2Update => 0x21 | .b2Final => 0x22 | .b2Wipe => 0x23
  | .hmMac => 0x30
  | .kdInit => 0x40 | .kdGet => 0x41 | .kdWipe => 0x42
  | .evEnc => 0x50 | .evDec => 0x51

/-- The row of R87 whose `op` is the byte, if there is one. -/
def Op.ofCode (c : BitVec 8) : Option Op :=
  match c with
  | 0x00#8 => some .nop | 0x01#8 => some .setlo | 0x02#8 => some .sethi | 0x03#8 => some .mov
  | 0x04#8 => some .csrr | 0x05#8 => some .csrw | 0x06#8 => some .wipe
  | 0x10#8 => some .scKey | 0x11#8 => some .scNonce | 0x12#8 => some .scBlock
  | 0x13#8 => some .scXor | 0x14#8 => some .scKs | 0x15#8 => some .scWipe
  | 0x20#8 => some .b2Init | 0x21#8 => some .b2Update | 0x22#8 => some .b2Final | 0x23#8 => some .b2Wipe
  | 0x30#8 => some .hmMac
  | 0x40#8 => some .kdInit | 0x41#8 => some .kdGet | 0x42#8 => some .kdWipe
  | 0x50#8 => some .evEnc | 0x51#8 => some .evDec
  | _ => none

/-- The column `mask` of R87: 1 in every bit that is fixed. -/
def Op.mask : Op → Word
  | .nop => 0xFFFFFFFF | .setlo => 0xFF0F0000 | .sethi => 0xFF0F0000 | .mov => 0xFF0FF0FF
  | .csrr => 0xFF0FF000 | .csrw => 0xFF0FF000 | .wipe => 0xFFFFFFFF
  | .scKey => 0xFF0FFFFF | .scNonce => 0xFF00FFFF | .scBlock => 0xFFFFF0FF
  | .scXor => 0xFF0FF0FF | .scKs => 0xFF0FF0FF | .scWipe => 0xFFFFFFFF
  | .b2Init => 0xFF000F00 | .b2Update => 0xFF0FFFFF | .b2Final => 0xFFFFF0FF | .b2Wipe => 0xFFFFFFFF
  | .hmMac => 0xFF00F000
  | .kdInit => 0xFF000F00 | .kdGet => 0xFF0FF0FF | .kdWipe => 0xFFFFFFFF
  | .evEnc => 0xFF0000FF | .evDec => 0xFF0000FF

/-- The column `match` of R87: the opcode, every other bit 0. -/
def Op.fixedBits (o : Op) : Word := o.code ++ 0#24

/-- The row of R87 of a command. -/
def Instr.op : Instr → Op
  | .nop => .nop | .setlo _ _ => .setlo | .sethi _ _ => .sethi | .mov _ _ => .mov
  | .csrr _ _ => .csrr | .csrw _ _ => .csrw | .wipe => .wipe
  | .scKey _ => .scKey | .scNonce _ _ => .scNonce | .scBlock _ => .scBlock
  | .scXor _ _ => .scXor | .scKs _ _ => .scKs | .scWipe => .scWipe
  | .b2Init _ _ _ _ => .b2Init | .b2Update _ => .b2Update | .b2Final _ => .b2Final | .b2Wipe => .b2Wipe
  | .hmMac _ _ _ _ => .hmMac
  | .kdInit _ _ _ _ => .kdInit | .kdGet _ _ => .kdGet | .kdWipe => .kdWipe
  | .evEnc _ _ _ _ => .evEnc | .evDec _ _ _ _ => .evDec

/-- The CSR with that number, if it is implemented (10_state.md R30). -/
def Csr.ofNumber (n : BitVec 12) : Option Csr :=
  match n with
  | 0x000#12 => some .id | 0x001#12 => some .status | 0x002#12 => some .err
  | 0x003#12 => some .errcp | 0x004#12 => some .errcmd | 0x005#12 => some .cp
  | 0x010#12 => some .scCfg
  | 0x040#12 => some .evAlg | 0x041#12 => some .evIter
  | 0x042#12 => some .evSaltsz | 0x043#12 => some .evHsaltsz
  | _ => none

/-- The number of a CSR (10_state.md R30). -/
def Csr.number : Csr → BitVec 12
  | .id => 0x000 | .status => 0x001 | .err => 0x002
  | .errcp => 0x003 | .errcmd => 0x004 | .cp => 0x005
  | .scCfg => 0x010
  | .evAlg => 0x040 | .evIter => 0x041 | .evSaltsz => 0x042 | .evHsaltsz => 0x043

/-- Bits 31 to 24, `op` in every format (R80). -/
def opField (w : Word) : BitVec 8 := w.extractLsb' 24 8

/-- Bits 23 to 20: `ra` of format R, `rd` of format I, `r` of format C (R81). -/
def raField (w : Word) : Reg := w.extractLsb' 20 4

/-- Bits 19 to 16: `rb` of format R (R81). -/
def rbField (w : Word) : Reg := w.extractLsb' 16 4

/-- Bits 15 to 12: `rc` of format R (R81). -/
def rcField (w : Word) : Reg := w.extractLsb' 12 4

/-- Bits 11 to 8: `rd` of format R (R81). -/
def rdField (w : Word) : Reg := w.extractLsb' 8 4

/-- Bits 7 to 0: `imm8` of format R (R81). -/
def imm8Field (w : Word) : Byte := w.extractLsb' 0 8

/-- Bits 15 to 0: `imm16` of format I (R81). -/
def imm16Field (w : Word) : Half := w.extractLsb' 0 16

/-- Bits 11 to 0: `csr` of format C (R81). -/
def csrField (w : Word) : BitVec 12 := w.extractLsb' 0 12

/-- The command of a row, its operands read from the word by the row's format (R81, R87). The CSR number
of format C must be implemented (R88, case 4). -/
def readFields (o : Op) (w : Word) : Except DecodeError Instr :=
  match o with
  | .nop => .ok .nop
  | .setlo => .ok (.setlo (raField w) (imm16Field w))
  | .sethi => .ok (.sethi (raField w) (imm16Field w))
  | .mov => .ok (.mov (rdField w) (raField w))
  | .csrr =>
    match Csr.ofNumber (csrField w) with
    | some c => .ok (.csrr (raField w) c)
    | none => .error .csrUnimplemented
  | .csrw =>
    match Csr.ofNumber (csrField w) with
    | some c => .ok (.csrw c (raField w))
    | none => .error .csrUnimplemented
  | .wipe => .ok .wipe
  | .scKey => .ok (.scKey (raField w))
  | .scNonce => .ok (.scNonce (raField w) (rbField w))
  | .scBlock => .ok (.scBlock (rdField w))
  | .scXor => .ok (.scXor (rdField w) (raField w))
  | .scKs => .ok (.scKs (rdField w) (raField w))
  | .scWipe => .ok .scWipe
  | .b2Init => .ok (.b2Init (raField w) (rbField w) (rcField w) (imm8Field w))
  | .b2Update => .ok (.b2Update (raField w))
  | .b2Final => .ok (.b2Final (rdField w))
  | .b2Wipe => .ok .b2Wipe
  | .hmMac => .ok (.hmMac (rdField w) (raField w) (rbField w) (imm8Field w))
  | .kdInit => .ok (.kdInit (raField w) (rbField w) (rcField w) (imm8Field w))
  | .kdGet => .ok (.kdGet (rdField w) (raField w))
  | .kdWipe => .ok .kdWipe
  | .evEnc => .ok (.evEnc (rdField w) (raField w) (rbField w) (rcField w))
  | .evDec => .ok (.evDec (rdField w) (raField w) (rbField w) (rcField w))

/-- The decode procedure of R89: opcode, must-be-zero bits, pair fields, CSR number. It is total: a word
that is no command is rejected by the name of the first check it fails. -/
def decode (w : Word) : Except DecodeError Instr :=
  match Op.ofCode (opField w) with
  | none => .error .unknownOpcode
  | some o =>
    if w &&& o.mask ≠ o.fixedBits then .error .mustBeZero
    else
      match readFields o w with
      | .error e => .error e
      | .ok i =>
        if !i.pairsOk then .error .pairField15
        else if !i.csrOk then .error .csrReadOnly
        else .ok i

/-- Format N (R81). -/
def formatN (o : Op) : Word := o.code ++ 0#24

/-- Format I (R81). -/
def formatI (o : Op) (rd : Reg) (imm : Half) : Word := o.code ++ rd ++ 0#4 ++ imm

/-- Format R (R81). -/
def formatR (o : Op) (ra rb rc rd : Reg) (imm : Byte) : Word := o.code ++ ra ++ rb ++ rc ++ rd ++ imm

/-- Format C (R81). -/
def formatC (o : Op) (r : Reg) (csr : BitVec 12) : Word := o.code ++ r ++ 0#8 ++ csr

/-- The word of a command (R81, R87); the fields a command does not use are 0. -/
def encode : Instr → Word
  | .nop => formatN .nop
  | .setlo rd imm => formatI .setlo rd imm
  | .sethi rd imm => formatI .sethi rd imm
  | .mov rd ra => formatR .mov ra 0 0 rd 0
  | .csrr rd csr => formatC .csrr rd csr.number
  | .csrw csr ra => formatC .csrw ra csr.number
  | .wipe => formatN .wipe
  | .scKey ra => formatR .scKey ra 0 0 0 0
  | .scNonce ra rb => formatR .scNonce ra rb 0 0 0
  | .scBlock rd => formatR .scBlock 0 0 0 rd 0
  | .scXor rd ra => formatR .scXor ra 0 0 rd 0
  | .scKs rd ra => formatR .scKs ra 0 0 rd 0
  | .scWipe => formatN .scWipe
  | .b2Init ra rb rc imm => formatR .b2Init ra rb rc 0 imm
  | .b2Update ra => formatR .b2Update ra 0 0 0 0
  | .b2Final rd => formatR .b2Final 0 0 0 rd 0
  | .b2Wipe => formatN .b2Wipe
  | .hmMac rd ra rb imm => formatR .hmMac ra rb 0 rd imm
  | .kdInit ra rb rc imm => formatR .kdInit ra rb rc 0 imm
  | .kdGet rd ra => formatR .kdGet ra 0 0 rd 0
  | .kdWipe => formatN .kdWipe
  | .evEnc rd ra rb rc => formatR .evEnc ra rb rc rd 0
  | .evDec rd ra rb rc => formatR .evDec ra rb rc rd 0

/-- What the decoder reads from an instruction of the opcode table whose bits are `w`. A command word is
a number, with no byte order (20_memory.md R64), and is one word of 32 bits (R80). -/
def decodeTableWord (nbits w : Nat) : Option Instr :=
  (decode (BitVec.ofNat 32 (w % 2 ^ nbits))).toOption

end Sys2Proof
end

