-- ==== Sys2Proof/Config.lean ====
section
/-! DEFINITION. What an implementation fixes (00_scope.md R9) and the one free value (60_exceptions.md R300). -/

namespace Sys2Proof

/-- The open parameters of R9, which the spec calls model arguments. A value of this type is carried in
State, where no step changes it, so that a statement about every state is a statement about every
value of the parameters. Log entries 1 and 2. -/
structure Config where
  /-- `BUF_BYTES`, the size of BUF in bytes, 1 to 2^32 (R9, R60). -/
  bufBytes : Nat
  /-- `CMDQ_DEPTH`, the depth of the command queue, at least 1 (R9, R25). -/
  cmdqDepth : Nat
  deriving DecidableEq, Repr

/-- The values a `Config` may have (R9, R60). -/
def Config.legal (c : Config) : Bool :=
  decide (1 ≤ c.bufBytes) && decide (c.bufBytes ≤ 2 ^ 32) && decide (1 ≤ c.cmdqDepth)

/-- FREE VALUE. The byte the RNG port answers at a read position (R300: an arbitrary infinite byte
sequence, of which nothing may be assumed). It has no body, so nothing can be proved of its values.
Log entry 3. -/
opaque Config.rngTail : Nat → Byte

/-- `KD_SALT_MAX`, the largest salt `KD.INIT` accepts, in bytes (R9, R212). -/
def kdSaltMax : Nat := 32767

/-- The largest BLAKE2b key, in bytes (R9, R156). -/
def b2KeyMax : Nat := 128

/-- The largest BLAKE2b digest, in bytes (R9, R156). -/
def b2OutMax : Nat := 64

/-- The identity word (R9, R33). -/
def idWord : Word := 0x47530001

end Sys2Proof
end

