-- ==== Sys2Proof/Machine/State.lean ====
section
/-! DEFINITION. The state of GS-CORE as plain data (10_state.md), its reset value (R50), and the reasons a
step can stop. -/

namespace Sys2Proof.Machine

open Sys2Proof

/-- Why a step stops the machine: never. The six faults of 60_exceptions.md R280 are taken, into a next
state (`Trap`, `raise`), and the spec knows no other way for a step to end. -/
inductive Fault where
  deriving DecidableEq, Repr

/-- Why a step is refused. No command is refused: each constructor but the first names a move that the spec
gives the host no right to (93_implementation_defined.md U9 and U11: "refuse"). -/
inductive Refusal where
  /-- Raised by an arm of `exec` that has no meaning yet; no arm has it. Safe. -/
  | notModelled (mnemonic : String)
  /-- Raised by `hostMove`: a command word is written while the port is not ready, that is, with the queue
  full or the core halted (R25, R285, U11). Safe: the handshake does not complete and nothing happens. -/
  | commandPortNotReady
  /-- Raised by `hostMove`: a byte of BUF is written while `STATUS.BUSY = 1` (R71, U9). It assumes a host that
  keeps its duty, and errs toward proving: unsafe for a host that does not. -/
  | bufAccessWhileBusy
  /-- Raised by `hostMove`: the host writes a byte at an address that is not backed (R67). Safe. -/
  | bufAddressNotBacked
  /-- Raised by `hostMove`: `SRST` while `STATUS.BUSY = 1` (R303, U11). Safe: nothing happens. -/
  | softResetWhileBusy
  deriving DecidableEq, Repr

/-- The six faults of a command (R280), in the order of their codes. -/
inductive Trap where
  /-- Code 1: an operand value, length or configuration value is not accepted. -/
  | argument
  /-- Code 2: a tag that does not verify, or a ciphertext that does not decrypt to valid padding. -/
  | integrity
  /-- Code 3: the unit is not in a state in which the command may run. -/
  | state
  /-- Code 4: an envelope of unknown version or algorithm. -/
  | unsupported
  /-- Code 5: the command word does not decode. -/
  | illegalCommand
  /-- Code 6: a range is not admitted, or ranges overlap. -/
  | address
  deriving DecidableEq, Repr

/-- The keyed-hash algorithms, ids 1 to 4 (43_sha_hmac.md R180). -/
inductive HashAlg where
  | sha1 | sha256 | sha384 | sha512
  deriving DecidableEq, Repr

/-- `SC_CFG.VARIANT` (10_state.md R37). -/
inductive Variant where
  | chacha | salsa
  deriving DecidableEq, Repr

/-- `SC_CFG.ROUNDS`: 20, 12 or 8 rounds; the fourth value is illegal and never stored (R37). -/
inductive Rounds where
  | r20 | r12 | r8
  deriving DecidableEq, Repr

/-- `csr.SC_CFG` as its legal values (R37); the word is `scCfgWord`. Log entry 9. -/
structure ScCfg where
  variant : Variant
  rounds : Rounds
  deriving DecidableEq, Repr

/-- The SC unit (R41, R26). -/
structure ScUnit where
  /-- `cs[0..15]`, the CipherState. -/
  cs : Vector Word 16
  /-- `sc_keyed`. -/
  keyed : Bool
  /-- `sc_nonced`. -/
  nonced : Bool
  deriving DecidableEq, Repr

/-- The B2 unit (R43). -/
structure B2Unit where
  /-- `b2.h[0..7]`, the chaining words. -/
  h : Vector DWord 8
  /-- `b2.t[0]`, the low half of the byte counter. -/
  t0 : DWord
  /-- `b2.t[1]`, the high half of the byte counter. -/
  t1 : DWord
  /-- `b2.f[0]`, 0 or all ones. -/
  f0 : DWord
  /-- `b2.f[1]`, always 0. -/
  f1 : DWord
  /-- `b2.bbuf[0..127]`. -/
  bbuf : Vector Byte 128
  /-- `b2.c`, the number of valid bytes of `bbuf`. -/
  c : Nat
  /-- `b2.outlen`, 0 when no hash is initialised. -/
  outlen : Nat
  deriving DecidableEq, Repr

/-- A key-derivation instance (R45). -/
structure KdInstance where
  alg : HashAlg
  /-- The HMAC key block of the password. -/
  k0 : Bytes
  salt : Bytes
  iter : Nat
  /-- The index of the last derived block, 0 before the first. -/
  blk : Word
  /-- The last derived block. -/
  dbuf : Bytes
  /-- The offset in `dbuf` of the next byte not handed out. -/
  pos : Nat
  deriving DecidableEq, Repr

/-- The KD unit (R45, R26): `kd_active` is 1 exactly when there is an instance; without one every register
of the instance is 0 or empty. Log entry 10. -/
structure KdUnit where
  inst : Option KdInstance
  /-- `kd_disposed`. -/
  disposed : Bool
  deriving DecidableEq, Repr

/-- BUF as the list of its bytes that are not 0 (R48: every byte is 0 at reset). Canonical: `Memory.wf`. -/
abbrev Memory := List Host.Cell

/-- What the host and the platform may do between two commands (60_exceptions.md R303). Reading a register, a
CSR or a byte changes nothing, and is a function of the state (`regPort`, `csrPort`, `bufPort`). -/
inductive HostMove where
  /-- Write one command word to the command port. -/
  | command (w : Word)
  /-- Write one byte of BUF. -/
  | bufWrite (addr : Nat) (b : Byte)
  /-- `CLRERR` on the control port (R287). -/
  | clrErr
  /-- `SRST` on the control port (70_reset_and_hazards.md R321). -/
  | softReset
  /-- Assert the reset pin (R320). -/
  | hardReset
  /-- Leave the sequencer one step. -/
  | wait
  deriving DecidableEq, Repr

/-- The state of GS-CORE. Scratch (R47) is 0 between commands and is left out. Log entry 11. -/
structure State where
  /-- The operand registers (R20). -/
  x : Vector Word 16
  /-- The command pointer (R24). -/
  cp : Word
  /-- The command queue, oldest word first (R25). -/
  queue : List Word
  /-- `csr.ERR`, none for code 0 (R35). -/
  err : Option Trap
  /-- `csr.ERRCP` (R35). -/
  errcp : Word
  /-- `csr.ERRCMD` (R35). -/
  errcmd : Word
  /-- `csr.SC_CFG` (R37). -/
  scCfg : ScCfg
  /-- `csr.EV_ALG[15:0]` (R38). -/
  evAlg : Half
  /-- `csr.EV_ITER` (R39). -/
  evIter : Word
  /-- `csr.EV_SALTSZ[15:0]` (R40). -/
  evSaltsz : Half
  /-- `csr.EV_HSALTSZ[15:0]` (R40). -/
  evHsaltsz : Half
  /-- The SC unit (R41). -/
  sc : ScUnit
  /-- The B2 unit (R43). -/
  b2 : B2Unit
  /-- The KD unit (R45). -/
  kd : KdUnit
  /-- BUF (R48). -/
  mem : Memory
  /-- The MODEL's own: the open parameters (R9). Log entries 1 and 2. -/
  cfg : Config
  /-- The MODEL's own: the first bytes of the RNG's sequence (R300). Log entry 3. -/
  rngHead : Bytes
  /-- The MODEL's own: how many bytes the RNG has answered (R300). Log entry 3. -/
  rngPos : Nat
  /-- The MODEL's own: the coming moves of host and platform, oldest first (R303). Log entry 5. -/
  moves : List HostMove
  deriving DecidableEq, Repr

/-- What a command, or a step, answers. -/
abbrev Result := Host.Outcome State Fault Refusal

/-- The wiped SC unit, which is its reset value (R41, R135). -/
def ScUnit.zero : ScUnit where
  cs := Vector.replicate 16 0
  keyed := false
  nonced := false

/-- The wiped B2 unit, which is its reset value (R43, R161). -/
def B2Unit.zero : B2Unit where
  h := Vector.replicate 8 0
  t0 := 0
  t1 := 0
  f0 := 0
  f1 := 0
  bbuf := Vector.replicate 128 0
  c := 0
  outlen := 0

/-- The machine right after hard reset (R50, R320). The model's own fields: `BUF_BYTES` as in every test
vector (R9; DESIGN CHOICE, log entry 1), a queue depth (DESIGN CHOICE, log entry 2), an RNG of which
nothing is known and which has answered nothing (log entry 3), no host move to come (log entry 5). -/
def State.reset : State where
  x := Vector.replicate 16 0
  cp := 0
  queue := []
  err := none
  errcp := 0
  errcmd := 0
  scCfg := ⟨.chacha, .r20⟩
  evAlg := 0
  evIter := 0
  evSaltsz := 0
  evHsaltsz := 0
  sc := ScUnit.zero
  b2 := B2Unit.zero
  kd := ⟨none, false⟩
  mem := []
  cfg := ⟨65536, 16⟩
  rngHead := []
  rngPos := 0
  moves := []

end Sys2Proof.Machine
end

