-- ==== Sys2Proof/Machine/Bytes.lean ====
section
/-! DEFINITION. Byte strings and their numbers (00_scope.md R10, R11; byte orders of 20_memory.md R64). -/

namespace Sys2Proof.Machine

open Sys2Proof

/-- `zeros(n)` (R10). -/
def zeros (n : Nat) : Bytes := List.replicate n 0

/-- The little-endian number of a byte string, `sum b[i] * 256^i` (R11). -/
def leNat : Bytes → Nat
  | [] => 0
  | b :: bs => b.toNat + 256 * leNat bs

/-- The big-endian number of a byte string, `b[0]` most significant (R11). -/
def beNat (bs : Bytes) : Nat := leNat bs.reverse

/-- The `n`-byte little-endian string of a number (R11). -/
def toLe : (n v : Nat) → Bytes
  | 0, _ => []
  | n + 1, v => BitVec.ofNat 8 v :: toLe n (v / 256)

/-- The `n`-byte big-endian string of a number (R11). -/
def toBe (n v : Nat) : Bytes := (toLe n v).reverse

/-- `b[i..j)` (R10). -/
def slice (b : Bytes) (i j : Nat) : Bytes := (b.drop i).take (j - i)

/-- `le16` (R11). -/
def le16 (b : Bytes) : Half := BitVec.ofNat 16 (leNat b)

/-- `le32` (R11). -/
def le32 (b : Bytes) : Word := BitVec.ofNat 32 (leNat b)

/-- `le64` (R11). -/
def le64 (b : Bytes) : DWord := BitVec.ofNat 64 (leNat b)

/-- `to_le16` (R11). -/
def toLe16 (v : Half) : Bytes := toLe 2 v.toNat

/-- `to_le32` (R11). -/
def toLe32 (v : Word) : Bytes := toLe 4 v.toNat

/-- `to_le64` (R11). -/
def toLe64 (v : DWord) : Bytes := toLe 8 v.toNat

/-- `to_be32` (R11). -/
def toBe32 (v : Word) : Bytes := toBe 4 v.toNat

/-- `to_be64` (R11). -/
def toBe64 (v : DWord) : Bytes := toBe 8 v.toNat

/-- A row of `n` words of a table of constants, given as one numeral: the first word is the most significant. -/
def tableRow (width : Nat) : (n row : Nat) → List (BitVec width)
  | 0, _ => []
  | n + 1, row => BitVec.ofNat width (row >>> (width * n)) :: tableRow width n row

/-- Byte-wise exclusive or of strings of equal length (R195, R133). -/
def xorBytes (a b : Bytes) : Bytes := List.zipWith (· ^^^ ·) a b

/-- The first `count` blocks of `size` bytes of a string, in order. -/
def blocksOf (size : Nat) : (count : Nat) → Bytes → List Bytes
  | 0, _ => []
  | n + 1, b => b.take size :: blocksOf size n (b.drop size)

/-- The quotient rounded up, `ceil(n / d)` (R133, R213). -/
def ceilDiv (n d : Nat) : Nat := (n + d - 1) / d

end Sys2Proof.Machine
end

