-- ==== Sys2Proof/Machine/Ops.lean ====
section
/-! DEFINITION. The shared operations: BUF (20_memory.md), operand registers (10_state.md), retiring, taking a
fault and returning from one (60_exceptions.md). -/

namespace Sys2Proof.Machine

open Sys2Proof

/-! ## BUF -/

/-- What an unlisted byte of BUF reads as: 0, its reset value (10_state.md R48, R50). -/
def Memory.blank : Byte := 0

/-- The byte at an address (R60). -/
def Memory.readByte : Memory → Nat → Byte
  | [], _ => Memory.blank
  | (k, v) :: m, a => if k = a then v else Memory.readByte m a

/-- Sets the byte at an address and no other (R60), in canonical form: a byte that reads as an unlisted one
is not listed. -/
def Memory.writeByte : Memory → Nat → Byte → Memory
  | [], a, b => if b = Memory.blank then [] else [(a, b)]
  | (k, v) :: m, a, b =>
    if a < k then (if b = Memory.blank then (k, v) :: m else (a, b) :: (k, v) :: m)
    else if a = k then (if b = Memory.blank then m else (a, b) :: m)
    else (k, v) :: Memory.writeByte m a b

/-- Addresses rise strictly from `lo` up, and no entry is blank. -/
def Memory.wfFrom (lo : Nat) : Memory → Bool
  | [] => true
  | (k, v) :: m => decide (lo ≤ k) && decide (v ≠ Memory.blank) && Memory.wfFrom (k + 1) m

/-- The canonical form: equal contents are equal lists. -/
def Memory.wf (m : Memory) : Bool := Memory.wfFrom 0 m

/-- `MemRead(addr, n)` (R61). -/
def Memory.read (m : Memory) (a : Nat) : (n : Nat) → Bytes
  | 0 => []
  | n + 1 => Memory.readByte m a :: Memory.read m (a + 1) n

/-- `MemWrite(addr, len(v), v)` (R61). -/
def Memory.write (m : Memory) (a : Nat) : Bytes → Memory
  | [] => m
  | b :: bs => Memory.write (Memory.writeByte m a b) (a + 1) bs

/-- Every listed byte lies below `limit`. -/
def Memory.within (limit : Nat) (m : Memory) : Bool := m.all fun c => decide (c.1 < limit)

/-- `MemWrite` in the state (R61). -/
def State.store (s : State) (a : Nat) (v : Bytes) : State := { s with mem := s.mem.write a v }

/-! ## Operand registers -/

/-- `x[r]` (R12, R20). -/
def State.reg (s : State) (r : Reg) : Word := s.x.get r.toFin

/-- `x[r] <- v` (R12, R20); no register is hard-wired. -/
def State.setReg (s : State) (r : Reg) (v : Word) : State := { s with x := s.x.set r.toNat v r.isLt }

/-! ## The end of a command -/

/-- The command retires: `cp <- cp +32 1` (10_state.md R24). -/
def retire (s : State) : Result := .next { s with cp := s.cp + 1 }

/-- Fault entry (R284): `ERR`, `ERRCP` and `ERRCMD` are written, `cp` is kept, the queue is emptied, and
nothing else changes. Scratch is 0 by R47. `w` is the faulting command word. -/
def trapEntry (t : Trap) (w : Word) (s : State) : State :=
  { s with err := some t, errcp := s.cp, errcmd := w, queue := [] }

/-- `raise F` (R281). -/
def raise (t : Trap) (w : Word) (s : State) : Result := .next (trapEntry t w s)

/-- Return from a fault by `CLRERR`: `csr.ERR <- 0` and nothing else (R287). -/
def clearError (s : State) : State := { s with err := none }

/-- One check of a command and the fault it raises (R13). -/
structure Check where
  ok : Bool
  trap : Trap
  deriving DecidableEq, Repr

/-- The checks of a command in their order: the fault of the first that fails, none when all hold (R13,
R282). -/
def firstFault : List Check → Option Trap
  | [] => none
  | c :: cs => if c.ok then firstFault cs else some c.trap

/-- What a command does once its checks are made: fault entry for the first that fails, else what follows
(R13, R281). `w` is the command word. -/
def checked (w : Word) (s : State) (cs : List Check) (k : Unit → Result) : Result :=
  match firstFault cs with
  | some t => raise t w s
  | none => k ()

end Sys2Proof.Machine
end

