-- ==== Sys2Proof/Machine/Operands.lean ====
section
/-! DEFINITION. The operand forms: descriptor pairs, single registers, ranges of BUF and their admission
(10_state.md R22, 20_memory.md R62, R63, R69). -/

namespace Sys2Proof.Machine

open Sys2Proof

/-- A range of BUF: `addr`, `addr + 1`, up to `len` bytes, in unbounded integers (R62). -/
structure Range where
  addr : Nat
  len : Nat
  deriving DecidableEq, Repr

/-- Admission of a range in a BUF of `size` bytes (R62). -/
def Range.admitted (size : Nat) (r : Range) : Bool := decide (r.len = 0) || decide (r.addr + r.len ≤ size)

/-- Two ranges overlap (R63). -/
def Range.overlaps (a b : Range) : Bool :=
  decide (0 < a.len) && decide (0 < b.len) && decide (a.addr < b.addr + b.len) && decide (b.addr < a.addr + a.len)

/-- The address lies in the range. -/
def Range.contains (r : Range) (a : Nat) : Bool := decide (r.addr ≤ a) && decide (a < r.addr + r.len)

/-- An operand register read as an address, a length or a count (R22, R69). -/
def State.num (s : State) (r : Reg) : Nat := (s.reg r).toNat

/-- The second register of a pair (R22). -/
def Reg.next (r : Reg) : Reg := r + 1

/-- `buf(r)`: the range that the pair `x[r]`, `x[r+1]` describes (R12, R22). -/
def State.buf (s : State) (r : Reg) : Range := ⟨s.num r, s.num (Reg.next r)⟩

/-- The range of `n` bytes at the address in `x[r]`. -/
def State.dest (s : State) (r : Reg) (n : Nat) : Range := ⟨s.num r, n⟩

/-- The bytes of a range (R61). -/
def State.load (s : State) (r : Range) : Bytes := s.mem.read r.addr r.len

/-- The range is admitted in this machine's BUF (R62). -/
def State.admits (s : State) (r : Range) : Bool := r.admitted s.cfg.bufBytes

/-- Check (1) of the commands with descriptor pairs: decode, no pair field is 15 (R88, case 3). The decoder
lets no such command through; a term of `Instr` that no word encodes raises the same fault. Log entry 8. -/
def pairCheck (i : Instr) : Check := ⟨i.pairsOk, .illegalCommand⟩

/-- `ArgumentFault` unless the condition holds. -/
def needArgument (ok : Bool) : Check := ⟨ok, .argument⟩

/-- `StateFault` unless the condition holds. -/
def needState (ok : Bool) : Check := ⟨ok, .state⟩

/-- `AddressFault` unless the condition holds. -/
def needAddress (ok : Bool) : Check := ⟨ok, .address⟩

/-- `UnsupportedFault` unless the condition holds. -/
def needSupported (ok : Bool) : Check := ⟨ok, .unsupported⟩

/-- `IllegalCommand` unless the condition holds. -/
def needLegal (ok : Bool) : Check := ⟨ok, .illegalCommand⟩

end Sys2Proof.Machine
end

