-- ==== Sys2Proof/Machine/Flags.lean ====
section
/-! DEFINITION. The state flags (10_state.md R26), `STATUS` (R34), and the reading and writing of CSRs (R30 to
R40). -/

namespace Sys2Proof.Machine

open Sys2Proof

/-- The code of a fault in `csr.ERR` (60_exceptions.md R280). -/
def Trap.code : Trap → Word
  | .argument => 1
  | .integrity => 2
  | .state => 3
  | .unsupported => 4
  | .illegalCommand => 5
  | .address => 6

/-- `csr.ERR` as a word (R30, R35). -/
def errWord (e : Option Trap) : Word :=
  match e with
  | none => 0
  | some t => t.code

/-- `halted`: `csr.ERR != 0` (R26). -/
def State.halted (s : State) : Bool := s.err.isSome

/-- The output `busy` and `STATUS.BUSY` between two commands: words wait in the queue (R34); 0 while halted
(R285). DESIGN CHOICE where the two differ, which no run reaches: log entry 14. -/
def State.busy (s : State) : Bool := !s.queue.isEmpty && !s.halted

/-- `b2_active` (R26). -/
def B2Unit.active (b : B2Unit) : Bool := decide (b.outlen ≠ 0)

/-- `b2_final` (R26). -/
def B2Unit.final (b : B2Unit) : Bool := decide (b.f0 ≠ 0)

/-- `kd_active` (R26). -/
def KdUnit.active (k : KdUnit) : Bool := k.inst.isSome

/-- A word with one bit. -/
def flagBit (b : Bool) (k : Nat) : Word := if b then 1 <<< k else 0

/-- `STATUS` (R34), with the value `BUSY` has for the reader. -/
def statusWord (busy : Bool) (s : State) : Word :=
  flagBit busy 0 ||| flagBit s.halted 1
    ||| flagBit s.sc.keyed 8 ||| flagBit s.sc.nonced 9
    ||| flagBit s.b2.active 12 ||| flagBit s.b2.final 13
    ||| flagBit s.kd.active 16 ||| flagBit s.kd.disposed 17

/-- The field `ROUNDS` of a rounds setting (R37). -/
def Rounds.field : Rounds → Word
  | .r20 => 0
  | .r12 => 1
  | .r8 => 2

/-- The field `VARIANT` of a variant (R37). -/
def Variant.field : Variant → Word
  | .chacha => 0
  | .salsa => 1

/-- `csr.SC_CFG` as a word (R37). -/
def scCfgWord (c : ScCfg) : Word := c.variant.field ||| (c.rounds.field <<< 1)

/-- The setting a word stands for; none when a reserved bit is set or `ROUNDS` is 3 (R37, R105). -/
def scCfgOf (v : Word) : Option ScCfg :=
  if v.extractLsb' 3 29 ≠ 0 then none
  else
    let variant := if v.getLsbD 0 then Variant.salsa else Variant.chacha
    match v.extractLsb' 1 2 with
    | 0#2 => some ⟨variant, .r20⟩
    | 1#2 => some ⟨variant, .r12⟩
    | 2#2 => some ⟨variant, .r8⟩
    | _ => none

/-- The value of a CSR (R30), with the value `STATUS.BUSY` has for the reader: 1 for a `CSRR`, the live value
for the host (R34). -/
def csrValue (busy : Bool) (s : State) : Csr → Word
  | .id => idWord
  | .status => statusWord busy s
  | .err => errWord s.err
  | .errcp => s.errcp
  | .errcmd => s.errcmd
  | .cp => s.cp
  | .scCfg => scCfgWord s.scCfg
  | .evAlg => s.evAlg.setWidth 32
  | .evIter => s.evIter
  | .evSaltsz => s.evSaltsz.setWidth 32
  | .evHsaltsz => s.evHsaltsz.setWidth 32

/-- `SC.WIPE` on the state (41_stream_cipher.md R135). -/
def wipeSc (s : State) : State := { s with sc := ScUnit.zero }

/-- `B2.WIPE` on the state (42_blake2b.md R161). -/
def wipeB2 (s : State) : State := { s with b2 := B2Unit.zero }

/-- `KD.WIPE` on the state (44_pbkdf2.md R214): no instance, disposed. -/
def wipeKd (s : State) : State := { s with kd := ⟨none, true⟩ }

/-- The 16 low bits of a value whose 16 high bits are reserved and 0; none otherwise (R30, R31). -/
def half16 (v : Word) : Option Half :=
  if v.extractLsb' 16 16 = 0 then some (v.setWidth 16) else none

/-- The effect of a `CSRW` (R105): the state with the value stored; none when the value is not legal for the
CSR. A write of `SC_CFG` wipes the SC unit (R37). A read-only CSR takes no value; `CSRW` refuses it
before it comes here. -/
def csrStore (s : State) (v : Word) : Csr → Option State
  | .scCfg => (scCfgOf v).map fun c => wipeSc { s with scCfg := c }
  | .evAlg => (half16 v).map fun h => { s with evAlg := h }
  | .evIter => some { s with evIter := v }
  | .evSaltsz => (half16 v).map fun h => { s with evSaltsz := h }
  | .evHsaltsz => (half16 v).map fun h => { s with evHsaltsz := h }
  | .id | .status | .err | .errcp | .errcmd | .cp => none

end Sys2Proof.Machine
end

