-- ==== Sys2Proof/Machine/Control.lean ====
section
/-! DEFINITION. The control commands NOP, SETLO, SETHI, MOV, CSRR, CSRW, WIPE (40_control_commands.md). -/

namespace Sys2Proof.Machine

open Sys2Proof

/-- `NOP` (R100). -/
def execNop (s : State) : Result := retire s

/-- `SETLO rd, imm16` (R101). -/
def execSetlo (rd : Reg) (imm : Half) (s : State) : Result := retire (s.setReg rd (imm.setWidth 32))

/-- `SETHI rd, imm16` (R102). -/
def execSethi (rd : Reg) (imm : Half) (s : State) : Result :=
  retire (s.setReg rd (imm ++ (s.reg rd).extractLsb' 0 16))

/-- `MOV rd, ra` (R103). -/
def execMov (rd ra : Reg) (s : State) : Result := retire (s.setReg rd (s.reg ra))

/-- `CSRR rd, csr` (R104). The core is executing, so `STATUS.BUSY` reads 1 (R34). -/
def execCsrr (rd : Reg) (csr : Csr) (s : State) : Result := retire (s.setReg rd (csrValue true s csr))

/-- `CSRW csr, ra` (R105). -/
def execCsrw (csr : Csr) (ra : Reg) (s : State) : Result :=
  let w := encode (.csrw csr ra)
  checked w s [needLegal csr.writable] fun _ =>
    match csrStore s (s.reg ra) csr with
    | none => raise .argument w s
    | some t => retire t

/-- `WIPE` (R106): `SC.WIPE`, `B2.WIPE` and `KD.WIPE` together. -/
def execWipe (s : State) : Result := retire (wipeKd (wipeB2 (wipeSc s)))

end Sys2Proof.Machine
end

