-- ==== Sys2Proof/Machine/BlockCipher.lean ====
section
/-! DEFINITION. The block-cipher unit BC: AES-256, PKCS7, CBC (45_aes_cbc.md). -/

namespace Sys2Proof.Machine

open Sys2Proof

/-- `xtime(a)` (R231). -/
def xtime (a : Byte) : Byte := if a.getLsbD 7 then (a <<< 1) ^^^ 0x1B else a <<< 1

/-- The sum over the bits `i`, `i + 1`, up to 7 of `b`, of `a` times `x` to the power of the bit (R231); `n` is
how many bits are left, `a` is already multiplied up to bit `i`. -/
def gfSum (b : Byte) : (n i : Nat) → (a : Byte) → Byte
  | 0, _, _ => 0
  | n + 1, i, a => (if b.getLsbD i then a else 0) ^^^ gfSum b n (i + 1) (xtime a)

/-- Multiplication in GF(2^8) modulo `x^8 + x^4 + x^3 + x + 1` (R231). -/
def gfMul (a b : Byte) : Byte := gfSum b 8 0 a

/-- The S-box table: row = high nibble, column = low nibble (R232). -/
def sboxRows : List Bytes :=
  [[0x63, 0x7c, 0x77, 0x7b, 0xf2, 0x6b, 0x6f, 0xc5, 0x30, 0x01, 0x67, 0x2b, 0xfe, 0xd7, 0xab, 0x76],
   [0xca, 0x82, 0xc9, 0x7d, 0xfa, 0x59, 0x47, 0xf0, 0xad, 0xd4, 0xa2, 0xaf, 0x9c, 0xa4, 0x72, 0xc0],
   [0xb7, 0xfd, 0x93, 0x26, 0x36, 0x3f, 0xf7, 0xcc, 0x34, 0xa5, 0xe5, 0xf1, 0x71, 0xd8, 0x31, 0x15],
   [0x04, 0xc7, 0x23, 0xc3, 0x18, 0x96, 0x05, 0x9a, 0x07, 0x12, 0x80, 0xe2, 0xeb, 0x27, 0xb2, 0x75],
   [0x09, 0x83, 0x2c, 0x1a, 0x1b, 0x6e, 0x5a, 0xa0, 0x52, 0x3b, 0xd6, 0xb3, 0x29, 0xe3, 0x2f, 0x84],
   [0x53, 0xd1, 0x00, 0xed, 0x20, 0xfc, 0xb1, 0x5b, 0x6a, 0xcb, 0xbe, 0x39, 0x4a, 0x4c, 0x58, 0xcf],
   [0xd0, 0xef, 0xaa, 0xfb, 0x43, 0x4d, 0x33, 0x85, 0x45, 0xf9, 0x02, 0x7f, 0x50, 0x3c, 0x9f, 0xa8],
   [0x51, 0xa3, 0x40, 0x8f, 0x92, 0x9d, 0x38, 0xf5, 0xbc, 0xb6, 0xda, 0x21, 0x10, 0xff, 0xf3, 0xd2],
   [0xcd, 0x0c, 0x13, 0xec, 0x5f, 0x97, 0x44, 0x17, 0xc4, 0xa7, 0x7e, 0x3d, 0x64, 0x5d, 0x19, 0x73],
   [0x60, 0x81, 0x4f, 0xdc, 0x22, 0x2a, 0x90, 0x88, 0x46, 0xee, 0xb8, 0x14, 0xde, 0x5e, 0x0b, 0xdb],
   [0xe0, 0x32, 0x3a, 0x0a, 0x49, 0x06, 0x24, 0x5c, 0xc2, 0xd3, 0xac, 0x62, 0x91, 0x95, 0xe4, 0x79],
   [0xe7, 0xc8, 0x37, 0x6d, 0x8d, 0xd5, 0x4e, 0xa9, 0x6c, 0x56, 0xf4, 0xea, 0x65, 0x7a, 0xae, 0x08],
   [0xba, 0x78, 0x25, 0x2e, 0x1c, 0xa6, 0xb4, 0xc6, 0xe8, 0xdd, 0x74, 0x1f, 0x4b, 0xbd, 0x8b, 0x8a],
   [0x70, 0x3e, 0xb5, 0x66, 0x48, 0x03, 0xf6, 0x0e, 0x61, 0x35, 0x57, 0xb9, 0x86, 0xc1, 0x1d, 0x9e],
   [0xe1, 0xf8, 0x98, 0x11, 0x69, 0xd9, 0x8e, 0x94, 0x9b, 0x1e, 0x87, 0xe9, 0xce, 0x55, 0x28, 0xdf],
   [0x8c, 0xa1, 0x89, 0x0d, 0xbf, 0xe6, 0x42, 0x68, 0x41, 0x99, 0x2d, 0x0f, 0xb0, 0x54, 0xbb, 0x16]]

/-- `SBox[a]` (R232). -/
def sbox (a : Byte) : Byte := (sboxRows.getD (a.toNat / 16) []).getD (a.toNat % 16) 0

/-- `InvSBox[a]`, the inverse permutation: the place of `a` in the table (R232). -/
def invSbox (a : Byte) : Byte := BitVec.ofNat 8 (sboxRows.flatten.idxOf a)

/-- `RotWord` (R233). -/
def rotWord (t : Bytes) : Bytes := t.drop 1 ++ t.take 1

/-- `SubWord` (R233). -/
def subWord (t : Bytes) : Bytes := t.map sbox

/-- Words `i`, `i + 1`, up to `n` of them, of the key schedule; `w` holds the words before them and `rc` the
round constant (R233). -/
def expandWords : (n i : Nat) → (rc : Byte) → (w : List Bytes) → List Bytes
  | 0, _, _, w => w
  | n + 1, i, rc, w =>
    let t := w.getD (i - 1) []
    let old := w.getD (i - 8) []
    if i % 8 = 0 then
      expandWords n (i + 1) (xtime rc) (w ++ [xorBytes old (xorBytes (subWord (rotWord t)) [rc, 0, 0, 0])])
    else if i % 8 = 4 then expandWords n (i + 1) rc (w ++ [xorBytes old (subWord t)])
    else expandWords n (i + 1) rc (w ++ [xorBytes old t])

/-- The 60 words of the key schedule (R233). -/
def keySchedule (key : Bytes) : List Bytes := expandWords 52 8 0x01 (blocksOf 4 8 key)

/-- Round key `r` (R233). -/
def roundKey (w : List Bytes) (r : Nat) : Bytes := ((w.drop (4 * r)).take 4).flatten

/-- `SubBytes` (R234). -/
def subBytes (s : Bytes) : Bytes := s.map sbox

/-- `InvSubBytes` (R234). -/
def invSubBytes (s : Bytes) : Bytes := s.map invSbox

/-- `ShiftRows`: byte `4c + r` comes from column `c + r` (R234). -/
def shiftRows (s : Bytes) : Bytes :=
  (List.range 16).map fun i => s.getD (4 * ((i / 4 + i % 4) % 4) + i % 4) 0

/-- `InvShiftRows`: byte `4c + r` comes from column `c - r` (R234). -/
def invShiftRows (s : Bytes) : Bytes :=
  (List.range 16).map fun i => s.getD (4 * ((i / 4 + 4 - i % 4) % 4) + i % 4) 0

/-- One column times the circulant matrix whose first row is `k0 k1 k2 k3` (R234). -/
def mixColumn (k0 k1 k2 k3 : Byte) (a : Bytes) : Bytes :=
  let a0 := a.getD 0 0
  let a1 := a.getD 1 0
  let a2 := a.getD 2 0
  let a3 := a.getD 3 0
  [gfMul a0 k0 ^^^ gfMul a1 k1 ^^^ gfMul a2 k2 ^^^ gfMul a3 k3,
   gfMul a0 k3 ^^^ gfMul a1 k0 ^^^ gfMul a2 k1 ^^^ gfMul a3 k2,
   gfMul a0 k2 ^^^ gfMul a1 k3 ^^^ gfMul a2 k0 ^^^ gfMul a3 k1,
   gfMul a0 k1 ^^^ gfMul a1 k2 ^^^ gfMul a2 k3 ^^^ gfMul a3 k0]

/-- `MixColumns` (R234). -/
def mixColumns (s : Bytes) : Bytes := ((blocksOf 4 4 s).map (mixColumn 0x02 0x03 0x01 0x01)).flatten

/-- `InvMixColumns` (R234). -/
def invMixColumns (s : Bytes) : Bytes := ((blocksOf 4 4 s).map (mixColumn 0x0e 0x0b 0x0d 0x09)).flatten

/-- Rounds `r`, `r + 1`, up to `n` of them, of the cipher (R235). -/
def encRounds (w : List Bytes) : (n r : Nat) → Bytes → Bytes
  | 0, _, s => s
  | n + 1, r, s => encRounds w n (r + 1) (xorBytes (mixColumns (shiftRows (subBytes s))) (roundKey w r))

/-- `AesEnc(key, blk)` (R235). -/
def aesEnc (key blk : Bytes) : Bytes :=
  let w := keySchedule key
  let s := encRounds w 13 1 (xorBytes blk (roundKey w 0))
  xorBytes (shiftRows (subBytes s)) (roundKey w 14)

/-- Rounds `n`, `n - 1`, down to 1, of the inverse cipher (R235). -/
def decRounds (w : List Bytes) : (n : Nat) → Bytes → Bytes
  | 0, s => s
  | n + 1, s => decRounds w n (invMixColumns (xorBytes (invSubBytes (invShiftRows s)) (roundKey w (n + 1))))

/-- `AesDec(key, blk)` (R235). -/
def aesDec (key blk : Bytes) : Bytes :=
  let w := keySchedule key
  let s := decRounds w 13 (xorBytes blk (roundKey w 14))
  xorBytes (invSubBytes (invShiftRows s)) (roundKey w 0)

/-- `Pad(data)` of PKCS7 (R236). -/
def pkcsPad (data : Bytes) : Bytes :=
  let p := 16 - data.length % 16
  data ++ List.replicate p (BitVec.ofNat 8 p)

/-- `Unpad(buf)` of PKCS7, none when the padding is invalid (R236). -/
def pkcsUnpad (buf : Bytes) : Option Bytes :=
  let last := buf.getLastD 0
  let p := last.toNat
  if p < 1 || 16 < p then none
  else if (buf.drop (buf.length - p)).all (· == last) then some (buf.take (buf.length - p))
  else none

/-- The CBC chain of encryption (R237). -/
def cbcChain (key : Bytes) : (prev : Bytes) → List Bytes → Bytes
  | _, [] => []
  | prev, p :: ps =>
    let c := aesEnc key (xorBytes p prev)
    c ++ cbcChain key c ps

/-- `CbcEncrypt(key, iv, data)` (R237). -/
def cbcEncrypt (key iv data : Bytes) : Bytes :=
  let p := pkcsPad data
  cbcChain key iv (blocksOf 16 (p.length / 16) p)

/-- The CBC chain of decryption (R237). -/
def cbcUnchain (key : Bytes) : (prev : Bytes) → List Bytes → Bytes
  | _, [] => []
  | prev, c :: cs => xorBytes (aesDec key c) prev ++ cbcUnchain key c cs

/-- `CbcDecrypt(key, iv, ct)`, none for "invalid" (R237). -/
def cbcDecrypt (key iv ct : Bytes) : Option Bytes :=
  if ct.length = 0 || ct.length % 16 ≠ 0 then none
  else pkcsUnpad (cbcUnchain key iv (blocksOf 16 (ct.length / 16) ct))

end Sys2Proof.Machine
end

