-- ==== Sys2Proof/Machine/Blake2b.lean ====
section
/-! DEFINITION. The incremental hasher B2: BLAKE2b and the commands B2.INIT, B2.UPDATE, B2.FINAL, B2.WIPE
(42_blake2b.md). -/

namespace Sys2Proof.Machine

open Sys2Proof

/-- `IV[0..7]` (R151), also the initial state of SHA-512 (R190). -/
def blakeIv : Vector DWord 8 :=
  #v[0x6a09e667f3bcc908, 0xbb67ae8584caa73b, 0x3c6ef372fe94f82b, 0xa54ff53a5f1d36f1,
     0x510e527fade682d1, 0x9b05688c2b3e6c1f, 0x1f83d9abfb41bd6b, 0x5be0cd19137e2179]

/-- The message-word permutation `SIGMA[0..9]` (R152). -/
def blakeSigma : List (List Nat) :=
  [[0, 1, 2, 3, 4, 5, 6, 7, 8, 9, 10, 11, 12, 13, 14, 15],
   [14, 10, 4, 8, 9, 15, 13, 6, 1, 12, 0, 2, 11, 7, 5, 3],
   [11, 8, 12, 0, 5, 2, 15, 13, 10, 14, 3, 6, 7, 1, 9, 4],
   [7, 9, 3, 1, 13, 12, 11, 14, 2, 6, 5, 10, 4, 0, 15, 8],
   [9, 0, 5, 7, 2, 4, 10, 15, 14, 1, 11, 12, 6, 8, 3, 13],
   [2, 12, 6, 10, 0, 11, 8, 3, 4, 13, 7, 5, 15, 14, 1, 9],
   [12, 5, 1, 15, 14, 13, 4, 10, 0, 7, 6, 3, 9, 2, 8, 11],
   [13, 11, 7, 14, 12, 1, 3, 9, 5, 0, 15, 4, 8, 6, 2, 10],
   [6, 15, 14, 9, 11, 3, 0, 8, 12, 2, 13, 7, 1, 4, 10, 5],
   [10, 2, 8, 4, 7, 6, 1, 5, 15, 11, 9, 14, 3, 12, 13, 0]]

/-- The mixing function `G(v, a, b, c, d, x, y)` (R153). -/
def blakeMix (v : Vector DWord 16) (a b c d : Fin 16) (x y : DWord) : Vector DWord 16 :=
  let v := v.set a (v[a] + v[b] + x)
  let v := v.set d ((v[d] ^^^ v[a]).rotateRight 32)
  let v := v.set c (v[c] + v[d])
  let v := v.set b ((v[b] ^^^ v[c]).rotateRight 24)
  let v := v.set a (v[a] + v[b] + y)
  let v := v.set d ((v[d] ^^^ v[a]).rotateRight 16)
  let v := v.set c (v[c] + v[d])
  v.set b ((v[b] ^^^ v[c]).rotateRight 63)

/-- One round: columns, then diagonals (R154). `m` are the 16 message words, `s` a row of `SIGMA`. -/
def blakeRound (m : List DWord) (s : List Nat) (v : Vector DWord 16) : Vector DWord 16 :=
  let p := fun j => m.getD (s.getD j 0) 0
  let v := blakeMix v 0 4 8 12 (p 0) (p 1)
  let v := blakeMix v 1 5 9 13 (p 2) (p 3)
  let v := blakeMix v 2 6 10 14 (p 4) (p 5)
  let v := blakeMix v 3 7 11 15 (p 6) (p 7)
  let v := blakeMix v 0 5 10 15 (p 8) (p 9)
  let v := blakeMix v 1 6 11 12 (p 10) (p 11)
  let v := blakeMix v 2 7 8 13 (p 12) (p 13)
  blakeMix v 3 4 9 14 (p 14) (p 15)

/-- Rounds `r`, `r + 1`, up to `n` of them; round `r` uses row `r mod 10` (R152, R154). -/
def blakeRounds (m : List DWord) : (n r : Nat) → Vector DWord 16 → Vector DWord 16
  | 0, _, v => v
  | n + 1, r, v => blakeRounds m n (r + 1) (blakeRound m (blakeSigma.getD (r % 10) []) v)

/-- The work vector before the rounds (R154). -/
def blakeWork (b : B2Unit) : Vector DWord 16 :=
  let v := b.h ++ blakeIv
  let v := v.set 12 (v[12] ^^^ b.t0)
  let v := v.set 13 (v[13] ^^^ b.t1)
  let v := v.set 14 (v[14] ^^^ b.f0)
  v.set 15 (v[15] ^^^ b.f1)

/-- `Compress(block)`, the chaining words only (R154). -/
def blakeCompress (b : B2Unit) (block : Bytes) : Vector DWord 8 :=
  let m := (blocksOf 8 16 block).map le64
  let v := blakeRounds m 12 0 (blakeWork b)
  Vector.ofFn fun i : Fin 8 => b.h[i] ^^^ v[i.val] ^^^ v[i.val + 8]

/-- `CtrAdd(n)` (R157). -/
def blakeCount (b : B2Unit) (n : Nat) : B2Unit :=
  let t0 := b.t0 + BitVec.ofNat 64 n
  { b with t0 := t0, t1 := if t0.toNat < n then b.t1 + 1 else b.t1 }

/-- A full buffer is counted, compressed and emptied (R158). -/
def blakeFlush (b : B2Unit) : B2Unit :=
  let b := blakeCount b 128
  { b with h := blakeCompress b b.bbuf.toList, bbuf := Vector.replicate 128 0, c := 0 }

/-- One byte of `Absorb` (R158). -/
def blakeAbsorbByte (b : B2Unit) (d : Byte) : B2Unit :=
  let b := if b.c = 128 then blakeFlush b else b
  { b with bbuf := b.bbuf.setIfInBounds b.c d, c := b.c + 1 }

/-- `Absorb(data)` (R158). -/
def blakeAbsorb (b : B2Unit) (data : Bytes) : B2Unit := data.foldl blakeAbsorbByte b

/-- The 16 bytes of an operand that may be absent; absent is 16 zero bytes (R155, D19). -/
def orZeros16 (b : Bytes) : Bytes := if b.length = 0 then zeros 16 else b

/-- The configuration block `P`, 64 bytes (R155). -/
def blakeConfig (outlen : Byte) (key salt pers : Bytes) : Bytes :=
  [outlen, BitVec.ofNat 8 key.length, 1, 1] ++ zeros 4 ++ zeros 8 ++ zeros 1 ++ zeros 1 ++ zeros 14
    ++ orZeros16 salt ++ orZeros16 pers

/-- The unit right after initialisation, before the key is absorbed (R155, R156). -/
def blakeStart (outlen : Byte) (key salt pers : Bytes) : B2Unit :=
  let p := blakeConfig outlen key salt pers
  { B2Unit.zero with
    h := Vector.ofFn fun i : Fin 8 => blakeIv[i] ^^^ le64 (slice p (8 * i.val) (8 * i.val + 8))
    outlen := outlen.toNat }

/-- The effect of `B2.INIT`: the key, when there is one, is absorbed as a zero-padded block (R156). -/
def blakeInit (outlen : Byte) (key salt pers : Bytes) : B2Unit :=
  let b := blakeStart outlen key salt pers
  if 0 < key.length then blakeAbsorb b (key ++ zeros (128 - key.length)) else b

/-- The last compression of `B2.FINAL`: the counter takes the buffered bytes, the flag is set (R160). -/
def blakeLast (b : B2Unit) : B2Unit :=
  let b := if 0 < b.c then blakeCount b b.c else b
  let b := { b with f0 := BitVec.allOnes 64 }
  { b with h := blakeCompress b b.bbuf.toList }

/-- The digest, truncated to the configured length (R160). -/
def blakeDigest (b : B2Unit) : Bytes := ((b.h.toList.map toLe64).flatten).take b.outlen

/-- The unit after `B2.FINAL`: all zero but for the flag and the output length (R160). -/
def blakeDone (b : B2Unit) : B2Unit := { B2Unit.zero with f0 := b.f0, f1 := b.f1, outlen := b.outlen }

/-- A hash is in progress: initialised and not finalized (R159, R160). -/
def B2Unit.ready (b : B2Unit) : Bool := b.active && !b.final

/-- `B2.INIT ra, rb, rc, imm8` (R156). -/
def execB2Init (ra rb rc : Reg) (imm : Byte) (s : State) : Result :=
  let i := Instr.b2Init ra rb rc imm
  let key := s.buf ra
  let salt := s.buf rb
  let pers := s.buf rc
  checked (encode i) s
    [pairCheck i,
      needArgument (decide (1 ≤ imm.toNat) && decide (imm.toNat ≤ b2OutMax) && decide (key.len ≤ b2KeyMax)
        && (salt.len == 0 || salt.len == 16) && (pers.len == 0 || pers.len == 16)),
      needAddress (s.admits key && s.admits salt && s.admits pers)] fun _ =>
    retire { s with b2 := blakeInit imm (s.load key) (s.load salt) (s.load pers) }

/-- `B2.UPDATE ra` (R159). -/
def execB2Update (ra : Reg) (s : State) : Result :=
  let i := Instr.b2Update ra
  let input := s.buf ra
  checked (encode i) s
    [pairCheck i, needState s.b2.ready, needAddress (s.admits input)] fun _ =>
    retire { s with b2 := blakeAbsorb s.b2 (s.load input) }

/-- `B2.FINAL rd` (R160). -/
def execB2Final (rd : Reg) (s : State) : Result :=
  checked (encode (.b2Final rd)) s
    [needState s.b2.ready, needAddress (s.admits (s.dest rd s.b2.outlen))] fun _ =>
    let last := blakeLast s.b2
    retire ({ s with b2 := blakeDone last }.store (s.num rd) (blakeDigest last))

/-- `B2.WIPE` (R161). -/
def execB2Wipe (s : State) : Result := retire (wipeB2 s)

end Sys2Proof.Machine
end

