-- ==== Sys2Proof/Machine/Sha.lean ====
section
/-! DEFINITION. The SHA family: padding, SHA-1, SHA-256, SHA-384, SHA-512 (43_sha_hmac.md section 3). -/

namespace Sys2Proof.Machine

open Sys2Proof

/-- `Pad(msg, B)` (R181): the byte 0x80, the fewest zeros that reach `B - B/8` modulo `B`, the bit length as a
big-endian number of `B/8` bytes. -/
def shaPad (size : Nat) (msg : Bytes) : Bytes :=
  msg ++ [0x80] ++ zeros ((2 * size - size / 8 - 1 - msg.length % size) % size) ++ toBe (size / 8) (8 * msg.length)

/-- The blocks of the padded message (R181). -/
def shaBlocks (size : Nat) (msg : Bytes) : List Bytes :=
  let p := shaPad size msg
  blocksOf size (p.length / size) p

/-- The sixteen big-endian words of `width / 8` bytes of a block (R182, R184, R191). -/
def shaWords (width : Nat) (block : Bytes) : List (BitVec width) :=
  (blocksOf (width / 8) 16 block).map fun b => BitVec.ofNat width (beNat b)

/-- Adds `n` words to a message schedule held newest first, each made from the words before it. -/
def shaExtend {width : Nat} (next : List (BitVec width) → BitVec width) :
    (n : Nat) → List (BitVec width) → List (BitVec width)
  | 0, w => w
  | n + 1, w => shaExtend next n (next w :: w)

/-- The message schedule of a block, `W[0]` first: its sixteen words and `n` more (R182, R184, R191). -/
def shaSchedule {width : Nat} (next : List (BitVec width) → BitVec width) (n : Nat) (block : Bytes) :
    List (BitVec width) :=
  (shaExtend next n (shaWords width block).reverse).reverse

/-- `W[t-k]`, where the schedule, newest first, holds the words before `W[t]`. -/
def shaBack {width : Nat} (w : List (BitVec width)) (k : Nat) : BitVec width := w.getD (k - 1) 0

/-! ## SHA-1 -/

/-- The five words of SHA-1 (R182). -/
structure Sha1State where
  a : Word
  b : Word
  c : Word
  d : Word
  e : Word
  deriving DecidableEq, Repr

/-- The initial state of SHA-1 (R182). -/
def sha1Init : Sha1State := ⟨0x67452301, 0xEFCDAB89, 0x98BADCFE, 0x10325476, 0xC3D2E1F0⟩

/-- The function and the constant of step `t` (R182). -/
def sha1Mix (t : Nat) (b c d : Word) : Word × Word :=
  if t ≤ 19 then ((b &&& c) ||| (~~~b &&& d), 0x5A827999)
  else if t ≤ 39 then (b ^^^ c ^^^ d, 0x6ED9EBA1)
  else if t ≤ 59 then ((b &&& c) ||| (b &&& d) ||| (c &&& d), 0x8F1BBCDC)
  else (b ^^^ c ^^^ d, 0xCA62C1D6)

/-- Step `t` with schedule word `w` (R182). -/
def sha1Step (s : Sha1State) (t : Nat) (w : Word) : Sha1State :=
  let fk := sha1Mix t s.b s.c s.d
  ⟨s.a.rotateLeft 5 + fk.1 + s.e + fk.2 + w, s.a, s.b.rotateLeft 30, s.c, s.d⟩

/-- The steps from number `t` on, one for each schedule word. -/
def sha1Steps : (t : Nat) → List Word → Sha1State → Sha1State
  | _, [], s => s
  | t, w :: ws, s => sha1Steps (t + 1) ws (sha1Step s t w)

/-- `W[t]` for `t` from 16 (R182). -/
def sha1Next (w : List Word) : Word :=
  (shaBack w 3 ^^^ shaBack w 8 ^^^ shaBack w 14 ^^^ shaBack w 16).rotateLeft 1

/-- One block of SHA-1 (R182). -/
def sha1Block (h : Sha1State) (block : Bytes) : Sha1State :=
  let s := sha1Steps 0 (shaSchedule sha1Next 64 block) h
  ⟨h.a + s.a, h.b + s.b, h.c + s.c, h.d + s.d, h.e + s.e⟩

/-- SHA-1, 20 bytes (R182). -/
def sha1 (msg : Bytes) : Bytes :=
  let h := (shaBlocks 64 msg).foldl sha1Block sha1Init
  [h.a, h.b, h.c, h.d, h.e].flatMap toBe32

/-! ## SHA-256, SHA-384, SHA-512 -/

/-- The eight words of a SHA-2 function (R184, R191). -/
structure Sha2State (width : Nat) where
  a : BitVec width
  b : BitVec width
  c : BitVec width
  d : BitVec width
  e : BitVec width
  f : BitVec width
  g : BitVec width
  h : BitVec width
  deriving DecidableEq, Repr

/-- What sets SHA-256 apart from SHA-512: amounts of rotation and shift, and round constants (R184, R191). -/
structure Sha2Kind (width : Nat) where
  /-- Two rotations and a shift: `s0` of the schedule. -/
  s0 : Nat × Nat × Nat
  /-- Two rotations and a shift: `s1` of the schedule. -/
  s1 : Nat × Nat × Nat
  /-- Three rotations of `a`: `S0` of a round. -/
  bigS0 : Nat × Nat × Nat
  /-- Three rotations of `e`: `S1` of a round. -/
  bigS1 : Nat × Nat × Nat
  /-- The round constants, one for each round. -/
  k : List (BitVec width)
  deriving DecidableEq, Repr

/-- Two rotations right and a shift right, exclusive-ored. -/
def sha2Small {width : Nat} (n : Nat × Nat × Nat) (v : BitVec width) : BitVec width :=
  v.rotateRight n.1 ^^^ v.rotateRight n.2.1 ^^^ (v >>> n.2.2)

/-- Three rotations right, exclusive-ored. -/
def sha2Big {width : Nat} (n : Nat × Nat × Nat) (v : BitVec width) : BitVec width :=
  v.rotateRight n.1 ^^^ v.rotateRight n.2.1 ^^^ v.rotateRight n.2.2

/-- `W[t]` for `t` from 16 (R184, R191). -/
def sha2Next {width : Nat} (p : Sha2Kind width) (w : List (BitVec width)) : BitVec width :=
  shaBack w 16 + sha2Small p.s0 (shaBack w 15) + shaBack w 7 + sha2Small p.s1 (shaBack w 2)

/-- One round, with its constant and its schedule word (R184, R191). -/
def sha2Round {width : Nat} (p : Sha2Kind width) (s : Sha2State width) (kw : BitVec width × BitVec width) :
    Sha2State width :=
  let ch := (s.e &&& s.f) ^^^ (~~~s.e &&& s.g)
  let t1 := s.h + sha2Big p.bigS1 s.e + ch + kw.1 + kw.2
  let mj := (s.a &&& s.b) ^^^ (s.a &&& s.c) ^^^ (s.b &&& s.c)
  let t2 := sha2Big p.bigS0 s.a + mj
  ⟨t1 + t2, s.a, s.b, s.c, s.d + t1, s.e, s.f, s.g⟩

/-- One block (R184, R191). -/
def sha2Block {width : Nat} (p : Sha2Kind width) (h : Sha2State width) (block : Bytes) : Sha2State width :=
  let w := shaSchedule (sha2Next p) (p.k.length - 16) block
  let s := (List.zip p.k w).foldl (sha2Round p) h
  ⟨h.a + s.a, h.b + s.b, h.c + s.c, h.d + s.d, h.e + s.e, h.f + s.f, h.g + s.g, h.h + s.h⟩

/-- The eight words after all blocks. -/
def sha2Words {width : Nat} (p : Sha2Kind width) (init : Sha2State width) (msg : Bytes) : List (BitVec width) :=
  let h := (shaBlocks (2 * width) msg).foldl (sha2Block p) init
  [h.a, h.b, h.c, h.d, h.e, h.f, h.g, h.h]

/-- The round constants `K256`, in the rows of R183. -/
def k256 : List Word :=
  [0x428a2f98_71374491_b5c0fbcf_e9b5dba5_3956c25b_59f111f1_923f82a4_ab1c5ed5,
   0xd807aa98_12835b01_243185be_550c7dc3_72be5d74_80deb1fe_9bdc06a7_c19bf174,
   0xe49b69c1_efbe4786_0fc19dc6_240ca1cc_2de92c6f_4a7484aa_5cb0a9dc_76f988da,
   0x983e5152_a831c66d_b00327c8_bf597fc7_c6e00bf3_d5a79147_06ca6351_14292967,
   0x27b70a85_2e1b2138_4d2c6dfc_53380d13_650a7354_766a0abb_81c2c92e_92722c85,
   0xa2bfe8a1_a81a664b_c24b8b70_c76c51a3_d192e819_d6990624_f40e3585_106aa070,
   0x19a4c116_1e376c08_2748774c_34b0bcb5_391c0cb3_4ed8aa4a_5b9cca4f_682e6ff3,
   0x748f82ee_78a5636f_84c87814_8cc70208_90befffa_a4506ceb_bef9a3f7_c67178f2].flatMap (tableRow 32 8)

/-- SHA-256 (R184). -/
def sha256Kind : Sha2Kind 32 := ⟨(7, 18, 3), (17, 19, 10), (2, 13, 22), (6, 11, 25), k256⟩

/-- The initial state of SHA-256 (R183). -/
def sha256Init : Sha2State 32 :=
  ⟨0x6a09e667, 0xbb67ae85, 0x3c6ef372, 0xa54ff53a, 0x510e527f, 0x9b05688c, 0x1f83d9ab, 0x5be0cd19⟩

/-- SHA-256, 32 bytes (R184). -/
def sha256 (msg : Bytes) : Bytes := (sha2Words sha256Kind sha256Init msg).flatMap toBe32

/-- The round constants `K512`, in the rows of R190. -/
def k512 : List DWord :=
  [0x428a2f98d728ae22_7137449123ef65cd_b5c0fbcfec4d3b2f_e9b5dba58189dbbc,
   0x3956c25bf348b538_59f111f1b605d019_923f82a4af194f9b_ab1c5ed5da6d8118,
   0xd807aa98a3030242_12835b0145706fbe_243185be4ee4b28c_550c7dc3d5ffb4e2,
   0x72be5d74f27b896f_80deb1fe3b1696b1_9bdc06a725c71235_c19bf174cf692694,
   0xe49b69c19ef14ad2_efbe4786384f25e3_0fc19dc68b8cd5b5_240ca1cc77ac9c65,
   0x2de92c6f592b0275_4a7484aa6ea6e483_5cb0a9dcbd41fbd4_76f988da831153b5,
   0x983e5152ee66dfab_a831c66d2db43210_b00327c898fb213f_bf597fc7beef0ee4,
   0xc6e00bf33da88fc2_d5a79147930aa725_06ca6351e003826f_142929670a0e6e70,
   0x27b70a8546d22ffc_2e1b21385c26c926_4d2c6dfc5ac42aed_53380d139d95b3df,
   0x650a73548baf63de_766a0abb3c77b2a8_81c2c92e47edaee6_92722c851482353b,
   0xa2bfe8a14cf10364_a81a664bbc423001_c24b8b70d0f89791_c76c51a30654be30,
   0xd192e819d6ef5218_d69906245565a910_f40e35855771202a_106aa07032bbd1b8,
   0x19a4c116b8d2d0c8_1e376c085141ab53_2748774cdf8eeb99_34b0bcb5e19b48a8,
   0x391c0cb3c5c95a63_4ed8aa4ae3418acb_5b9cca4f7763e373_682e6ff3d6b2b8a3,
   0x748f82ee5defb2fc_78a5636f43172f60_84c87814a1f0ab72_8cc702081a6439ec,
   0x90befffa23631e28_a4506cebde82bde9_bef9a3f7b2c67915_c67178f2e372532b,
   0xca273eceea26619c_d186b8c721c0c207_eada7dd6cde0eb1e_f57d4f7fee6ed178,
   0x06f067aa72176fba_0a637dc5a2c898a6_113f9804bef90dae_1b710b35131c471b,
   0x28db77f523047d84_32caab7b40c72493_3c9ebe0a15c9bebc_431d67c49c100d4c,
   0x4cc5d4becb3e42b6_597f299cfc657e2a_5fcb6fab3ad6faec_6c44198c4a475817].flatMap (tableRow 64 4)

/-- SHA-512 and SHA-384 (R191). -/
def sha512Kind : Sha2Kind 64 := ⟨(1, 8, 7), (19, 61, 6), (28, 34, 39), (14, 18, 41), k512⟩

/-- The initial state of SHA-512 (R190). -/
def sha512Init : Sha2State 64 :=
  ⟨0x6a09e667f3bcc908, 0xbb67ae8584caa73b, 0x3c6ef372fe94f82b, 0xa54ff53a5f1d36f1,
   0x510e527fade682d1, 0x9b05688c2b3e6c1f, 0x1f83d9abfb41bd6b, 0x5be0cd19137e2179⟩

/-- The initial state of SHA-384 (R190). -/
def sha384Init : Sha2State 64 :=
  ⟨0xcbbb9d5dc1059ed8, 0x629a292a367cd507, 0x9159015a3070dd17, 0x152fecd8f70e5939,
   0x67332667ffc00b31, 0x8eb44a8768581511, 0xdb0c2e0d64f98fa7, 0x47b5481dbefa4fa4⟩

/-- SHA-512, 64 bytes (R191). -/
def sha512 (msg : Bytes) : Bytes := (sha2Words sha512Kind sha512Init msg).flatMap toBe64

/-- SHA-384, 48 bytes: the last two words are dropped (R191). -/
def sha384 (msg : Bytes) : Bytes := ((sha2Words sha512Kind sha384Init msg).take 6).flatMap toBe64

/-! ## The algorithm table -/

/-- `Hash_id` (R180). -/
def hashOf : HashAlg → Bytes → Bytes
  | .sha1 => sha1
  | .sha256 => sha256
  | .sha384 => sha384
  | .sha512 => sha512

/-- The algorithm with that id; none for every unsupported id (R180). -/
def hashAlgOf (id : Nat) : Option HashAlg :=
  match id with
  | 1 => some .sha1
  | 2 => some .sha256
  | 3 => some .sha384
  | 4 => some .sha512
  | _ => none

/-- The id of an algorithm (R180). -/
def HashAlg.number : HashAlg → Nat
  | .sha1 => 1
  | .sha256 => 2
  | .sha384 => 3
  | .sha512 => 4

/-- The block length `B` (R180). -/
def HashAlg.blockLen : HashAlg → Nat
  | .sha1 => 64
  | .sha256 => 64
  | .sha384 => 128
  | .sha512 => 128

/-- The output length `hLen` (R180). -/
def HashAlg.hLen : HashAlg → Nat
  | .sha1 => 20
  | .sha256 => 32
  | .sha384 => 48
  | .sha512 => 64

end Sys2Proof.Machine
end

