-- ==== Sys2Proof/Machine/KeyedHash.lean ====
section
/-! DEFINITION. The keyed-hash unit HM: HMAC and the command HM.MAC (43_sha_hmac.md section 2). -/

namespace Sys2Proof.Machine

open Sys2Proof

/-- `KeyBlock(alg, key)`, `B` bytes (R197). -/
def keyBlock (alg : HashAlg) (key : Bytes) : Bytes :=
  let k := if alg.blockLen < key.length then hashOf alg key else key
  k ++ zeros (alg.blockLen - k.length)

/-- `HMACk0(alg, k0, msg)` (R195). -/
def hmacBlock (alg : HashAlg) (k0 msg : Bytes) : Bytes :=
  let inner := hashOf alg (k0.map (· ^^^ 0x36) ++ msg)
  hashOf alg (k0.map (· ^^^ 0x5c) ++ inner)

/-- `HMAC(alg, key, msg)`, `hLen` bytes (R195). -/
def hmac (alg : HashAlg) (key msg : Bytes) : Bytes := hmacBlock alg (keyBlock alg key) msg

/-- `HM.MAC rd, ra, rb, imm8` (R199). -/
def execHmMac (rd ra rb : Reg) (imm : Byte) (s : State) : Result :=
  let i := Instr.hmMac rd ra rb imm
  let w := encode i
  let key := s.buf ra
  let msg := s.buf rb
  checked w s [pairCheck i] fun _ =>
    match hashAlgOf imm.toNat with
    | none => raise .argument w s
    | some alg =>
      let out := s.dest rd alg.hLen
      checked w s
        [needAddress (s.admits key && s.admits msg && s.admits out),
          needAddress (!out.overlaps key && !out.overlaps msg)] fun _ =>
        retire (s.store out.addr (hmac alg (s.load key) (s.load msg)))

end Sys2Proof.Machine
end

