-- ==== Sys2Proof/Machine/KeyDerivation.lean ====
section
/-! DEFINITION. The key-derivation unit KD: PBKDF2-HMAC and the commands KD.INIT, KD.GET, KD.WIPE
(44_pbkdf2.md). -/

namespace Sys2Proof.Machine

open Sys2Proof

/-- The rounds after the first: `U <- HMACk0(U)`, `T <- T ^ U`, `n` times (R210). -/
def deriveRounds (alg : HashAlg) (k0 : Bytes) : (n : Nat) → (u t : Bytes) → Bytes
  | 0, _, t => t
  | n + 1, u, t =>
    let u := hmacBlock alg k0 u
    deriveRounds alg k0 n u (xorBytes t u)

/-- `DeriveBlock(alg, k0, salt, iter, c)` (R210). -/
def deriveBlock (alg : HashAlg) (k0 salt : Bytes) (iter : Nat) (c : Word) : Bytes :=
  let u := hmacBlock alg k0 (salt ++ toBe32 c)
  deriveRounds alg k0 (iter - 1) u u

/-- The derived blocks with indices `c`, `c + 1`, up to `n` of them (R211, R215). -/
def deriveBlocks (alg : HashAlg) (k0 salt : Bytes) (iter : Nat) : (n : Nat) → (c : Word) → Bytes
  | 0, _ => []
  | n + 1, c => deriveBlock alg k0 salt iter c ++ deriveBlocks alg k0 salt iter n (c + 1)

/-- `PBKDF2(alg, key, salt, iter, n)` (R215); the first block index is 1 (R211). -/
def pbkdf2 (alg : HashAlg) (key salt : Bytes) (iter n : Nat) : Bytes :=
  (deriveBlocks alg (keyBlock alg key) salt iter (ceilDiv n alg.hLen) 1).take n

/-- The next block is derived (R213). -/
def kdRefill (k : KdInstance) : KdInstance :=
  let blk := k.blk + 1
  { k with blk := blk, dbuf := deriveBlock k.alg k.k0 k.salt k.iter blk, pos := 0 }

/-- `avail`, the bytes of the last block not yet handed out (R213). -/
def kdAvail (k : KdInstance) : Nat := k.alg.hLen - k.pos

/-- `need`, how many blocks a request of `n` bytes derives (R213). -/
def kdNeed (k : KdInstance) (n : Nat) : Nat :=
  if n ≤ kdAvail k then 0 else ceilDiv (n - kdAvail k) k.alg.hLen

/-- `GetBytes`: what is left of the last block first, then `need` further blocks in turn (R213, R211). -/
def kdTake (k : KdInstance) : (need n : Nat) → Bytes × KdInstance
  | 0, n =>
    let m := min n (kdAvail k)
    ((k.dbuf.drop k.pos).take m, { k with pos := k.pos + m })
  | need + 1, n =>
    let m := min n (kdAvail k)
    let rest := kdTake (kdRefill { k with pos := k.pos + m }) need (n - m)
    ((k.dbuf.drop k.pos).take m ++ rest.1, rest.2)

/-- A fresh instance: no derived bytes buffered (R212). -/
def kdStart (alg : HashAlg) (pwd salt : Bytes) (iter : Nat) : KdInstance where
  alg := alg
  k0 := keyBlock alg pwd
  salt := salt
  iter := iter
  blk := 0
  dbuf := zeros alg.hLen
  pos := alg.hLen

/-- `KD.INIT ra, rb, rc, imm8` (R212). -/
def execKdInit (ra rb rc : Reg) (imm : Byte) (s : State) : Result :=
  let i := Instr.kdInit ra rb rc imm
  let w := encode i
  let pwd := s.buf ra
  let salt := s.buf rb
  checked w s [pairCheck i] fun _ =>
    match hashAlgOf imm.toNat with
    | none => raise .argument w s
    | some alg =>
      checked w s
        [needArgument (decide (0 < (s.reg rc).toInt) && decide (8 ≤ salt.len) && decide (salt.len ≤ kdSaltMax)),
          needAddress (s.admits pwd && s.admits salt)] fun _ =>
        retire { s with kd := ⟨some (kdStart alg (s.load pwd) (s.load salt) (s.reg rc).toNat), false⟩ }

/-- `KD.GET rd, ra` (R213). -/
def execKdGet (rd ra : Reg) (s : State) : Result :=
  let w := encode (.kdGet rd ra)
  let n := s.num ra
  checked w s [needState (!s.kd.disposed)] fun _ =>
    match s.kd.inst with
    | none => raise .state w s
    | some k =>
      checked w s
        [needArgument (decide (k.blk.toNat + kdNeed k n ≤ 0xFFFFFFFF)), needAddress (s.admits (s.dest rd n))] fun _ =>
        let out := kdTake k (kdNeed k n) n
        retire ({ s with kd := { s.kd with inst := some out.2 } }.store (s.num rd) out.1)

/-- `KD.WIPE` (R214). -/
def execKdWipe (s : State) : Result := retire (wipeKd s)

end Sys2Proof.Machine
end

