-- ==== Sys2Proof/Machine/Envelope.lean ====
section
/-! DEFINITION. The envelope unit EV: the wire format, the RNG port and the commands EV.ENC, EV.DEC
(46_envelope.md, 60_exceptions.md R300). -/

namespace Sys2Proof.Machine

open Sys2Proof

/-! ## The RNG port -/

/-- The byte of the RNG's sequence at a position: a byte of the given head, and past it the free value of
`Config` (R300). Log entry 3. -/
def rngByte (s : State) (i : Nat) : Byte := s.rngHead.getD i (Config.rngTail i)

/-- The `n` bytes of the RNG's sequence from a position on (R300). -/
def rngBytes (s : State) (pos n : Nat) : Bytes := (List.range n).map fun i => rngByte s (pos + i)

/-- `Rand(n)`: the next `n` bytes, and the read position moved past them (R300). The RNG always answers
(R302). Log entry 4. -/
def drawRandom (s : State) (n : Nat) : Bytes × State :=
  (rngBytes s s.rngPos n, { s with rngPos := s.rngPos + n })

/-! ## The wire format -/

/-- The six fixed fields at the start of an envelope (R250). -/
structure EnvelopeHeader where
  version : Half
  algId : Half
  metadataSize : Word
  iterations : Word
  saltSize : Half
  hashSaltSize : Half
  deriving DecidableEq, Repr

/-- The first 16 bytes of an envelope (R250). -/
def headerBytes (h : EnvelopeHeader) : Bytes :=
  toLe16 h.version ++ toLe16 h.algId ++ toLe32 h.metadataSize ++ toLe32 h.iterations ++ toLe16 h.saltSize
    ++ toLe16 h.hashSaltSize

/-- The six fixed fields, read from the first 16 bytes of an envelope (R250, R262 check 4). -/
def parseHeader (b : Bytes) : EnvelopeHeader where
  version := le16 (slice b 0 2)
  algId := le16 (slice b 2 4)
  metadataSize := le32 (slice b 4 8)
  iterations := le32 (slice b 8 12)
  saltSize := le16 (slice b 12 14)
  hashSaltSize := le16 (slice b 14 16)

/-- The parts of an envelope after the fixed fields (R250). -/
structure EnvelopeBody where
  salt : Bytes
  hashSalt : Bytes
  iv : Bytes
  metadata : Bytes
  tag : Bytes
  ciphertext : Bytes
  deriving DecidableEq, Repr

/-- The whole envelope (R250). -/
def envelopeBytes (h : EnvelopeHeader) (e : EnvelopeBody) : Bytes :=
  headerBytes h ++ e.salt ++ e.hashSalt ++ e.iv ++ e.metadata ++ e.tag ++ e.ciphertext

/-- An envelope split by the sizes of its header (R250, R262); the ciphertext is all that follows the tag. -/
def splitEnvelope (b : Bytes) (ss hs ms tagLen : Nat) : EnvelopeBody where
  salt := slice b 16 (16 + ss)
  hashSalt := slice b (16 + ss) (16 + ss + hs)
  iv := slice b (16 + ss + hs) (32 + ss + hs)
  metadata := slice b (32 + ss + hs) (32 + ss + hs + ms)
  tag := slice b (32 + ss + hs + ms) (32 + ss + hs + ms + tagLen)
  ciphertext := b.drop (32 + ss + hs + ms + tagLen)

/-- `DeriveKey32(alg, key, salt, iter)` (R251). -/
def deriveKey32 (alg : HashAlg) (key salt : Bytes) (iter : Nat) : Bytes := pbkdf2 alg key salt iter 32

/-- `CtEqual(a, b)`: the differences of all byte pairs, or-ed together (R263). Its time is no
part of the model: log entry 12. -/
def ctEqual (a b : Bytes) : Bool := decide ((xorBytes a b).foldl (· ||| ·) 0 = 0)

/-- The ciphertext length of `dl` bytes of data (R236, R256). -/
def cipherLen (dl : Nat) : Nat := (dl / 16 + 1) * 16

/-- The length of an envelope with a ciphertext of `cl` bytes (R250, R256). -/
def envelopeLen (ss hs ms tagLen cl : Nat) : Nat := 32 + ss + hs + ms + tagLen + cl

/-! ## Encoding and decoding -/

/-- What an envelope is made from: the algorithm, the iteration count, key, data and metadata, and the three
random strings (R256). -/
structure SealInput where
  alg : HashAlg
  iter : Word
  key : Bytes
  data : Bytes
  metadata : Bytes
  salt : Bytes
  hashSalt : Bytes
  iv : Bytes
  deriving DecidableEq, Repr

/-- The envelope of `EV.ENC` (R256, source steps 1 to 6). On vector V8.6: log entry 17. -/
def sealEnvelope (q : SealInput) : Bytes :=
  let ck := deriveKey32 q.alg q.key q.salt q.iter.toNat
  let ct := cbcEncrypt ck q.iv q.data
  let mk := deriveKey32 q.alg q.key q.hashSalt q.iter.toNat
  let tag := hmac q.alg mk ct
  envelopeBytes
    ⟨1, BitVec.ofNat 16 q.alg.number, BitVec.ofNat 32 q.metadata.length, q.iter,
      BitVec.ofNat 16 q.salt.length, BitVec.ofNat 16 q.hashSalt.length⟩
    ⟨q.salt, q.hashSalt, q.iv, q.metadata, tag, ct⟩

/-- Authenticate, then decrypt: the plaintext, or none for an `IntegrityFault` (R262, R264). The cipher key is
derived only when the tag agrees. -/
def openEnvelope (alg : HashAlg) (iter : Nat) (key : Bytes) (e : EnvelopeBody) : Option Bytes :=
  let mk := deriveKey32 alg key e.hashSalt iter
  if ctEqual e.tag (hmac alg mk e.ciphertext) then
    cbcDecrypt (deriveKey32 alg key e.salt iter) e.iv e.ciphertext
  else none

/-! ## The commands -/

/-- The three random strings of `EV.ENC`, drawn in the order salt, hash salt, IV (R256, R300), and the state
after them. -/
def drawSalts (s : State) (ss hs : Nat) : Bytes × Bytes × Bytes × State :=
  let d1 := drawRandom s ss
  let d2 := drawRandom d1.2 hs
  let d3 := drawRandom d2.2 16
  (d1.1, d2.1, d3.1, d3.2)

/-- `EV.ENC rd, ra, rb, rc` (R256). -/
def execEvEnc (rd ra rb rc : Reg) (s : State) : Result :=
  let i := Instr.evEnc rd ra rb rc
  let w := encode i
  let data := s.buf ra
  let key := s.buf rb
  let md := s.buf rc
  let ss := s.evSaltsz.toNat
  let hs := s.evHsaltsz.toNat
  checked w s [pairCheck i] fun _ =>
    match hashAlgOf s.evAlg.toNat with
    | none => raise .argument w s
    | some alg =>
      let out := s.dest rd (envelopeLen ss hs md.len alg.hLen (cipherLen data.len))
      checked w s
        [needArgument (decide (key.len ≠ 0) && decide (0 < s.evIter.toInt) && decide (8 ≤ s.evSaltsz.toInt)
            && decide (8 ≤ s.evHsaltsz.toInt) && decide (md.len ≤ 0x7FFFFFFF)),
          needAddress (s.admits data && s.admits key && s.admits md && s.admits out),
          needAddress (!out.overlaps data && !out.overlaps key && !out.overlaps md)] fun _ =>
        let r := drawSalts s ss hs
        let env := sealEnvelope ⟨alg, s.evIter, s.load key, s.load data, s.load md, r.1, r.2.1, r.2.2.1⟩
        retire ((r.2.2.2.store out.addr env).setReg (Reg.next rd) (BitVec.ofNat 32 out.len))

/-- `EV.DEC rd, ra, rb, rc` (R262). The metadata is copied out before the tag is checked, and stays when the
check fails (R13). With `rc = rd` the second write of `x[rd+1]` stays. DEDUCED: log entry 16. -/
def execEvDec (rd ra rb rc : Reg) (s : State) : Result :=
  let i := Instr.evDec rd ra rb rc
  let w := encode i
  let env := s.buf ra
  let key := s.buf rb
  let cap := s.num (Reg.next rc)
  checked w s
    [pairCheck i, needArgument (decide (key.len ≠ 0) && decide (16 ≤ env.len)),
      needAddress (s.admits env && s.admits key)] fun _ =>
    let h := parseHeader (s.load ⟨env.addr, 16⟩)
    match hashAlgOf h.algId.toNat with
    | none => raise .unsupported w s
    | some alg =>
      let ss := h.saltSize.toNat
      let hs := h.hashSaltSize.toNat
      let ms := h.metadataSize.toNat
      let need := envelopeLen ss hs ms alg.hLen 0
      let mdOut := s.dest rc (if cap ≠ 0 then ms else 0)
      let ptOut := s.dest rd (env.len - need)
      checked w s
        [needSupported (decide (h.version = 1)),
          needArgument (decide (0 ≤ h.metadataSize.toInt) && decide (0 < h.iterations.toInt)
            && decide (8 ≤ h.saltSize.toInt) && decide (8 ≤ h.hashSaltSize.toInt)),
          needArgument (decide (need ≤ env.len)),
          needArgument (decide (cap = 0) || decide (ms ≤ cap)),
          needAddress (s.admits mdOut && s.admits ptOut),
          needAddress (!mdOut.overlaps ptOut && !mdOut.overlaps env && !mdOut.overlaps key
            && !ptOut.overlaps env && !ptOut.overlaps key)] fun _ =>
        let body := splitEnvelope (s.load env) ss hs ms alg.hLen
        let s1 := if mdOut.len ≠ 0 then s.store mdOut.addr body.metadata else s
        match openEnvelope alg h.iterations.toNat (s.load key) body with
        | none => raise .integrity w s1
        | some pt =>
          let s2 := s1.store ptOut.addr pt
          let s3 := if cap ≠ 0 then s2.setReg (Reg.next rc) h.metadataSize else s2
          retire (s3.setReg (Reg.next rd) (BitVec.ofNat 32 pt.length))

end Sys2Proof.Machine
end

