-- ==== Sys2Proof/Machine/StreamCipher.lean ====
section
/-! DEFINITION. The stream-cipher unit SC: ChaCha and Salsa, and the commands SC.KEY, SC.NONCE, SC.BLOCK, SC.XOR,
SC.KS, SC.WIPE (41_stream_cipher.md). -/

namespace Sys2Proof.Machine

open Sys2Proof

/-! ## The add-rotate-xor core -/

/-- `QRc(w, a, b, c, d)` (R121). -/
def chachaQuarter (w : Vector Word 16) (a b c d : Fin 16) : Vector Word 16 :=
  let w := w.set a (w[a] + w[b])
  let w := w.set d ((w[d] ^^^ w[a]).rotateLeft 16)
  let w := w.set c (w[c] + w[d])
  let w := w.set b ((w[b] ^^^ w[c]).rotateLeft 12)
  let w := w.set a (w[a] + w[b])
  let w := w.set d ((w[d] ^^^ w[a]).rotateLeft 8)
  let w := w.set c (w[c] + w[d])
  w.set b ((w[b] ^^^ w[c]).rotateLeft 7)

/-- `DRc(w)`: columns, then diagonals (R122). -/
def chachaDouble (w : Vector Word 16) : Vector Word 16 :=
  let w := chachaQuarter w 0 4 8 12
  let w := chachaQuarter w 1 5 9 13
  let w := chachaQuarter w 2 6 10 14
  let w := chachaQuarter w 3 7 11 15
  let w := chachaQuarter w 0 5 10 15
  let w := chachaQuarter w 1 6 11 12
  let w := chachaQuarter w 2 7 8 13
  chachaQuarter w 3 4 9 14

/-- `QRs(w, a, b, c, d)` (R123). -/
def salsaQuarter (w : Vector Word 16) (a b c d : Fin 16) : Vector Word 16 :=
  let w := w.set b (w[b] ^^^ (w[a] + w[d]).rotateLeft 7)
  let w := w.set c (w[c] ^^^ (w[b] + w[a]).rotateLeft 9)
  let w := w.set d (w[d] ^^^ (w[c] + w[b]).rotateLeft 13)
  w.set a (w[a] ^^^ (w[d] + w[c]).rotateLeft 18)

/-- `DRs(w)`: the column round, then the row round (R123; 90_conflicts.md C2). -/
def salsaDouble (w : Vector Word 16) : Vector Word 16 :=
  let w := salsaQuarter w 0 4 8 12
  let w := salsaQuarter w 5 9 13 1
  let w := salsaQuarter w 10 14 2 6
  let w := salsaQuarter w 15 3 7 11
  let w := salsaQuarter w 0 1 2 3
  let w := salsaQuarter w 5 6 7 4
  let w := salsaQuarter w 10 11 8 9
  salsaQuarter w 15 12 13 14

/-- The double round of a variant (R120). -/
def doubleRound : Variant → Vector Word 16 → Vector Word 16
  | .chacha => chachaDouble
  | .salsa => salsaDouble

/-- `n` double rounds (R129). -/
def doubleRounds (v : Variant) : (n : Nat) → Vector Word 16 → Vector Word 16
  | 0, w => w
  | n + 1, w => doubleRounds v n (doubleRound v w)

/-- `rounds(SC_CFG)` (R37). -/
def Rounds.count : Rounds → Nat
  | .r20 => 20
  | .r12 => 12
  | .r8 => 8

/-! ## Layout -/

/-- `SIGMA` (R126). -/
def sigmaWords : Vector Word 4 := #v[0x61707865, 0x3320646e, 0x79622d32, 0x6b206574]

/-- `TAU` (R126). -/
def tauWords : Vector Word 4 := #v[0x61707865, 0x3120646e, 0x79622d36, 0x6b206574]

/-- The `i`-th little-endian word of a byte string, `le32(b[4i .. 4i+4))` (R64). -/
def wordAt (b : Bytes) (i : Nat) : Word := le32 (slice b (4 * i) (4 * i + 4))

/-- The eight key words `K[0..7]`; a 16-byte key fills them twice (R124). -/
def keyWord (key : Bytes) (i : Nat) : Word :=
  if key.length = 32 then wordAt key i else wordAt key (i % 4)

/-- The constants for a key of that length (R126, R130). -/
def keyConstants (key : Bytes) : Vector Word 4 := if key.length = 32 then sigmaWords else tauWords

/-- The CipherState right after `SC.KEY` (R130, layouts of R124 and R125). -/
def keyedState (v : Variant) (key : Bytes) : Vector Word 16 :=
  let con := keyConstants key
  let k := keyWord key
  match v with
  | .chacha => #v[con[0], con[1], con[2], con[3], k 0, k 1, k 2, k 3, k 4, k 5, k 6, k 7, 0, 0, 0, 0]
  | .salsa => #v[con[0], k 0, k 1, k 2, k 3, con[1], 0, 0, 0, 0, con[2], k 4, k 5, k 6, k 7, con[3]]

/-- The low counter word `lo` (R124, R125). -/
def counterLow : Variant → Fin 16
  | .chacha => 12
  | .salsa => 8

/-- The high counter word `hi` (R124, R125). -/
def counterHigh : Variant → Fin 16
  | .chacha => 13
  | .salsa => 9

/-- The nonce lengths a variant accepts (R127, R131). -/
def nonceLengthOk (v : Variant) (n : Nat) : Bool :=
  n == 8 || n == 16 || (n == 12 && v == .chacha)

/-- `LoadNonce(nonce, ctr)` (R127). The lengths are those of `nonceLengthOk`; any other is refused before. -/
def loadNonce (v : Variant) (nonce : Bytes) (ctr : Word) (cs : Vector Word 16) : Vector Word 16 :=
  let n := wordAt nonce
  match v with
  | .chacha =>
    if nonce.length = 8 then (((cs.set 12 ctr).set 13 0).set 14 (n 0)).set 15 (n 1)
    else if nonce.length = 12 then (((cs.set 12 ctr).set 13 (n 0)).set 14 (n 1)).set 15 (n 2)
    else (((cs.set 12 (n 0)).set 13 (n 1)).set 14 (n 2)).set 15 (n 3)
  | .salsa =>
    if nonce.length = 8 then (((cs.set 6 (n 0)).set 7 (n 1)).set 8 ctr).set 9 0
    else (((cs.set 6 (n 0)).set 7 (n 1)).set 8 (n 2)).set 9 (n 3)

/-! ## The block function -/

/-- `CtrInc()` (R128). -/
def counterStep (v : Variant) (cs : Vector Word 16) : Vector Word 16 :=
  let lo := counterLow v
  let hi := counterHigh v
  let cs := cs.set lo (cs[lo] + 1)
  if cs[lo] = 0 then cs.set hi (cs[hi] + 1) else cs

/-- The 64 bytes of `GenBlock()`: rounds, the original state added back, little-endian (R129). -/
def keystreamBlock (c : ScCfg) (cs : Vector Word 16) : Bytes :=
  let w := doubleRounds c.variant (c.rounds.count / 2) cs
  ((Vector.zipWith (· + ·) w cs).toList.map toLe32).flatten

/-- `n` successive `GenBlock()`: the keystream (R129). -/
def keystream (c : ScCfg) : (n : Nat) → Vector Word 16 → Bytes
  | 0, _ => []
  | n + 1, cs => keystreamBlock c cs ++ keystream c n (counterStep c.variant cs)

/-- The CipherState after `n` generated blocks (R128, R129). -/
def advance (v : Variant) : (n : Nat) → Vector Word 16 → Vector Word 16
  | 0, cs => cs
  | n + 1, cs => advance v n (counterStep v cs)

/-- How many blocks a command of `n` bytes generates, `ceil(n / 64)` (R133, R134). -/
def blocksFor (n : Nat) : Nat := ceilDiv n 64

/-- The first `n` keystream bytes from the present counter; the rest of the last block is discarded (R133,
R134). -/
def keystreamBytes (s : State) (n : Nat) : Bytes := (keystream s.scCfg (blocksFor n) s.sc.cs).take n

/-- The state with the counter advanced by the blocks of `n` bytes (R133, R134). -/
def advanceSc (s : State) (n : Nat) : State :=
  { s with sc := { s.sc with cs := advance s.scCfg.variant (blocksFor n) s.sc.cs } }

/-! ## The commands -/

/-- `SC.KEY ra` (R130). -/
def execScKey (ra : Reg) (s : State) : Result :=
  let i := Instr.scKey ra
  let key := s.buf ra
  checked (encode i) s
    [pairCheck i, needArgument (key.len == 16 || key.len == 32), needAddress (s.admits key)] fun _ =>
    retire { s with sc := ⟨keyedState s.scCfg.variant (s.load key), true, false⟩ }

/-- `SC.NONCE ra, rb` (R131). -/
def execScNonce (ra rb : Reg) (s : State) : Result :=
  let i := Instr.scNonce ra rb
  let nonce := s.buf ra
  checked (encode i) s
    [pairCheck i, needState s.sc.keyed, needArgument (nonceLengthOk s.scCfg.variant nonce.len),
      needAddress (s.admits nonce)] fun _ =>
    retire { s with
      sc := { s.sc with cs := loadNonce s.scCfg.variant (s.load nonce) (s.reg rb) s.sc.cs, nonced := true } }

/-- The unit can produce keystream: `sc_keyed = 1` and `sc_nonced = 1` (R132 to R134). -/
def State.scReady (s : State) : Bool := s.sc.keyed && s.sc.nonced

/-- `SC.BLOCK rd` (R132). -/
def execScBlock (rd : Reg) (s : State) : Result :=
  checked (encode (.scBlock rd)) s
    [needState s.scReady, needAddress (s.admits (s.dest rd 64))] fun _ =>
    retire ((advanceSc s 64).store (s.num rd) (keystreamBytes s 64))

/-- `SC.XOR rd, ra` (R133). The output may be the input exactly, else it may not overlap it (R63). -/
def execScXor (rd ra : Reg) (s : State) : Result :=
  let i := Instr.scXor rd ra
  let input := s.buf ra
  let out := s.dest rd input.len
  checked (encode i) s
    [pairCheck i, needState s.scReady, needAddress (s.admits input && s.admits out),
      needAddress (decide (out = input) || !out.overlaps input)] fun _ =>
    retire ((advanceSc s input.len).store out.addr (xorBytes (s.load input) (keystreamBytes s input.len)))

/-- `SC.KS rd, ra` (R134). -/
def execScKs (rd ra : Reg) (s : State) : Result :=
  let n := s.num ra
  checked (encode (.scKs rd ra)) s
    [needState s.scReady, needAddress (s.admits (s.dest rd n))] fun _ =>
    retire ((advanceSc s n).store (s.num rd) (keystreamBytes s n))

/-- `SC.WIPE` (R135). -/
def execScWipe (s : State) : Result := retire (wipeSc s)

end Sys2Proof.Machine
end

