-- ==== Sys2Proof/Machine/Dispatch.lean ====
section
/-! DEFINITION. exec: one arm for each command of 30_encoding.md R87. -/

namespace Sys2Proof.Machine

open Sys2Proof

/-- The effect of a command taken from the queue (30_encoding.md R87, one rule each). -/
def exec (i : Instr) (s : State) : Host.Outcome State Fault Refusal :=
  match i with
  | .nop => Sys2Proof.Machine.execNop s
  | .setlo rd imm => Sys2Proof.Machine.execSetlo rd imm s
  | .sethi rd imm => Sys2Proof.Machine.execSethi rd imm s
  | .mov rd ra => Sys2Proof.Machine.execMov rd ra s
  | .csrr rd csr => Sys2Proof.Machine.execCsrr rd csr s
  | .csrw csr ra => Sys2Proof.Machine.execCsrw csr ra s
  | .wipe => Sys2Proof.Machine.execWipe s
  | .scKey ra => Sys2Proof.Machine.execScKey ra s
  | .scNonce ra rb => Sys2Proof.Machine.execScNonce ra rb s
  | .scBlock rd => Sys2Proof.Machine.execScBlock rd s
  | .scXor rd ra => Sys2Proof.Machine.execScXor rd ra s
  | .scKs rd ra => Sys2Proof.Machine.execScKs rd ra s
  | .scWipe => Sys2Proof.Machine.execScWipe s
  | .b2Init ra rb rc imm => Sys2Proof.Machine.execB2Init ra rb rc imm s
  | .b2Update ra => Sys2Proof.Machine.execB2Update ra s
  | .b2Final rd => Sys2Proof.Machine.execB2Final rd s
  | .b2Wipe => Sys2Proof.Machine.execB2Wipe s
  | .hmMac rd ra rb imm => Sys2Proof.Machine.execHmMac rd ra rb imm s
  | .kdInit ra rb rc imm => Sys2Proof.Machine.execKdInit ra rb rc imm s
  | .kdGet rd ra => Sys2Proof.Machine.execKdGet rd ra s
  | .kdWipe => Sys2Proof.Machine.execKdWipe s
  | .evEnc rd ra rb rc => Sys2Proof.Machine.execEvEnc rd ra rb rc s
  | .evDec rd ra rb rc => Sys2Proof.Machine.execEvDec rd ra rb rc s

end Sys2Proof.Machine
end

