-- ==== Sys2Proof/Machine/Sequencer.lean ====
section
/-! DEFINITION. The core sequencer: taking the oldest command word and executing it (10_state.md R23 to R25,
60_exceptions.md R285, R308). -/

namespace Sys2Proof.Machine

open Sys2Proof

/-- One command word is executed to completion: decoded and run, or refused by the decoder with
`IllegalCommand` (30_encoding.md R88, R89). -/
def runWord (w : Word) (s : State) : Result :=
  match decode w with
  | .ok i => exec i s
  | .error _ => raise .illegalCommand w s

/-- One step of the sequencer. Halted, it takes no command (R285); with nothing queued it stays idle (R308);
else it removes the oldest word and executes it (R25). DEDUCED: log entry 15. -/
def sequencerStep (s : State) : Result :=
  if s.halted then .next s
  else
    match s.queue with
    | [] => .next s
    | w :: q => runWord w { s with queue := q }

/-- The word alone in the queue of a core that is not halted, with no host move before it: what the host's
writing it to an idle core leaves (R25, R303). -/
def placeCommand (s : State) (w : Word) : State := { s with queue := [w], err := none, moves := [] }

end Sys2Proof.Machine
end

