-- ==== Sys2Proof/Machine/HostPort.lean ====
section
/-! DEFINITION. The host's and the platform's moves between commands, and what the host observes
(60_exceptions.md R287, R303, 70_reset_and_hazards.md R320, R321). -/

namespace Sys2Proof.Machine

open Sys2Proof

/-- The register port: `x[r]`, live, without side effect (R303). -/
def regPort (s : State) (r : Reg) : Word := s.reg r

/-- The register port: an implemented CSR, with the live `BUSY` (R303, 10_state.md R34); none for a number that
is not implemented. -/
def csrPort (s : State) (n : BitVec 12) : Option Word := (Csr.ofNumber n).map (csrValue s.busy s)

/-- The BUF port, reading: a backed byte, only while the core is not busy (R303, 20_memory.md R71). -/
def bufPort (s : State) (a : Nat) : Option Byte :=
  if s.busy || decide (s.cfg.bufBytes ≤ a) then none else some (s.mem.readByte a)

/-- The command port is ready: the queue has room and the core is not halted (10_state.md R25). -/
def State.portReady (s : State) : Bool := decide (s.queue.length < s.cfg.cmdqDepth) && !s.halted

/-- Hard reset (R320): the whole state of the core takes its reset value. The model's own fields are no state
of the core and stay. Log entry 7. -/
def hardReset (s : State) : State :=
  { State.reset with cfg := s.cfg, rngHead := s.rngHead, rngPos := s.rngPos, moves := s.moves }

/-- Soft reset (R321): as hard reset, but BUF is left as it is. -/
def softReset (s : State) : State := { hardReset s with mem := s.mem }

/-- A move of the host or of the platform (R303). A move the table of R303 does not allow is refused by name
(93_implementation_defined.md U9, U11). Log entry 6. `wait` leaves
the sequencer its step. -/
def hostMove (m : HostMove) (s : State) : Result :=
  match m with
  | .command w => if s.portReady then .next { s with queue := s.queue ++ [w] } else .refused .commandPortNotReady
  | .bufWrite a b =>
    if s.busy then .refused .bufAccessWhileBusy
    else if a < s.cfg.bufBytes then .next { s with mem := s.mem.writeByte a b }
    else .refused .bufAddressNotBacked
  | .clrErr => .next (clearError s)
  | .softReset => if s.busy then .refused .softResetWhileBusy else .next (softReset s)
  | .hardReset => .next (hardReset s)
  | .wait => sequencerStep s

end Sys2Proof.Machine
end

