-- ==== Sys2Proof/Machine/Step.lean ====
section
/-! DEFINITION. One step of the whole machine: sequencer, host and platform. -/

namespace Sys2Proof.Machine

open Sys2Proof

/-- One step. The next move of `moves` happens, when there is one; `wait` gives the step to the sequencer, and
so does an empty list. A command is one step, so a host move lands between commands (00_scope.md R7,
60_exceptions.md R290). Log entry 5. -/
def step (s : State) : Host.Outcome State Fault Refusal :=
  match s.moves with
  | [] => sequencerStep s
  | m :: ms => hostMove m { s with moves := ms }

/-- The state whose very next step runs the word: the word is queued as the host's writing it to the command
port would leave it. The core is let out of a halt and pending host moves are dropped. Log entry 13. -/
def State.withFetchWord (s : State) (nbits w : Nat) : State :=
  placeCommand s (BitVec.ofNat 32 (w % 2 ^ nbits))

end Sys2Proof.Machine
end

