-- ==== Sys2Proof/Machine/Assembler.lean ====
section
/-! DEFINITION. Assembler syntax and pseudo-commands (30_encoding.md R91, R92). -/

namespace Sys2Proof.Machine

open Sys2Proof

/-! ## Pseudo-commands -/

/-- The pseudo-commands of R92, operands in the order of the table. -/
inductive Pseudo where
  | li (rd : Reg) (imm : Word)
  | lbuf (r : Reg) (addr len : Word)
  | scTransform (rd rin rkey rnonce rctr : Reg)
  | scRandom (rd rlen rkey rnonce rctr : Reg)
  | b2Hash (rd rin rkey rsalt rpers : Reg) (outlen : Byte)
  | kdDerive (rd rlen rpwd rsalt riter : Reg) (alg : Byte)
  deriving DecidableEq, Repr

/-- `LI rd, imm32`: `SETHI` only when the high half is not 0 (R92). -/
def loadImmediate (rd : Reg) (imm : Word) : List Instr :=
  let lo := imm.extractLsb' 0 16
  let hi := imm.extractLsb' 16 16
  if hi = 0 then [.setlo rd lo] else [.setlo rd lo, .sethi rd hi]

/-- The expansion of a pseudo-command (R92). -/
def expandPseudo : Pseudo → List Instr
  | .li rd imm => loadImmediate rd imm
  | .lbuf r addr len => loadImmediate r addr ++ loadImmediate (Reg.next r) len
  | .scTransform rd rin rkey rnonce rctr => [.scKey rkey, .scNonce rnonce rctr, .scXor rd rin]
  | .scRandom rd rlen rkey rnonce rctr => [.scKey rkey, .scNonce rnonce rctr, .scKs rd rlen]
  | .b2Hash rd rin rkey rsalt rpers outlen => [.b2Init rkey rsalt rpers outlen, .b2Update rin, .b2Final rd]
  | .kdDerive rd rlen rpwd rsalt riter alg => [.kdInit rpwd rsalt riter alg, .kdGet rd rlen, .kdWipe]

/-- Commands executed in order; a fault in one of them stops the rest (R92, 60_exceptions.md R285). -/
def runCommands : List Instr → State → Result
  | [], s => .next s
  | i :: is, s =>
    match exec i s with
    | .next t => if t.halted then .next t else runCommands is t
    | .fault r => .fault r
    | .refused r => .refused r

/-! ## Text -/

/-- A text without the blanks at its ends. -/
def trimText (t : List Char) : List Char :=
  ((t.dropWhile Char.isWhitespace).reverse.dropWhile Char.isWhitespace).reverse

/-- A text cut at every comma. -/
def splitCommas : List Char → List (List Char)
  | [] => [[]]
  | c :: t =>
    match splitCommas t with
    | [] => [[c]]
    | p :: ps => if c = ',' then [] :: p :: ps else (c :: p) :: ps

/-- The value of a digit in either case; letters are the digits above 9. -/
def digitValue (c : Char) : Option Nat :=
  if '0' ≤ c ∧ c ≤ '9' then some (c.toNat - 48)
  else if 'a' ≤ c ∧ c ≤ 'f' then some (c.toNat - 87)
  else none

/-- The number whose digits follow the ones read so far. -/
def readDigits (base : Nat) : List Char → (acc : Nat) → Option Nat
  | [], acc => some acc
  | c :: t, acc =>
    match digitValue c with
    | none => none
    | some d => if d < base then readDigits base t (base * acc + d) else none

/-- A number: decimal, or hexadecimal after `0x` (R91). -/
def readNumber : List Char → Option Nat
  | [] => none
  | '0' :: 'x' :: c :: t => readDigits 16 (c :: t) 0
  | t => readDigits 10 t 0

/-- A number below a bound. -/
def readBelow (bound : Nat) (t : List Char) : Option Nat := (readNumber t).filter (· < bound)

/-- A register `x0` to `x15` (R91). -/
def readReg : List Char → Option Reg
  | 'x' :: c :: t => ((readDigits 10 (c :: t) 0).filter (· < 16)).map (BitVec.ofNat 4)
  | _ => none

/-- The names of the CSRs (10_state.md R30), in small letters. -/
def csrNames : List (String × Csr) :=
  [("id", .id), ("status", .status), ("err", .err), ("errcp", .errcp), ("errcmd", .errcmd), ("cp", .cp),
   ("sc_cfg", .scCfg), ("ev_alg", .evAlg), ("ev_iter", .evIter), ("ev_saltsz", .evSaltsz),
   ("ev_hsaltsz", .evHsaltsz)]

/-- A CSR, by name or by number (R91). -/
def readCsr (t : List Char) : Option Csr :=
  match csrNames.find? (fun p => p.1.toList == t) with
  | some p => some p.2
  | none => (readBelow 4096 t).bind fun n => Csr.ofNumber (BitVec.ofNat 12 n)

/-- An `imm8` (R86). -/
def readByteImm (t : List Char) : Option Byte := (readBelow 256 t).map (BitVec.ofNat 8)

/-- An `imm16` (R86). -/
def readHalfImm (t : List Char) : Option Half := (readBelow 65536 t).map (BitVec.ofNat 16)

/-- An `imm32` of a pseudo-command (R92). -/
def readWordImm (t : List Char) : Option Word := (readBelow (2 ^ 32) t).map (BitVec.ofNat 32)

/-- Registers only, one for each operand. -/
def readRegs (ts : List (List Char)) : Option (List Reg) := ts.mapM readReg

/-- A command whose operands are registers only (R87). -/
def assembleRegs (m : String) (rs : List Reg) : Option (List Instr) :=
  match m, rs with
  | "nop", [] => some [.nop]
  | "mov", [rd, ra] => some [.mov rd ra]
  | "wipe", [] => some [.wipe]
  | "sc.key", [ra] => some [.scKey ra]
  | "sc.nonce", [ra, rb] => some [.scNonce ra rb]
  | "sc.block", [rd] => some [.scBlock rd]
  | "sc.xor", [rd, ra] => some [.scXor rd ra]
  | "sc.ks", [rd, ra] => some [.scKs rd ra]
  | "sc.wipe", [] => some [.scWipe]
  | "b2.update", [ra] => some [.b2Update ra]
  | "b2.final", [rd] => some [.b2Final rd]
  | "b2.wipe", [] => some [.b2Wipe]
  | "kd.get", [rd, ra] => some [.kdGet rd ra]
  | "kd.wipe", [] => some [.kdWipe]
  | "ev.enc", [rd, ra, rb, rc] => some [.evEnc rd ra rb rc]
  | "ev.dec", [rd, ra, rb, rc] => some [.evDec rd ra rb rc]
  | "sc.transform", [rd, rin, rkey, rnonce, rctr] => some (expandPseudo (.scTransform rd rin rkey rnonce rctr))
  | "sc.random", [rd, rlen, rkey, rnonce, rctr] => some (expandPseudo (.scRandom rd rlen rkey rnonce rctr))
  | _, _ => none

/-- A command whose last operand is an `imm8`, the ones before it registers (R87, R92). -/
def assembleImm8 (m : String) (rs : List Reg) (imm : Byte) : Option (List Instr) :=
  match m, rs with
  | "b2.init", [ra, rb, rc] => some [.b2Init ra rb rc imm]
  | "hm.mac", [rd, ra, rb] => some [.hmMac rd ra rb imm]
  | "kd.init", [ra, rb, rc] => some [.kdInit ra rb rc imm]
  | "b2.hash", [rd, rin, rkey, rsalt, rpers] => some (expandPseudo (.b2Hash rd rin rkey rsalt rpers imm))
  | "kd.derive", [rd, rlen, rpwd, rsalt, riter] => some (expandPseudo (.kdDerive rd rlen rpwd rsalt riter imm))
  | _, _ => none

/-- A command with a mnemonic and its operand texts (R87, R91, R92). -/
def assembleCommand (m : String) (ops : List (List Char)) : Option (List Instr) :=
  match m, ops with
  | "setlo", [rd, imm] => do some [.setlo (← readReg rd) (← readHalfImm imm)]
  | "sethi", [rd, imm] => do some [.sethi (← readReg rd) (← readHalfImm imm)]
  | "csrr", [rd, csr] => do some [.csrr (← readReg rd) (← readCsr csr)]
  | "csrw", [csr, ra] => do some [.csrw (← readCsr csr) (← readReg ra)]
  | "li", [rd, imm] => do some (expandPseudo (.li (← readReg rd) (← readWordImm imm)))
  | "lbuf", [r, addr, len] => do
    some (expandPseudo (.lbuf (← (readReg r).filter Reg.pairOk) (← readWordImm addr) (← readWordImm len)))
  | _, _ =>
    match readRegs ops with
    | some rs => assembleRegs m rs
    | none => do assembleImm8 m (← readRegs ops.dropLast) (← readByteImm (← ops.getLast?))

/-- The commands of one line: none when the line is not of the syntax, no command for a line that is blank or
a comment (R91). Letters of either case are the same; a comment runs from `#` to the end. -/
def assembleLine (line : String) : Option (List Instr) :=
  let t := trimText ((line.toList.takeWhile (· ≠ '#')).map Char.toLower)
  if t = [] then some []
  else
    let m := t.takeWhile fun c => !c.isWhitespace
    let rest := trimText (t.dropWhile fun c => !c.isWhitespace)
    assembleCommand (String.ofList m) (if rest = [] then [] else (splitCommas rest).map trimText)

end Sys2Proof.Machine
end

