-- ==== Sys2Proof/Safety.lean ====
section
/-! DEFINITION. What a good state and a safe run are, and the words the claims are stated in. -/

namespace Sys2Proof

/-! ## Commands and words -/

/-- The operand registers a command may write (10_state.md R21). -/
def Instr.writes : Instr → List Reg
  | .setlo rd _ | .sethi rd _ | .mov rd _ | .csrr rd _ => [rd]
  | .evEnc rd _ _ _ => [Machine.Reg.next rd]
  | .evDec rd _ _ rc => [Machine.Reg.next rc, Machine.Reg.next rd]
  | .nop | .csrw _ _ | .wipe => []
  | .scKey _ | .scNonce _ _ | .scBlock _ | .scXor _ _ | .scKs _ _ | .scWipe => []
  | .b2Init _ _ _ _ | .b2Update _ | .b2Final _ | .b2Wipe => []
  | .hmMac _ _ _ _ => []
  | .kdInit _ _ _ _ | .kdGet _ _ | .kdWipe => []

/-- The commands whose result is computed from a unit's secret state: keystream, digest, derived bytes
(60_exceptions.md R296). -/
def Instr.releases : Instr → Bool
  | .scBlock _ | .scXor _ _ | .scKs _ _ | .b2Final _ | .kdGet _ _ => true
  | .nop | .setlo _ _ | .sethi _ _ | .mov _ _ | .csrr _ _ | .csrw _ _ | .wipe => false
  | .scKey _ | .scNonce _ _ | .scWipe => false
  | .b2Init _ _ _ _ | .b2Update _ | .b2Wipe => false
  | .hmMac _ _ _ _ => false
  | .kdInit _ _ _ _ | .kdWipe => false
  | .evEnc _ _ _ _ | .evDec _ _ _ _ => false

/-- The fields of a word that name a descriptor pair, by row (30_encoding.md R88, case 3). -/
def Op.pairPlaces : Op → List (Word → Reg)
  | .scKey | .scNonce | .scXor | .b2Update => [raField]
  | .b2Init => [raField, rbField, rcField]
  | .hmMac | .kdInit => [raField, rbField]
  | .evEnc | .evDec => [raField, rbField, rcField, rdField]
  | .nop | .setlo | .sethi | .mov | .csrr | .csrw | .wipe => []
  | .scBlock | .scKs | .scWipe | .b2Final | .b2Wipe | .kdGet | .kdWipe => []

/-- The CSR number of a `CSRR` is implemented, that of a `CSRW` implemented and writable (30_encoding.md R88,
case 4). -/
def Op.csrLegal (o : Op) (w : Word) : Prop :=
  match o with
  | .csrr => ∃ c, Csr.ofNumber (csrField w) = some c
  | .csrw => ∃ c, Csr.ofNumber (csrField w) = some c ∧ c.writable = true
  | _ => True

/-- The word is the command of the row (30_encoding.md R87, R88). -/
def Op.owns (o : Op) (w : Word) : Prop :=
  w &&& o.mask = o.fixedBits ∧ (∀ field ∈ o.pairPlaces, field w ≠ 15) ∧ o.csrLegal w

end Sys2Proof

namespace Sys2Proof.Machine

open Sys2Proof

/-! ## Invariants -/

/-- What holds of the B2 unit between commands (10_state.md R43; 42_blake2b.md R158, R160, R161). -/
structure B2Unit.Inv (b : B2Unit) : Prop where
  /-- The offset is 0 to 128 (R43). -/
  offset : b.c ≤ 128
  /-- `bbuf[i] = 0` for every `i >= c` (R43, R158). -/
  padding : ∀ i : Fin 128, b.c ≤ i.val → b.bbuf[i] = 0
  /-- The output length is 0 to 64 (R43). -/
  outlen : b.outlen ≤ 64
  /-- `f[1]` is always 0 (R43). -/
  flagHigh : b.f1 = 0
  /-- Not finalized, or finalized with everything but the flag and the output length zeroed (R43, R160). -/
  flagLow : b.f0 = 0 ∨ b = { B2Unit.zero with f0 := BitVec.allOnes 64, outlen := b.outlen }
  /-- A unit with no hash is the wiped unit (R50, R161). -/
  idle : b.outlen = 0 → b = B2Unit.zero

/-- What holds of a key-derivation instance between commands (10_state.md R45; 44_pbkdf2.md R212, R213). -/
structure KdInstance.Inv (k : KdInstance) : Prop where
  /-- `k0` has `B` bytes (R45). -/
  keyLength : k.k0.length = k.alg.blockLen
  /-- The salt has 8 to `KD_SALT_MAX` bytes (R45). -/
  saltLength : 8 ≤ k.salt.length ∧ k.salt.length ≤ kdSaltMax
  /-- The iteration count is 1 to 2^31 - 1 (R45). -/
  iterRange : 1 ≤ k.iter ∧ k.iter < 2 ^ 31
  /-- `pos` is 0 to `hLen` (R45). -/
  posRange : k.pos ≤ k.alg.hLen
  /-- `dbuf` has `hLen` bytes (R45). -/
  bufferLength : k.dbuf.length = k.alg.hLen
  /-- Before the first block nothing is buffered (R45, R212). -/
  fresh : k.blk = 0 → k.pos = k.alg.hLen
  /-- `dbuf` is the last derived block (R45, R213). -/
  buffered : k.blk ≠ 0 → k.dbuf = deriveBlock k.alg k.k0 k.salt k.iter k.blk

/-- What holds of every state between two steps. -/
structure State.Inv (s : State) : Prop where
  /-- BUF is in canonical form. -/
  memWf : s.mem.wf = true
  /-- No byte is stored past the end of BUF (20_memory.md R60, R62). -/
  memWithin : s.mem.within s.cfg.bufBytes = true
  /-- The parameters are legal (00_scope.md R9). -/
  cfgLegal : s.cfg.legal = true
  /-- The queue holds at most `CMDQ_DEPTH` words (10_state.md R25). -/
  queueDepth : s.queue.length ≤ s.cfg.cmdqDepth
  /-- A halted core has an empty queue (60_exceptions.md R285). -/
  haltedEmpty : s.halted = true → s.queue = []
  /-- There is a nonce only beside a key (10_state.md R26). -/
  noncedKeyed : s.sc.nonced = true → s.sc.keyed = true
  /-- Without a key the CipherState is zero (41_stream_cipher.md R135). -/
  unkeyedZero : s.sc.keyed = false → s.sc = ScUnit.zero
  /-- The B2 unit is as it should be. -/
  b2Inv : s.b2.Inv
  /-- A key-derivation instance is as it should be. -/
  kdInv : ∀ k, s.kd.inst = some k → k.Inv
  /-- A disposed unit holds no instance (10_state.md R26, 44_pbkdf2.md R214). -/
  kdDisposed : s.kd.disposed = true → s.kd.inst = none

/-- The words of a CipherState that hold constants, under a variant (41_stream_cipher.md R124, R125). -/
def constantWords (v : Variant) (cs : Vector Word 16) : Vector Word 4 :=
  match v with
  | .chacha => #v[cs[0], cs[1], cs[2], cs[3]]
  | .salsa => #v[cs[0], cs[5], cs[10], cs[15]]

/-- A keyed SC unit has the constants of a 32-byte or of a 16-byte key in their places (R126). -/
def State.constantsInPlace (s : State) : Prop :=
  s.sc.keyed = true →
    constantWords s.scCfg.variant s.sc.cs = sigmaWords ∨ constantWords s.scCfg.variant s.sc.cs = tauWords

/-- A run of `n` steps that is never refused and never stops. -/
def State.SafeRun (n : Nat) (s : State) : Prop := ∃ t, Host.Core.run Sys2Proof.core n s = .next t

/-! ## The words of the claims -/

/-- Only the bytes from `a` on change, and there stands `v` (20_memory.md R61). -/
def Memory.Stored (m : Memory) (a : Nat) (v : Bytes) (m' : Memory) : Prop :=
  ∀ k, m'.readByte k = if a ≤ k ∧ k < a + v.length then v.getD (k - a) 0 else m.readByte k

/-- The command retired: `cp` has moved on by 1, and neither the fault registers nor the queue, the
parameters, the coming RNG bytes or the coming moves have changed (10_state.md R24). -/
def Retired (s t : State) : Prop :=
  t.cp = s.cp + 1 ∧ t.err = s.err ∧ t.errcp = s.errcp ∧ t.errcmd = s.errcmd ∧ t.queue = s.queue ∧
    t.cfg = s.cfg ∧ t.rngHead = s.rngHead ∧ t.moves = s.moves

/-- Two states that agree in all but the secrets of the units: `cs`, the chaining words, counter and
buffer of B2, and the contents of the key-derivation instance (60_exceptions.md R296). -/
structure State.SameView (s t : State) : Prop where
  rest : t = { s with sc := t.sc, b2 := t.b2, kd := t.kd }
  keyed : t.sc.keyed = s.sc.keyed
  nonced : t.sc.nonced = s.sc.nonced
  outlen : t.b2.outlen = s.b2.outlen
  final : t.b2.final = s.b2.final
  active : t.kd.active = s.kd.active
  disposed : t.kd.disposed = s.kd.disposed

/-- How many bytes of its stream an instance has handed out (44_pbkdf2.md R211). -/
def KdInstance.handedOut (k : KdInstance) : Nat := k.blk.toNat * k.alg.hLen + k.pos - k.alg.hLen

/-- The first `n` blocks of an instance's stream (44_pbkdf2.md R211). -/
def KdInstance.stream (k : KdInstance) (n : Nat) : Bytes := deriveBlocks k.alg k.k0 k.salt k.iter n 1

/-- The number in the 64-bit block counter (41_stream_cipher.md R128). -/
def blockCounter (v : Variant) (cs : Vector Word 16) : Nat :=
  cs[counterHigh v].toNat * 2 ^ 32 + cs[counterLow v].toNat

/-- The number in the 128-bit byte counter (42_blake2b.md R157). -/
def B2Unit.count (b : B2Unit) : Nat := b.t1.toNat * 2 ^ 64 + b.t0.toNat

/-- Byte `k` of the keystream from the present counter: byte `k mod 64` of the block after `k / 64` counter
steps (41_stream_cipher.md R129, R133). -/
def keystreamByte (s : State) (k : Nat) : Byte :=
  (keystreamBlock s.scCfg ((counterStep s.scCfg.variant)^[k / 64] s.sc.cs)).getD (k % 64) 0

/-- The counter after the blocks of `n` bytes, the last one partial or not (41_stream_cipher.md R133). -/
def cipherStateAfter (s : State) (n : Nat) : Vector Word 16 :=
  (counterStep s.scCfg.variant)^[(n + 63) / 64] s.sc.cs

/-- The header `EV.DEC ra` parses (46_envelope.md R262, check 4). -/
def State.envelopeHeader (s : State) (ra : Reg) : EnvelopeHeader := parseHeader (s.load (s.buf ra))

/-- `need` of `EV.DEC`, the length of an envelope without its ciphertext (46_envelope.md R262, check 6). -/
def EnvelopeHeader.need (h : EnvelopeHeader) (alg : HashAlg) : Nat :=
  32 + h.saltSize.toNat + h.hashSaltSize.toNat + h.metadataSize.toNat + alg.hLen

/-- The header fields `EV.DEC` accepts (46_envelope.md R262, check 5). -/
def EnvelopeHeader.Accepted (h : EnvelopeHeader) : Prop :=
  0 ≤ h.metadataSize.toInt ∧ 0 < h.iterations.toInt ∧ 8 ≤ h.saltSize.toInt ∧ 8 ≤ h.hashSaltSize.toInt

/-- The metadata destination of `EV.DEC` (46_envelope.md R262, checks 7 and 8). -/
def State.metadataOut (s : State) (ra rc : Reg) : Range :=
  ⟨s.num rc, if s.num (Reg.next rc) = 0 then 0 else (s.envelopeHeader ra).metadataSize.toNat⟩

/-- The plaintext destination of `EV.DEC` (46_envelope.md R262, checks 6 and 8). -/
def State.plaintextOut (s : State) (rd ra : Reg) (alg : HashAlg) : Range :=
  ⟨s.num rd, (s.buf ra).len - (s.envelopeHeader ra).need alg⟩

/-- Checks 2 and 3 of `EV.DEC`: key and envelope (46_envelope.md R262). -/
def State.decInputsOk (s : State) (ra rb : Reg) : Prop :=
  (s.buf rb).len ≠ 0 ∧ 16 ≤ (s.buf ra).len ∧ s.admits (s.buf ra) = true ∧ s.admits (s.buf rb) = true

/-- Check 4 of `EV.DEC`: the version, and the algorithm of the header (46_envelope.md R262). -/
def State.decHeaderOk (s : State) (ra : Reg) (alg : HashAlg) : Prop :=
  (s.envelopeHeader ra).version = 1 ∧ hashAlgOf (s.envelopeHeader ra).algId.toNat = some alg

/-- Checks 5 to 7 of `EV.DEC`: header fields, truncation, capacity (46_envelope.md R262). -/
def State.decSizesOk (s : State) (ra rc : Reg) (alg : HashAlg) : Prop :=
  (s.envelopeHeader ra).Accepted ∧ (s.envelopeHeader ra).need alg ≤ (s.buf ra).len ∧
    (s.num (Reg.next rc) = 0 ∨ (s.envelopeHeader ra).metadataSize.toNat ≤ s.num (Reg.next rc))

/-- Check 8 of `EV.DEC`: the two destinations are admitted (46_envelope.md R262). -/
def State.decOutputsAdmitted (s : State) (rd ra rc : Reg) (alg : HashAlg) : Prop :=
  s.admits (s.metadataOut ra rc) = true ∧ s.admits (s.plaintextOut rd ra alg) = true

/-- Check 9 of `EV.DEC`: no output overlaps the other or an input (46_envelope.md R262). -/
def State.decOutputsApart (s : State) (rd ra rb rc : Reg) (alg : HashAlg) : Prop :=
  (s.metadataOut ra rc).overlaps (s.plaintextOut rd ra alg) = false ∧
    (s.metadataOut ra rc).overlaps (s.buf ra) = false ∧ (s.metadataOut ra rc).overlaps (s.buf rb) = false ∧
    (s.plaintextOut rd ra alg).overlaps (s.buf ra) = false ∧ (s.plaintextOut rd ra alg).overlaps (s.buf rb) = false

/-- All nine checks of `EV.DEC` hold (46_envelope.md R262). -/
def State.decAccepts (s : State) (rd ra rb rc : Reg) (alg : HashAlg) : Prop :=
  (rd ≠ 15 ∧ ra ≠ 15 ∧ rb ≠ 15 ∧ rc ≠ 15) ∧ s.decInputsOk ra rb ∧ s.decHeaderOk ra alg ∧ s.decSizesOk ra rc alg ∧
    s.decOutputsAdmitted rd ra rc alg ∧ s.decOutputsApart rd ra rb rc alg

/-- The parts of the envelope at `buf(ra)` (46_envelope.md R250). -/
def State.envelopeBody (s : State) (ra : Reg) (alg : HashAlg) : EnvelopeBody :=
  splitEnvelope (s.load (s.buf ra)) (s.envelopeHeader ra).saltSize.toNat (s.envelopeHeader ra).hashSaltSize.toNat
    (s.envelopeHeader ra).metadataSize.toNat alg.hLen

/-- The MAC key the header asks for (46_envelope.md R251, R262). -/
def State.envelopeMacKey (s : State) (ra rb : Reg) (alg : HashAlg) : Bytes :=
  deriveKey32 alg (s.load (s.buf rb)) (s.envelopeBody ra alg).hashSalt (s.envelopeHeader ra).iterations.toNat

/-- The cipher key the header asks for (46_envelope.md R251, R262). -/
def State.envelopeCipherKey (s : State) (ra rb : Reg) (alg : HashAlg) : Bytes :=
  deriveKey32 alg (s.load (s.buf rb)) (s.envelopeBody ra alg).salt (s.envelopeHeader ra).iterations.toNat

end Sys2Proof.Machine
end

