-- ==== Sys2Proof/Certificates/Slice0/Obligations.lean ====
section
/-! DEFINITION. The statements for the provers. Each docstring names the rule of spec/ that it formalises.
A statement that rests on a choice of the model says so and names the log entry. -/

open Sys2Proof Sys2Proof.Machine

/-! ## Encoding -/

/-- R81, R87: the word of every command that has one decodes to that command, all operand values included. -/
def Obligations.DecodeOfEncode : Prop := ∀ i : Instr, i.wf = true → decode (encode i) = .ok i

/-- R87, R88: a word decodes to at most the command whose word it is, and that command is well formed. -/
def Obligations.EncodeOfDecode : Prop :=
  ∀ (w : Word) (i : Instr), decode w = .ok i → i.wf = true ∧ encode i = w

/-- R87, with case 4 of R88: a word is the command of a row exactly when its fixed bits match, no pair field
holds 15, and its CSR number is legal. -/
def Obligations.WordIsCommandOfRow : Prop :=
  ∀ (w : Word) (o : Op), (∃ i, decode w = .ok i ∧ i.op = o) ↔ o.owns w

/-- R88: a word that is the command of no row takes IllegalCommand, and nothing else happens; a word that is
the command of a row executes as that command. The decoder is total. -/
def Obligations.IllegalWordFaults : Prop :=
  ∀ (w : Word) (s : State),
    ((∀ o : Op, ¬ o.owns w) → runWord w s =
      .next { s with err := some .illegalCommand, errcp := s.cp, errcmd := w, queue := [] }) ∧
    (∀ o : Op, o.owns w → ∃ i, i.op = o ∧ decode w = .ok i ∧ runWord w s = exec i s)

/-- R89, R282: the decoder's checks in their order: opcode, must-be-zero bits, pair fields, CSR number. -/
def Obligations.DecodeCheckOrder : Prop :=
  ∀ w : Word,
    (decode w = .error .unknownOpcode ↔ ∀ o : Op, opField w ≠ o.code) ∧
    (decode w = .error .mustBeZero ↔ ∃ o : Op, opField w = o.code ∧ w &&& o.mask ≠ o.fixedBits) ∧
    (decode w = .error .pairField15 ↔
      ∃ o : Op, w &&& o.mask = o.fixedBits ∧ ∃ field ∈ o.pairPlaces, field w = 15) ∧
    (decode w = .error .csrUnimplemented ↔
      ∃ o : Op, (o = .csrr ∨ o = .csrw) ∧ w &&& o.mask = o.fixedBits ∧ Csr.ofNumber (csrField w) = none) ∧
    (decode w = .error .csrReadOnly ↔
      w &&& Op.csrw.mask = Op.csrw.fixedBits ∧
        ∃ csr, Csr.ofNumber (csrField w) = some csr ∧ csr.writable = false)

/-- R93: worked encodings of the spec decode to the commands they stand for, and its illegal words to none. -/
def Obligations.WorkedEncodings : Prop :=
  decode 0x00000000 = .ok .nop ∧ decode 0x01301234 = .ok (.setlo 3 0x1234) ∧
  decode 0x0230ABCD = .ok (.sethi 3 0xABCD) ∧ decode 0x03700900 = .ok (.mov 9 7) ∧
  decode 0x04200005 = .ok (.csrr 2 .cp) ∧ decode 0x05000010 = .ok (.csrw .scCfg 0) ∧
  decode 0x10000000 = .ok (.scKey 0) ∧ decode 0x11240000 = .ok (.scNonce 2 4) ∧
  decode 0x12000500 = .ok (.scBlock 5) ∧ decode 0x13500700 = .ok (.scXor 7 5) ∧
  decode 0x14600700 = .ok (.scKs 7 6) ∧ decode 0x20024040 = .ok (.b2Init 0 2 4 64) ∧
  decode 0x21200000 = .ok (.b2Update 2) ∧ decode 0x22000400 = .ok (.b2Final 4) ∧
  decode 0x30020602 = .ok (.hmMac 6 0 2 2) ∧ decode 0x40024001 = .ok (.kdInit 0 2 4 1) ∧
  decode 0x41600500 = .ok (.kdGet 5 6) ∧ decode 0x50024600 = .ok (.evEnc 6 0 2 4) ∧
  decode 0x5182AC00 = .ok (.evDec 12 8 2 10) ∧ (decode 0x00000001).toOption = none ∧
  (decode 0x10F00000).toOption = none ∧ (decode 0x07000000).toOption = none

/-! ## The step, the queue and the host -/

/-- R25, R70, R285, R303, R308: with no host move to come, or a `wait`, and the core not halted, the step removes the
oldest word and is `exec` of the command it decodes to, or `runWord` for any word at all; the word that
`withFetchWord` places runs so. A halted core, and an idle core with an empty queue, steps to the same state. A
first host move is the step. The list of host moves and `withFetchWord` are the model's (log entries 5 and 13). -/
def Obligations.StepRunsDecoded : Prop :=
  (∀ (s : State) (w : Word) (q : List Word) (i : Instr),
    s.moves = [] → s.err = none → s.queue = w :: q → decode w = .ok i → step s = exec i { s with queue := q }) ∧
  (∀ (s : State) (w : Word) (q : List Word) (i : Instr) (ms : List HostMove),
    s.moves = .wait :: ms → s.err = none → s.queue = w :: q → decode w = .ok i →
      step s = exec i { s with queue := q, moves := ms }) ∧
  (∀ (s : State) (w : Word) (q : List Word), s.moves = [] → s.err = none → s.queue = w :: q →
    step s = runWord w { s with queue := q }) ∧
  (∀ s : State, s.moves = [] → s.halted = true ∨ s.queue = [] → step s = .next s) ∧
  (∀ (s : State) (m : HostMove) (ms : List HostMove), s.moves = m :: ms →
    step s = hostMove m { s with moves := ms }) ∧
  (∀ (s : State) (nbits n : Nat) (i : Instr), decodeTableWord nbits n = some i →
    step (s.withFetchWord nbits n) = exec i { s with queue := [], err := none, moves := [] })

/-- R25, R70, R285: a queued program runs as its commands in order, and a fault discards the rest. -/
def Obligations.QueueRunsProgram : Prop :=
  ∀ (is : List Instr) (s : State), s.moves = [] → s.err = none → (∀ i ∈ is, i.wf = true) →
    s.queue = is.map encode → Host.Core.run Sys2Proof.core is.length s = runCommands is { s with queue := [] }

/-- R285: a halted core takes no command, accepts no word and is not busy; a command that faults discards the
queued words, keeps `cp` and keeps the state of every unit. -/
def Obligations.HaltTakesNoCommand : Prop :=
  (∀ s : State, s.halted = true → sequencerStep s = .next s ∧ s.portReady = false ∧ s.busy = false) ∧
  (∀ (i : Instr) (s t : State), s.halted = false → exec i s = .next t → t.halted = true →
    t.queue = [] ∧ t.cp = s.cp ∧ t.sc = s.sc ∧ t.b2 = s.b2 ∧ t.kd = s.kd ∧ t.x = s.x)

/-- R25, R67, R71, R287, R303, R321: what each move of the host and the platform does, when it is allowed, that a
move that is not allowed is refused, and that the register port reads every register and every implemented CSR,
with the live BUSY. A BUF access that is not allowed is one while the
core is busy or at an address that is not backed. The refusals are the model's (log entry 6); for all but the
address that is not backed 93_implementation_defined.md U9 and U11 ask for them. -/
def Obligations.HostMovesAsAllowed : Prop :=
  ∀ (s : State) (w : Word) (a : Nat) (b : Byte),
    (s.queue.length < s.cfg.cmdqDepth → s.halted = false →
      hostMove (.command w) s = .next { s with queue := s.queue ++ [w] }) ∧
    (s.cfg.cmdqDepth ≤ s.queue.length ∨ s.halted = true →
      hostMove (.command w) s = .refused .commandPortNotReady) ∧
    (s.busy = false → a < s.cfg.bufBytes → s.mem.wf = true →
      bufPort s a = some (s.mem.readByte a) ∧
      ∃ m, hostMove (.bufWrite a b) s = .next { s with mem := m } ∧ s.mem.Stored a [b] m) ∧
    (s.busy = false → s.cfg.bufBytes ≤ a →
      hostMove (.bufWrite a b) s = .refused .bufAddressNotBacked ∧ bufPort s a = none) ∧
    (s.busy = true → hostMove (.bufWrite a b) s = .refused .bufAccessWhileBusy ∧ bufPort s a = none ∧
      hostMove .softReset s = .refused .softResetWhileBusy) ∧
    hostMove .clrErr s = .next { s with err := none } ∧
    (s.busy = false → hostMove .softReset s = .next { hardReset s with mem := s.mem }) ∧
    hostMove .hardReset s = .next (hardReset s) ∧
    hostMove .wait s = sequencerStep s ∧
    (∀ r, regPort s r = s.reg r) ∧ (∀ n, csrPort s n = (Csr.ofNumber n).map (csrValue s.busy s))

/-- R50, R320, R321: after hard reset every register, CSR, unit and byte of BUF has the value of the table, from any
state; soft reset, allowed while the core is not busy, does the same but leaves BUF; State.reset has these
values. The KD registers, all 0, are an absent instance (log entry 10), and the model's own fields stay (log
entry 7). -/
def Obligations.ResetValues : Prop :=
  (∀ s : State,
    (∀ r, (hardReset s).reg r = 0) ∧ (hardReset s).cp = 0 ∧ (hardReset s).queue = [] ∧
    (hardReset s).halted = false ∧ (hardReset s).busy = false ∧
    (∀ csr : Csr, csrValue (hardReset s).busy (hardReset s) csr = if csr = .id then 0x47530001 else 0) ∧
    (∀ i : Fin 16, (hardReset s).sc.cs[i] = 0) ∧ (hardReset s).sc.keyed = false ∧ (hardReset s).sc.nonced = false ∧
    (∀ i : Fin 8, (hardReset s).b2.h[i] = 0) ∧ (hardReset s).b2.t0 = 0 ∧ (hardReset s).b2.t1 = 0 ∧
    (hardReset s).b2.f0 = 0 ∧ (hardReset s).b2.f1 = 0 ∧ (∀ i : Fin 128, (hardReset s).b2.bbuf[i] = 0) ∧
    (hardReset s).b2.c = 0 ∧ (hardReset s).b2.outlen = 0 ∧
    (hardReset s).kd.inst = none ∧ (hardReset s).kd.disposed = false ∧
    (∀ a, (hardReset s).mem.readByte a = 0) ∧
    (hardReset s).cfg = s.cfg ∧ (hardReset s).rngHead = s.rngHead ∧ (hardReset s).rngPos = s.rngPos ∧
    (hardReset s).moves = s.moves) ∧
  (∀ s : State, s.busy = false → hostMove .softReset s = .next { hardReset s with mem := s.mem }) ∧
  hardReset State.reset = State.reset

/-- R35, R284, R287, R288: in one step the fault registers change in three ways only: a command that faults on
a core that is not halted writes all three, with its own index and word; CLRERR clears ERR alone; a reset
clears all three. So only the host and the reset pin end a halt. -/
def Obligations.FaultRegistersChangeOnly : Prop :=
  ∀ s t : State, step s = .next t →
    (t.err = s.err ∧ t.errcp = s.errcp ∧ t.errcmd = s.errcmd) ∨
    (∃ (w : Word) (q : List Word) (f : Trap), s.err = none ∧ s.queue = w :: q ∧ t.err = some f ∧
      t.errcp = s.cp ∧ t.errcmd = w ∧ t.queue = [] ∧ t.cp = s.cp) ∨
    (∃ ms, s.moves = .clrErr :: ms ∧ t = { s with err := none, moves := ms }) ∨
    (∃ ms, (s.moves = .softReset :: ms ∨ s.moves = .hardReset :: ms) ∧
      t.err = none ∧ t.errcp = 0 ∧ t.errcmd = 0)

/-! ## Rules over all commands -/

/-- R13, R24, R262, R281, R284, R302: every command either retires, moving `cp` on by 1, or takes one fault,
which writes the fault registers with the command's index and word, empties the queue and changes nothing else;
only EV.DEC, and only with an IntegrityFault, may have changed a byte of BUF, and only in its metadata
destination. It covers the terms that no word encodes, as the model has them (log entry 8), and assumes a live
RNG, as R302 permits (log entry 4). -/
def Obligations.CommandRetiresOrFaults : Prop :=
  ∀ (i : Instr) (s : State), ∃ t, exec i s = .next t ∧
    (Retired s t ∨
      ∃ f : Trap,
        t = { s with err := some f, errcp := s.cp, errcmd := encode i, queue := [], mem := t.mem } ∧
        (f ≠ .integrity ∨ (∀ rd ra rb rc, i ≠ .evDec rd ra rb rc) → t.mem = s.mem) ∧
        ∀ rd ra rb rc, i = .evDec rd ra rb rc →
          ∀ a, (s.metadataOut ra rc).contains a = false → t.mem.readByte a = s.mem.readByte a)

/-- R285, R302, R308, R340: with no host move to come, every run goes on: no step stops the machine. It assumes a
live RNG, as R302 permits (log entry 4). -/
def Obligations.RunNeverStops : Prop := ∀ (n : Nat) (s : State), s.moves = [] → s.SafeRun n

/-- R21: a command changes no operand register but those it is said to write, a fault changes none, and the
host's writes change none. -/
def Obligations.RegistersWritten : Prop :=
  (∀ (i : Instr) (s t : State), exec i s = .next t →
    (∀ r, t.reg r ≠ s.reg r → r ∈ i.writes) ∧ (s.halted = false → t.halted = true → t.x = s.x)) ∧
  (∀ (m : HostMove) (s t : State), (∃ w, m = .command w) ∨ (∃ a b, m = .bufWrite a b) ∨ m = .clrErr →
    hostMove m s = .next t → t.x = s.x)

/-- R36: CP reads `cp`, and a CSRR of CP that is command number `k` since reset returns `k` modulo 2^32. -/
def Obligations.CommandPointerCounts : Prop :=
  (∀ (busy : Bool) (s : State), csrValue busy s .cp = s.cp) ∧
  ∀ (is : List Instr) (s t : State) (rd : Reg), s.cp = 0 → s.halted = false → runCommands is s = .next t →
    t.halted = false → ∃ u, exec (.csrr rd .cp) t = .next u ∧ u.reg rd = BitVec.ofNat 32 is.length

/-- R256, R300: EV.ENC that retires draws its salt sizes and 16 bytes from the RNG; a faulting EV.ENC and every
other command draw nothing. -/
def Obligations.OnlyEnvelopeEncodeDraws : Prop :=
  ∀ (i : Instr) (s t : State), exec i s = .next t →
    (t.cp = s.cp + 1 → ∀ rd ra rb rc, i = .evEnc rd ra rb rc →
      t.rngPos = s.rngPos + s.evSaltsz.toNat + s.evHsaltsz.toNat + 16) ∧
    ((t.cp = s.cp ∨ ∀ rd ra rb rc, i ≠ .evEnc rd ra rb rc) → t.rngPos = s.rngPos)

/-- R43, R45, R50: the invariant holds at reset. The parameters there are the model's choice (log entries 1
and 2). -/
def Obligations.ResetInv : Prop := State.reset.Inv

/-- R25, R26, R43, R45, R62, R285: every step from a state with the invariant leads to one with it. -/
def Obligations.StepKeepsInv : Prop := ∀ s t : State, s.Inv → step s = .next t → t.Inv

/-- R126, R131: the constants of a keyed SC unit stay in place from step to step. -/
def Obligations.StepKeepsCipherConstants : Prop :=
  ∀ s t : State, s.constantsInPlace → step s = .next t → t.constantsInPlace

/-- R296, R302: of two states that differ in nothing but the secrets of the units, the host reads the same, and a
command that releases no keystream, digest or derived bytes leads to two such states again. It assumes a live
RNG, as R302 permits (log entry 4). -/
def Obligations.SecretsHaveNoReadPath : Prop :=
  ∀ s t : State, s.SameView t →
    (∀ r, regPort s r = regPort t r) ∧ (∀ n, csrPort s n = csrPort t n) ∧ (∀ a, bufPort s a = bufPort t a) ∧
    ∀ i : Instr, i.releases = false →
      ∃ s' t', exec i s = .next s' ∧ exec i t = .next t' ∧ s'.SameView t'

/-! ## Control commands and CSRs -/

/-- R34: the bits of STATUS; what a CSRR of it sees; that BUSY, as the host sees it, says whether words are
queued in a state where a halted core has none. -/
def Obligations.StatusBits : Prop :=
  (∀ (busy : Bool) (s : State) (k : Nat), k < 32 →
    (statusWord busy s).getLsbD k =
      match k with
      | 0 => busy
      | 1 => decide (errWord s.err ≠ 0)
      | 8 => s.sc.keyed
      | 9 => s.sc.nonced
      | 12 => decide (s.b2.outlen ≠ 0)
      | 13 => decide (s.b2.f0 ≠ 0)
      | 16 => s.kd.inst.isSome
      | 17 => s.kd.disposed
      | _ => false) ∧
  (∀ (rd : Reg) (s : State), s.halted = false →
    ∃ t, exec (.csrr rd .status) s = .next t ∧ (t.reg rd).getLsbD 0 = true ∧ (t.reg rd).getLsbD 1 = false) ∧
  (∀ s : State, (s.halted = true → s.queue = []) →
    csrPort s 0x001 = some (statusWord (!s.queue.isEmpty) s))

/-- R31: a CSRW that retires stores the value written, and a CSRR of the same CSR then returns it. -/
def Obligations.CsrReadsBackWrite : Prop :=
  ∀ (csr : Csr) (ra rd : Reg) (s t : State), exec (.csrw csr ra) s = .next t → t.cp = s.cp + 1 →
    ∃ u, exec (.csrr rd csr) t = .next u ∧ u.reg rd = s.reg ra

/-- R100, R106, R135, R161, R214: NOP, WIPE, SC.WIPE, B2.WIPE, KD.WIPE: their words, what they zero and what
they leave, in every state, and that a set bit below the opcode is an IllegalCommand. The zeroed KD registers are
an absent instance (log entry 10). -/
def Obligations.OperandlessCommands : Prop :=
  ∀ s : State,
    (encode .nop = 0x00000000 ∧ exec .nop s = .next { s with cp := s.cp + 1 }) ∧
    (encode .scWipe = 0x15000000 ∧ exec .scWipe s =
      .next { s with sc := ⟨Vector.replicate 16 0, false, false⟩, cp := s.cp + 1 }) ∧
    (encode .b2Wipe = 0x23000000 ∧ exec .b2Wipe s =
      .next { s with b2 := ⟨Vector.replicate 8 0, 0, 0, 0, 0, Vector.replicate 128 0, 0, 0⟩, cp := s.cp + 1 }) ∧
    (encode .kdWipe = 0x42000000 ∧ exec .kdWipe s = .next { s with kd := ⟨none, true⟩, cp := s.cp + 1 }) ∧
    (encode .wipe = 0x06000000 ∧ exec .wipe s =
      .next { s with
        sc := ⟨Vector.replicate 16 0, false, false⟩
        b2 := ⟨Vector.replicate 8 0, 0, 0, 0, 0, Vector.replicate 128 0, 0, 0⟩
        kd := ⟨none, true⟩
        cp := s.cp + 1 }) ∧
    (∀ (op : BitVec 8) (low : BitVec 24), op ∈ [0x00, 0x06, 0x15, 0x23, 0x42] → low ≠ 0 →
      runWord (op ++ low) s = raise .illegalCommand (op ++ low) s)

/-- R101, R102, R103: SETLO zero-extends, SETHI keeps the low half, MOV copies; no other register, flag or byte
of BUF changes; a set must-be-zero bit is an IllegalCommand. -/
def Obligations.RegisterCommands : Prop :=
  ∀ (rd ra : Reg) (imm : Half) (s : State),
    (encode (.setlo rd imm) = 0x01#8 ++ rd ++ 0#4 ++ imm ∧
      ∃ t, exec (.setlo rd imm) s = .next t ∧ t = { s with x := t.x, cp := s.cp + 1 } ∧
        ∀ q, t.reg q = if q = rd then imm.setWidth 32 else s.reg q) ∧
    (encode (.sethi rd imm) = 0x02#8 ++ rd ++ 0#4 ++ imm ∧
      ∃ t, exec (.sethi rd imm) s = .next t ∧ t = { s with x := t.x, cp := s.cp + 1 } ∧
        ∀ q, t.reg q = if q = rd then (imm.setWidth 32 <<< 16) ||| (s.reg rd &&& 0xFFFF) else s.reg q) ∧
    (encode (.mov rd ra) = 0x03#8 ++ ra ++ 0#8 ++ rd ++ 0#8 ∧
      ∃ t, exec (.mov rd ra) s = .next t ∧ t = { s with x := t.x, cp := s.cp + 1 } ∧
        ∀ q, t.reg q = if q = rd then s.reg ra else s.reg q) ∧
    (∀ (op : BitVec 8) (z : BitVec 4), op ∈ [0x01, 0x02] → z ≠ 0 →
      runWord (op ++ rd ++ z ++ imm) s = raise .illegalCommand (op ++ rd ++ z ++ imm) s) ∧
    (∀ (rb rc : Reg) (low : Byte), rb ≠ 0 ∨ rc ≠ 0 ∨ low ≠ 0 →
      runWord (0x03#8 ++ ra ++ rb ++ rc ++ rd ++ low) s =
        raise .illegalCommand (0x03#8 ++ ra ++ rb ++ rc ++ rd ++ low) s)

/-- R33, R36, R104: CSRR writes the value of an implemented CSR to its register and changes nothing else; ID is
constant, CP is the index of this command, ERR reads 0 on a core that is not halted; a set bit in 19 to 12
or an unimplemented number is an IllegalCommand. -/
def Obligations.CsrrReads : Prop :=
  ∀ (rd : Reg) (csr : Csr) (s : State),
    encode (.csrr rd csr) = 0x04#8 ++ rd ++ 0#8 ++ csr.number ∧
    (∃ t, exec (.csrr rd csr) s = .next t ∧ t = { s with x := t.x, cp := s.cp + 1 } ∧
      ∀ q, t.reg q =
        if q = rd then
          match csr with
          | .id => 0x47530001
          | .status => statusWord true s
          | .err => errWord s.err
          | .errcp => s.errcp
          | .errcmd => s.errcmd
          | .cp => s.cp
          | .scCfg => s.scCfg.variant.field + 2 * s.scCfg.rounds.field
          | .evAlg => 0#16 ++ s.evAlg
          | .evIter => s.evIter
          | .evSaltsz => 0#16 ++ s.evSaltsz
          | .evHsaltsz => 0#16 ++ s.evHsaltsz
        else s.reg q) ∧
    (s.halted = false → errWord s.err = 0) ∧
    (∀ (z : BitVec 8) (n : BitVec 12), z ≠ 0 ∨ Csr.ofNumber n = none →
      runWord (0x04#8 ++ rd ++ z ++ n) s = raise .illegalCommand (0x04#8 ++ rd ++ z ++ n) s)

/-- R32, R37, R105: CSRW stores a legal value in a writable CSR and changes nothing else, but that a write of
SC_CFG, of any value, wipes the SC unit; an illegal value is an ArgumentFault; a set bit in 19 to 12, an
unimplemented number or a read-only CSR is an IllegalCommand. -/
def Obligations.CsrwWrites : Prop :=
  ∀ (ra : Reg) (s : State),
    (∀ csr : Csr, encode (.csrw csr ra) = 0x05#8 ++ ra ++ 0#8 ++ csr.number) ∧
    ((s.reg ra).extractLsb' 3 29 = 0 → (s.reg ra).extractLsb' 1 2 ≠ 3 →
      ∃ t, exec (.csrw .scCfg ra) s = .next t ∧
        t = { s with scCfg := t.scCfg, sc := ⟨Vector.replicate 16 0, false, false⟩, cp := s.cp + 1 } ∧
        t.scCfg.variant.field + 2 * t.scCfg.rounds.field = s.reg ra) ∧
    ((s.reg ra).extractLsb' 3 29 ≠ 0 ∨ (s.reg ra).extractLsb' 1 2 = 3 →
      exec (.csrw .scCfg ra) s = raise .argument (encode (.csrw .scCfg ra)) s) ∧
    exec (.csrw .evIter ra) s = .next { s with evIter := s.reg ra, cp := s.cp + 1 } ∧
    ((s.reg ra).extractLsb' 16 16 = 0 →
      (∃ t, exec (.csrw .evAlg ra) s = .next t ∧ t = { s with evAlg := t.evAlg, cp := s.cp + 1 } ∧
        0#16 ++ t.evAlg = s.reg ra) ∧
      (∃ t, exec (.csrw .evSaltsz ra) s = .next t ∧ t = { s with evSaltsz := t.evSaltsz, cp := s.cp + 1 } ∧
        0#16 ++ t.evSaltsz = s.reg ra) ∧
      (∃ t, exec (.csrw .evHsaltsz ra) s = .next t ∧ t = { s with evHsaltsz := t.evHsaltsz, cp := s.cp + 1 } ∧
        0#16 ++ t.evHsaltsz = s.reg ra)) ∧
    ((s.reg ra).extractLsb' 16 16 ≠ 0 →
      exec (.csrw .evAlg ra) s = raise .argument (encode (.csrw .evAlg ra)) s ∧
      exec (.csrw .evSaltsz ra) s = raise .argument (encode (.csrw .evSaltsz ra)) s ∧
      exec (.csrw .evHsaltsz ra) s = raise .argument (encode (.csrw .evHsaltsz ra)) s) ∧
    (∀ (z : BitVec 8) (n : BitVec 12),
      z ≠ 0 ∨ n ∉ [0x010, 0x040, 0x041, 0x042, 0x043] →
        runWord (0x05#8 ++ ra ++ z ++ n) s = raise .illegalCommand (0x05#8 ++ ra ++ z ++ n) s)

/-- R92: LI loads its 32-bit constant with one or two commands, and changes no other register. -/
def Obligations.LoadImmediate : Prop :=
  ∀ (rd : Reg) (imm : Word) (s : State), s.halted = false →
    ∃ t, runCommands (expandPseudo (.li rd imm)) s = .next t ∧
      t = { s with x := t.x, cp := s.cp + (if imm.extractLsb' 16 16 = 0 then 1 else 2) } ∧
      ∀ q, t.reg q = if q = rd then imm else s.reg q

/-! ## The SC unit -/

/-- R124, R125, R126, R130: SC.KEY: its faults in order, and the layout of constants and key words under both
variants and both key lengths. -/
def Obligations.ScKeyLoads : Prop :=
  ∀ (ra : Reg) (s : State),
    let i := Instr.scKey ra
    let key := s.load (s.buf ra)
    let con := if (s.buf ra).len = 32 then sigmaWords else tauWords
    let k := fun n : Nat => le32 (slice key (4 * n) (4 * n + 4))
    let n4 := if (s.buf ra).len = 32 then 4 else 0
    encode i = 0x10#8 ++ ra ++ 0#20 ∧
    (ra = 15 → runWord (encode i) s = raise .illegalCommand (encode i) s) ∧
    (ra ≠ 15 → (s.buf ra).len ≠ 16 → (s.buf ra).len ≠ 32 → exec i s = raise .argument (encode i) s) ∧
    (ra ≠ 15 → (s.buf ra).len = 16 ∨ (s.buf ra).len = 32 → s.admits (s.buf ra) = false →
      exec i s = raise .address (encode i) s) ∧
    (ra ≠ 15 → (s.buf ra).len = 16 ∨ (s.buf ra).len = 32 → s.admits (s.buf ra) = true →
      ∃ t, exec i s = .next t ∧ t = { s with sc := ⟨t.sc.cs, true, false⟩, cp := s.cp + 1 } ∧
        (s.scCfg.variant = .chacha → ∀ j : Fin 4,
          t.sc.cs[j.val] = con[j] ∧ t.sc.cs[4 + j.val] = k j ∧ t.sc.cs[8 + j.val] = k (n4 + j) ∧
          t.sc.cs[12 + j.val] = 0) ∧
        (s.scCfg.variant = .salsa → ∀ j : Fin 4,
          t.sc.cs[5 * j.val] = con[j] ∧ t.sc.cs[1 + j.val] = k j ∧ t.sc.cs[11 + j.val] = k (n4 + j) ∧
          t.sc.cs[6 + j.val] = 0))

/-- R127, R131: SC.NONCE: its faults in order, the placing of nonce and counter for every variant and length,
and that no other word of the CipherState changes. -/
def Obligations.ScNonceLoads : Prop :=
  ∀ (ra rb : Reg) (s : State),
    let i := Instr.scNonce ra rb
    let len := (s.buf ra).len
    let n := fun j : Nat => le32 (slice (s.load (s.buf ra)) (4 * j) (4 * j + 4))
    let accepted := len = 8 ∨ len = 16 ∨ (len = 12 ∧ s.scCfg.variant = .chacha)
    let base := match s.scCfg.variant with | .chacha => 12 | .salsa => 6
    let words := match s.scCfg.variant with
      | .chacha =>
        if len = 8 then [s.reg rb, 0, n 0, n 1]
        else if len = 12 then [s.reg rb, n 0, n 1, n 2]
        else [n 0, n 1, n 2, n 3]
      | .salsa => if len = 8 then [n 0, n 1, s.reg rb, 0] else [n 0, n 1, n 2, n 3]
    encode i = 0x11#8 ++ ra ++ rb ++ 0#16 ∧
    (ra = 15 → runWord (encode i) s = raise .illegalCommand (encode i) s) ∧
    (ra ≠ 15 → s.sc.keyed = false → exec i s = raise .state (encode i) s) ∧
    (ra ≠ 15 → s.sc.keyed = true → ¬ accepted → exec i s = raise .argument (encode i) s) ∧
    (ra ≠ 15 → s.sc.keyed = true → accepted → s.admits (s.buf ra) = false →
      exec i s = raise .address (encode i) s) ∧
    (ra ≠ 15 → s.sc.keyed = true → accepted → s.admits (s.buf ra) = true →
      ∃ t, exec i s = .next t ∧ t = { s with sc := ⟨t.sc.cs, true, true⟩, cp := s.cp + 1 } ∧
        ∀ j : Fin 16, t.sc.cs[j] =
          if base ≤ j.val ∧ j.val < base + 4 then words.getD (j.val - base) 0 else s.sc.cs[j])

/-- R129, R132: SC.BLOCK: its faults in order; it writes the 64 bytes of the block function and steps the
counter once. -/
def Obligations.ScBlockWrites : Prop :=
  ∀ (rd : Reg) (s : State),
    let i := Instr.scBlock rd
    encode i = 0x12#8 ++ 0#12 ++ rd ++ 0#8 ∧
    (s.sc.keyed = false ∨ s.sc.nonced = false → exec i s = raise .state (encode i) s) ∧
    (s.sc.keyed = true → s.sc.nonced = true → s.admits (s.dest rd 64) = false →
      exec i s = raise .address (encode i) s) ∧
    (s.sc.keyed = true → s.sc.nonced = true → s.admits (s.dest rd 64) = true → s.mem.wf = true →
      ∃ t, exec i s = .next t ∧ t = { s with sc := t.sc, mem := t.mem, cp := s.cp + 1 } ∧
        t.sc = { s.sc with cs := counterStep s.scCfg.variant s.sc.cs } ∧
        s.mem.Stored (s.num rd) (keystreamBlock s.scCfg s.sc.cs) t.mem)

/-- R63, R133: SC.XOR: its faults in order; every output byte is the input byte exclusive-ored with the
keystream byte of its place, block after block; the counter moves on by the blocks begun; with length 0
nothing changes but `cp`. -/
def Obligations.ScXorWrites : Prop :=
  ∀ (rd ra : Reg) (s : State),
    let i := Instr.scXor rd ra
    let n := (s.buf ra).len
    let out := s.dest rd n
    encode i = 0x13#8 ++ ra ++ 0#8 ++ rd ++ 0#8 ∧
    (ra = 15 → runWord (encode i) s = raise .illegalCommand (encode i) s) ∧
    (ra ≠ 15 → s.sc.keyed = false ∨ s.sc.nonced = false → exec i s = raise .state (encode i) s) ∧
    (ra ≠ 15 → s.sc.keyed = true → s.sc.nonced = true → s.admits (s.buf ra) = false ∨ s.admits out = false →
      exec i s = raise .address (encode i) s) ∧
    (ra ≠ 15 → s.sc.keyed = true → s.sc.nonced = true → s.admits (s.buf ra) = true → s.admits out = true →
      s.reg rd ≠ s.reg ra → out.overlaps (s.buf ra) = true → exec i s = raise .address (encode i) s) ∧
    (ra ≠ 15 → s.sc.keyed = true → s.sc.nonced = true → s.admits (s.buf ra) = true → s.admits out = true →
      s.reg rd = s.reg ra ∨ out.overlaps (s.buf ra) = false → s.mem.wf = true →
      ∃ t, exec i s = .next t ∧ t = { s with sc := t.sc, mem := t.mem, cp := s.cp + 1 } ∧
        t.sc = { s.sc with cs := cipherStateAfter s n } ∧
        ∀ a, t.mem.readByte a =
          if s.num rd ≤ a ∧ a < s.num rd + n then
            s.mem.readByte (s.num ra + (a - s.num rd)) ^^^ keystreamByte s (a - s.num rd)
          else s.mem.readByte a)

/-- R134: SC.KS: its faults in order; it writes the keystream bytes themselves; the counter moves on by the
blocks begun. -/
def Obligations.ScKsWrites : Prop :=
  ∀ (rd ra : Reg) (s : State),
    let i := Instr.scKs rd ra
    let n := s.num ra
    encode i = 0x14#8 ++ ra ++ 0#8 ++ rd ++ 0#8 ∧
    (s.sc.keyed = false ∨ s.sc.nonced = false → exec i s = raise .state (encode i) s) ∧
    (s.sc.keyed = true → s.sc.nonced = true → s.admits (s.dest rd n) = false →
      exec i s = raise .address (encode i) s) ∧
    (s.sc.keyed = true → s.sc.nonced = true → s.admits (s.dest rd n) = true → s.mem.wf = true →
      ∃ t, exec i s = .next t ∧ t = { s with sc := t.sc, mem := t.mem, cp := s.cp + 1 } ∧
        t.sc = { s.sc with cs := cipherStateAfter s n } ∧
        ∀ a, t.mem.readByte a =
          if s.num rd ≤ a ∧ a < s.num rd + n then keystreamByte s (a - s.num rd) else s.mem.readByte a)

/-- R133: applying SC.XOR twice from the same SC state and configuration restores the input, wherever the two
outputs lie. -/
def Obligations.ScXorTwiceRestores : Prop :=
  ∀ (rd ra rd' ra' : Reg) (s t u v : State), s.mem.wf = true → u.mem.wf = true →
    exec (.scXor rd ra) s = .next t → t.cp = s.cp + 1 →
    u.sc = s.sc → u.scCfg = s.scCfg → (u.buf ra').len = (s.buf ra).len →
    u.load (u.buf ra') = t.load (s.dest rd (s.buf ra).len) →
    exec (.scXor rd' ra') u = .next v → v.cp = u.cp + 1 →
    v.load (u.dest rd' (s.buf ra).len) = s.load (s.buf ra)

/-- R110, R128: the counter step adds 1 to the 64-bit number in the two counter words, modulo 2^64, and changes
no other word. -/
def Obligations.BlockCounterSteps : Prop :=
  ∀ (v : Variant) (cs : Vector Word 16),
    blockCounter v (counterStep v cs) = (blockCounter v cs + 1) % 2 ^ 64 ∧
    ∀ i : Fin 16, i ≠ counterLow v → i ≠ counterHigh v → (counterStep v cs)[i] = cs[i]

/-- R129: byte `4i + j` of a block is byte `j`, little-endian, of word `i` after 10, 6 or 4 double rounds, with
the original word added back. -/
def Obligations.BlockFunctionBytes : Prop :=
  ∀ (c : ScCfg) (cs : Vector Word 16),
    (keystreamBlock c cs).length = 64 ∧
    ∀ (i : Fin 16) (j : Fin 4),
      (keystreamBlock c cs).getD (4 * i.val + j.val) 0 =
        ((((match c.variant with | .chacha => chachaDouble | .salsa => salsaDouble)^[
          match c.rounds with | .r20 => 10 | .r12 => 6 | .r8 => 4] cs)[i] + cs[i]).extractLsb' (8 * j.val) 8)

/-- R121, R123: the four words a quarter round computes, for both variants, each from the words before it, and that
it changes no other word. -/
def Obligations.QuarterRoundWords : Prop :=
  ∀ (w : Vector Word 16) (a b c d : Fin 16), [a, b, c, d].Nodup →
    let rotl := fun (v : Word) (n : Nat) => (v <<< n) ||| (v >>> (32 - n))
    (let a1 := w[a] + w[b]
      let d1 := rotl (w[d] ^^^ a1) 16
      let c1 := w[c] + d1
      let b1 := rotl (w[b] ^^^ c1) 12
      let a2 := a1 + b1
      let d2 := rotl (d1 ^^^ a2) 8
      let c2 := c1 + d2
      let b2 := rotl (b1 ^^^ c2) 7
      ∀ j : Fin 16, (chachaQuarter w a b c d)[j] =
        if j = a then a2 else if j = b then b2 else if j = c then c2 else if j = d then d2 else w[j]) ∧
    (let b1 := w[b] ^^^ rotl (w[a] + w[d]) 7
      let c1 := w[c] ^^^ rotl (b1 + w[a]) 9
      let d1 := w[d] ^^^ rotl (c1 + b1) 13
      let a1 := w[a] ^^^ rotl (d1 + c1) 18
      ∀ j : Fin 16, (salsaQuarter w a b c d)[j] =
        if j = a then a1 else if j = b then b1 else if j = c then c1 else if j = d then d1 else w[j])

/-- R122, R123, R136: a double round is its four quarter rounds on columns and then its four on diagonals or
rows, and within each half any order of the four gives the same words. -/
def Obligations.QuarterRoundsAnyOrder : Prop :=
  ∀ (w : Vector Word 16) (p q : List (Fin 16 × Fin 16 × Fin 16 × Fin 16)),
    (p.Perm [(0, 4, 8, 12), (1, 5, 9, 13), (2, 6, 10, 14), (3, 7, 11, 15)] →
      q.Perm [(0, 5, 10, 15), (1, 6, 11, 12), (2, 7, 8, 13), (3, 4, 9, 14)] →
      (p ++ q).foldl (fun w j => chachaQuarter w j.1 j.2.1 j.2.2.1 j.2.2.2) w = chachaDouble w) ∧
    (p.Perm [(0, 4, 8, 12), (5, 9, 13, 1), (10, 14, 2, 6), (15, 3, 7, 11)] →
      q.Perm [(0, 1, 2, 3), (5, 6, 7, 4), (10, 11, 8, 9), (15, 12, 13, 14)] →
      (p ++ q).foldl (fun w j => salsaQuarter w j.1 j.2.1 j.2.2.1 j.2.2.2) w = salsaDouble w)

/-! ## The B2 unit -/

/-- R155, R156: B2.INIT: its faults in order; the chaining words are the IV with the configuration block, a key
lies zero-padded in the buffer, everything else is 0; without salt and personalization only `h[0]` differs
from the IV. It is legal in every state of the unit. -/
def Obligations.B2InitStarts : Prop :=
  ∀ (ra rb rc : Reg) (imm : Byte) (s : State),
    let i := Instr.b2Init ra rb rc imm
    let kl := (s.buf ra).len
    let sl := (s.buf rb).len
    let pl := (s.buf rc).len
    let accepted := 1 ≤ imm.toNat ∧ imm.toNat ≤ 64 ∧ kl ≤ 128 ∧ (sl = 0 ∨ sl = 16) ∧ (pl = 0 ∨ pl = 16)
    let block := [imm, BitVec.ofNat 8 kl, 1, 1] ++ zeros 28 ++
      (if sl = 0 then zeros 16 else s.load (s.buf rb)) ++ (if pl = 0 then zeros 16 else s.load (s.buf rc))
    let admitted := s.admits (s.buf ra) = true ∧ s.admits (s.buf rb) = true ∧ s.admits (s.buf rc) = true
    encode i = 0x20#8 ++ ra ++ rb ++ rc ++ 0#4 ++ imm ∧
    (ra = 15 ∨ rb = 15 ∨ rc = 15 → runWord (encode i) s = raise .illegalCommand (encode i) s) ∧
    (ra ≠ 15 → rb ≠ 15 → rc ≠ 15 → ¬ accepted → exec i s = raise .argument (encode i) s) ∧
    (ra ≠ 15 → rb ≠ 15 → rc ≠ 15 → accepted → ¬ admitted → exec i s = raise .address (encode i) s) ∧
    (ra ≠ 15 → rb ≠ 15 → rc ≠ 15 → accepted → admitted →
      ∃ t, exec i s = .next t ∧ t = { s with b2 := t.b2, cp := s.cp + 1 } ∧
        (∀ j : Fin 8, t.b2.h[j] = blakeIv[j] ^^^ le64 (slice block (8 * j) (8 * j + 8))) ∧
        t.b2.t0 = 0 ∧ t.b2.t1 = 0 ∧ t.b2.f0 = 0 ∧ t.b2.f1 = 0 ∧ t.b2.outlen = imm.toNat ∧
        t.b2.c = (if kl = 0 then 0 else 128) ∧
        (∀ j : Fin 128, t.b2.bbuf[j] = (s.load (s.buf ra)).getD j 0) ∧
        (sl = 0 → pl = 0 →
          t.b2.h[0] = blakeIv[0] ^^^ BitVec.ofNat 64 (0x01010000 + kl * 256 + imm.toNat) ∧
          ∀ j : Fin 8, j ≠ 0 → t.b2.h[j] = blakeIv[j]))

/-- R159: B2.UPDATE: its faults in order; it absorbs its input and changes nothing else. -/
def Obligations.B2UpdateAbsorbs : Prop :=
  ∀ (ra : Reg) (s : State),
    let i := Instr.b2Update ra
    encode i = 0x21#8 ++ ra ++ 0#20 ∧
    (ra = 15 → runWord (encode i) s = raise .illegalCommand (encode i) s) ∧
    (ra ≠ 15 → s.b2.outlen = 0 ∨ s.b2.f0 ≠ 0 → exec i s = raise .state (encode i) s) ∧
    (ra ≠ 15 → s.b2.outlen ≠ 0 → s.b2.f0 = 0 → s.admits (s.buf ra) = false →
      exec i s = raise .address (encode i) s) ∧
    (ra ≠ 15 → s.b2.outlen ≠ 0 → s.b2.f0 = 0 → s.admits (s.buf ra) = true →
      exec i s = .next { s with b2 := blakeAbsorb s.b2 (s.load (s.buf ra)), cp := s.cp + 1 } ∧
      ((s.buf ra).len = 0 → exec i s = .next { s with cp := s.cp + 1 }))

/-- R157, R160: B2.FINAL: its faults in order; the last compression counts the buffered bytes and has the flag
set; the digest is the chaining words, little-endian, cut to the output length; the unit is zeroed but for
the flag and the output length; a second B2.FINAL is a StateFault. -/
def Obligations.B2FinalWritesDigest : Prop :=
  ∀ (rd : Reg) (s : State),
    let i := Instr.b2Final rd
    let n := (s.b2.count + s.b2.c) % 2 ^ 128
    let last := { s.b2 with
      t0 := BitVec.ofNat 64 n, t1 := BitVec.ofNat 64 (n / 2 ^ 64), f0 := 0xFFFFFFFFFFFFFFFF }
    let digest := ((blakeCompress last s.b2.bbuf.toList).toList.map toLe64).flatten.take s.b2.outlen
    encode i = 0x22#8 ++ 0#12 ++ rd ++ 0#8 ∧
    (s.b2.outlen = 0 ∨ s.b2.f0 ≠ 0 → exec i s = raise .state (encode i) s) ∧
    (s.b2.outlen ≠ 0 → s.b2.f0 = 0 → s.admits (s.dest rd s.b2.outlen) = false →
      exec i s = raise .address (encode i) s) ∧
    (s.b2.outlen ≠ 0 → s.b2.f0 = 0 → s.admits (s.dest rd s.b2.outlen) = true → s.b2.c ≤ 128 → s.mem.wf = true →
      ∃ t, exec i s = .next t ∧ t = { s with b2 := t.b2, mem := t.mem, cp := s.cp + 1 } ∧
        t.b2 = ⟨Vector.replicate 8 0, 0, 0, 0xFFFFFFFFFFFFFFFF, s.b2.f1, Vector.replicate 128 0, 0, s.b2.outlen⟩ ∧
        s.mem.Stored (s.num rd) digest t.mem ∧
        ∀ q, exec (.b2Final q) t = raise .state (encode (.b2Final q)) t)

/-- R110, R157: the counter step adds the byte count to the 128-bit number in the two counter words, modulo
2^128, and changes nothing else. -/
def Obligations.ByteCounterAdds : Prop :=
  ∀ (b : B2Unit) (n : Nat), 1 ≤ n → n ≤ 128 →
    (blakeCount b n).count = (b.count + n) % 2 ^ 128 ∧
    blakeCount b n = { b with t0 := (blakeCount b n).t0, t1 := (blakeCount b n).t1 }

/-- R158: absorption: one byte goes into a buffer with room, and a full buffer is counted and compressed only
when one more byte arrives; the cut of the input does not matter; the bytes past the offset stay 0; after
`L > 0` bytes from a fresh unit the offset is `(L - 1) mod 128 + 1` and the counter `128 ((L - 1) div 128)`. -/
def Obligations.AbsorptionLaws : Prop :=
  ∀ b : B2Unit, b.c ≤ 128 →
    (∀ d, b.c < 128 → blakeAbsorb b [d] = { b with bbuf := b.bbuf.setIfInBounds b.c d, c := b.c + 1 }) ∧
    (∀ d, b.c = 128 → blakeAbsorb b [d] =
      { blakeCount b 128 with
        h := blakeCompress (blakeCount b 128) b.bbuf.toList
        bbuf := (Vector.replicate 128 0).set 0 d
        c := 1 }) ∧
    blakeAbsorb b [] = b ∧
    (∀ x y, blakeAbsorb (blakeAbsorb b x) y = blakeAbsorb b (x ++ y)) ∧
    ((∀ j : Fin 128, b.c ≤ j.val → b.bbuf[j] = 0) →
      ∀ x, (blakeAbsorb b x).c ≤ 128 ∧
        ∀ j : Fin 128, (blakeAbsorb b x).c ≤ j.val → (blakeAbsorb b x).bbuf[j] = 0) ∧
    (b.c = 0 → b.count = 0 → ∀ x : Bytes, x ≠ [] →
      (blakeAbsorb b x).c = (x.length - 1) % 128 + 1 ∧
      (blakeAbsorb b x).count = (128 * ((x.length - 1) / 128)) % 2 ^ 128)

/-! ## The HM and KD units -/

/-- R63, R199: HM.MAC: its faults in order; it writes the HMAC of the message and changes nothing else. -/
def Obligations.HmMacWritesTag : Prop :=
  ∀ (rd ra rb : Reg) (imm : Byte) (s : State),
    let i := Instr.hmMac rd ra rb imm
    encode i = 0x30#8 ++ ra ++ rb ++ 0#4 ++ rd ++ imm ∧
    (ra = 15 ∨ rb = 15 → runWord (encode i) s = raise .illegalCommand (encode i) s) ∧
    (ra ≠ 15 → rb ≠ 15 → imm.toNat = 0 ∨ 4 < imm.toNat → exec i s = raise .argument (encode i) s) ∧
    ∀ alg : HashAlg, ra ≠ 15 → rb ≠ 15 → imm.toNat = alg.number →
      let out := s.dest rd alg.hLen
      let admitted := s.admits (s.buf ra) = true ∧ s.admits (s.buf rb) = true ∧ s.admits out = true
      let apart := out.overlaps (s.buf ra) = false ∧ out.overlaps (s.buf rb) = false
      (¬ admitted → exec i s = raise .address (encode i) s) ∧
      (admitted → ¬ apart → exec i s = raise .address (encode i) s) ∧
      (admitted → apart → s.mem.wf = true →
        ∃ t, exec i s = .next t ∧ t = { s with mem := t.mem, cp := s.cp + 1 } ∧
          (hmac alg (s.load (s.buf ra)) (s.load (s.buf rb))).length = alg.hLen ∧
          s.mem.Stored (s.num rd) (hmac alg (s.load (s.buf ra)) (s.load (s.buf rb))) t.mem)

/-- R180, R195, R197: an HMAC has `hLen` bytes and a key block `B`; a key longer than the block counts as its
hash; zeros after a key, up to the block, do not matter; HMAC is the nested hash with the two paddings. -/
def Obligations.HmacKeys : Prop :=
  ∀ (alg : HashAlg) (key msg : Bytes),
    (hmac alg key msg).length = alg.hLen ∧ (keyBlock alg key).length = alg.blockLen ∧
    (alg.blockLen < key.length → hmac alg key msg = hmac alg (hashOf alg key) msg) ∧
    (∀ n, key.length + n ≤ alg.blockLen → hmac alg (key ++ zeros n) msg = hmac alg key msg) ∧
    hmac alg key msg =
      hashOf alg (xorBytes (keyBlock alg key) (List.replicate alg.blockLen 0x5c) ++
        hashOf alg (xorBytes (keyBlock alg key) (List.replicate alg.blockLen 0x36) ++ msg))

/-- R181: the padding of the SHA family: 0x80, the fewest zeros, the bit length big-endian, whole blocks. -/
def Obligations.ShaPadding : Prop :=
  (∀ (size : Nat) (msg : Bytes), size = 64 ∨ size = 128 →
    ∃ z, shaPad size msg = msg ++ [0x80] ++ List.replicate z 0 ++ toBe (size / 8) (8 * msg.length) ∧
      (msg.length + 1 + z) % size = size - size / 8 ∧
      (∀ z', z' < z → (msg.length + 1 + z') % size ≠ size - size / 8) ∧
      (shaPad size msg).length % size = 0 ∧ size ≤ (shaPad size msg).length) ∧
  ∀ n v : Nat, (toBe n v).length = n ∧ beNat (toBe n v) = v % 256 ^ n

/-- R210: a derived block is the exclusive or of the iterated HMACs, the first over the salt and the big-endian
block index. -/
def Obligations.DerivedBlockIsXor : Prop :=
  ∀ (alg : HashAlg) (k0 salt : Bytes) (iter : Nat) (c : Word), 1 ≤ iter →
    let u := fun j : Nat => (hmacBlock alg k0)^[j] (hmacBlock alg k0 (salt ++ toBe 4 c.toNat))
    deriveBlock alg k0 salt iter c = (List.range (iter - 1)).foldl (fun t j => xorBytes t (u (j + 1))) (u 0) ∧
    (deriveBlock alg k0 salt iter c).length = alg.hLen

/-- R212: KD.INIT: its faults in order; the instance it makes, with nothing handed out. It is legal in every
state of the unit. -/
def Obligations.KdInitStarts : Prop :=
  ∀ (ra rb rc : Reg) (imm : Byte) (s : State),
    let i := Instr.kdInit ra rb rc imm
    let accepted := 1 ≤ imm.toNat ∧ imm.toNat ≤ 4 ∧ 0 < (s.reg rc).toInt ∧ 8 ≤ (s.buf rb).len ∧
      (s.buf rb).len ≤ 32767
    let admitted := s.admits (s.buf ra) = true ∧ s.admits (s.buf rb) = true
    encode i = 0x40#8 ++ ra ++ rb ++ rc ++ 0#4 ++ imm ∧
    (ra = 15 ∨ rb = 15 → runWord (encode i) s = raise .illegalCommand (encode i) s) ∧
    (ra ≠ 15 → rb ≠ 15 → ¬ accepted → exec i s = raise .argument (encode i) s) ∧
    (ra ≠ 15 → rb ≠ 15 → accepted → ¬ admitted → exec i s = raise .address (encode i) s) ∧
    (ra ≠ 15 → rb ≠ 15 → accepted → admitted →
      ∃ t k, exec i s = .next t ∧ t = { s with kd := ⟨some k, false⟩, cp := s.cp + 1 } ∧ k.Inv ∧
        k.alg.number = imm.toNat ∧ k.k0 = keyBlock k.alg (s.load (s.buf ra)) ∧ k.salt = s.load (s.buf rb) ∧
        k.iter = (s.reg rc).toNat ∧ k.blk = 0 ∧ k.dbuf = zeros k.alg.hLen ∧ k.pos = k.alg.hLen ∧ k.handedOut = 0)

/-- R211, R213: KD.GET: its faults in order; it writes the next bytes of the instance's stream, nothing skipped
and nothing repeated, deriving the blocks it needs and no more. -/
def Obligations.KdGetWritesStream : Prop :=
  ∀ (rd ra : Reg) (s : State),
    let i := Instr.kdGet rd ra
    let n := s.num ra
    encode i = 0x41#8 ++ ra ++ 0#8 ++ rd ++ 0#8 ∧
    (s.kd.disposed = true ∨ s.kd.inst = none → exec i s = raise .state (encode i) s) ∧
    ∀ k, s.kd.disposed = false → s.kd.inst = some k → k.Inv →
      let avail := k.alg.hLen - k.pos
      let need := if n ≤ avail then 0 else (n - avail + k.alg.hLen - 1) / k.alg.hLen
      (0xFFFFFFFF < k.blk.toNat + need → exec i s = raise .argument (encode i) s) ∧
      (k.blk.toNat + need ≤ 0xFFFFFFFF → s.admits (s.dest rd n) = false → exec i s = raise .address (encode i) s) ∧
      (k.blk.toNat + need ≤ 0xFFFFFFFF → s.admits (s.dest rd n) = true → s.mem.wf = true →
        ∃ t k', exec i s = .next t ∧ t = { s with kd := ⟨some k', false⟩, mem := t.mem, cp := s.cp + 1 } ∧
          k' = { k with blk := k'.blk, dbuf := k'.dbuf, pos := k'.pos } ∧ k'.Inv ∧
          k'.blk.toNat = k.blk.toNat + need ∧ k'.handedOut = k.handedOut + n ∧
          (slice (k.stream (k.blk.toNat + need)) k.handedOut (k.handedOut + n)).length = n ∧
          s.mem.Stored (s.num rd) (slice (k.stream (k.blk.toNat + need)) k.handedOut (k.handedOut + n)) t.mem)

/-- R92, R212, R213, R214, R215: KD.INIT, KD.GET of `n` bytes and KD.WIPE write PBKDF2 of the password and the
salt, and leave the unit disposed. -/
def Obligations.KdDeriveIsPbkdf2 : Prop :=
  ∀ (rd rlen rpwd rsalt riter : Reg) (imm : Byte) (alg : HashAlg) (s : State),
    s.halted = false → s.mem.wf = true → rpwd ≠ 15 → rsalt ≠ 15 → imm.toNat = alg.number →
    0 < (s.reg riter).toInt → 8 ≤ (s.buf rsalt).len → (s.buf rsalt).len ≤ 32767 →
    s.admits (s.buf rpwd) = true → s.admits (s.buf rsalt) = true → s.admits (s.dest rd (s.num rlen)) = true →
    ∃ t, runCommands (expandPseudo (.kdDerive rd rlen rpwd rsalt riter imm)) s = .next t ∧
      t = { s with kd := ⟨none, true⟩, mem := t.mem, cp := s.cp + 3 } ∧
      (pbkdf2 alg (s.load (s.buf rpwd)) (s.load (s.buf rsalt)) (s.reg riter).toNat (s.num rlen)).length =
        s.num rlen ∧
      s.mem.Stored (s.num rd)
        (pbkdf2 alg (s.load (s.buf rpwd)) (s.load (s.buf rsalt)) (s.reg riter).toNat (s.num rlen)) t.mem

/-! ## The BC unit -/

/-- R231, R232: the S-box table is its definition (the inverse in the field, then the affine map), and the
inverse S-box undoes it. -/
def Obligations.SboxIsDefinition : Prop :=
  ∀ a : Byte,
    (∃ b : Byte, ((a = 0 ∧ b = 0) ∨ (a ≠ 0 ∧ gfMul a b = 1)) ∧
      sbox a = b ^^^ b.rotateLeft 1 ^^^ b.rotateLeft 2 ^^^ b.rotateLeft 3 ^^^ b.rotateLeft 4 ^^^ 0x63) ∧
    invSbox (sbox a) = a

/-- R235: the inverse cipher undoes the cipher, for every key and every block. -/
def Obligations.AesDecryptsItself : Prop :=
  ∀ key blk : Bytes, key.length = 32 → blk.length = 16 →
    (aesEnc key blk).length = 16 ∧ aesDec key (aesEnc key blk) = blk

/-- R236: a buffer of whole blocks unpads to a string exactly when it is that string padded; padding reaches
the next multiple of 16, never the same length. -/
def Obligations.PaddingIsExact : Prop :=
  (∀ data : Bytes, (pkcsPad data).length = (data.length / 16 + 1) * 16) ∧
  ∀ buf data : Bytes, buf ≠ [] → buf.length % 16 = 0 → (pkcsUnpad buf = some data ↔ pkcsPad data = buf)

/-- R237: CBC decryption undoes CBC encryption for every input, and the ciphertext length is the law's. -/
def Obligations.CbcRoundTrip : Prop :=
  ∀ key iv data : Bytes, key.length = 32 → iv.length = 16 →
    (cbcEncrypt key iv data).length = (data.length / 16 + 1) * 16 ∧
    cbcDecrypt key iv (cbcEncrypt key iv data) = some data

/-! ## The EV unit -/

/-- R250, R251, R252, R256, R300, R302: EV.ENC: its faults in order; the envelope it writes field by field, with the
salts and the IV drawn from the RNG in order; the length it returns; nothing else changes. The RNG's bytes are
free values (log entry 3), and the RNG is assumed live, as R302 permits (log entry 4). -/
def Obligations.EvEncWritesEnvelope : Prop :=
  ∀ (rd ra rb rc : Reg) (s : State),
    let i := Instr.evEnc rd ra rb rc
    let dl := (s.buf ra).len
    let kl := (s.buf rb).len
    let ml := (s.buf rc).len
    let ss := s.evSaltsz.toNat
    let hs := s.evHsaltsz.toNat
    let it := s.evIter.toNat
    let named := ra ≠ 15 ∧ rb ≠ 15 ∧ rc ≠ 15 ∧ rd ≠ 15
    let accepted := kl ≠ 0 ∧ (1 ≤ s.evAlg.toNat ∧ s.evAlg.toNat ≤ 4) ∧ 0 < s.evIter.toInt ∧
      8 ≤ s.evSaltsz.toInt ∧ 8 ≤ s.evHsaltsz.toInt ∧ ml ≤ 0x7FFFFFFF
    encode i = 0x50#8 ++ ra ++ rb ++ rc ++ rd ++ 0#8 ∧
    (¬ named → runWord (encode i) s = raise .illegalCommand (encode i) s) ∧
    (named → ¬ accepted → exec i s = raise .argument (encode i) s) ∧
    ∀ alg : HashAlg, named → accepted → s.evAlg.toNat = alg.number →
      let total := 32 + ss + hs + ml + alg.hLen + (dl / 16 + 1) * 16
      let out := s.dest rd total
      let admitted := s.admits (s.buf ra) = true ∧ s.admits (s.buf rb) = true ∧ s.admits (s.buf rc) = true ∧
        s.admits out = true
      let apart := out.overlaps (s.buf ra) = false ∧ out.overlaps (s.buf rb) = false ∧
        out.overlaps (s.buf rc) = false
      (¬ admitted → exec i s = raise .address (encode i) s) ∧
      (admitted → ¬ apart → exec i s = raise .address (encode i) s) ∧
      (admitted → apart → s.mem.wf = true →
        let key := s.load (s.buf rb)
        let salt := rngBytes s s.rngPos ss
        let hsalt := rngBytes s (s.rngPos + ss) hs
        let iv := rngBytes s (s.rngPos + ss + hs) 16
        let ct := cbcEncrypt (pbkdf2 alg key salt it 32) iv (s.load (s.buf ra))
        let tag := hmac alg (pbkdf2 alg key hsalt it 32) ct
        let env := [1, 0] ++ toLe 2 s.evAlg.toNat ++ toLe 4 ml ++ toLe 4 it ++ toLe 2 ss ++ toLe 2 hs ++
          salt ++ hsalt ++ iv ++ s.load (s.buf rc) ++ tag ++ ct
        ∃ t, exec i s = .next t ∧
          t = { s with x := t.x, mem := t.mem, rngPos := s.rngPos + ss + hs + 16, cp := s.cp + 1 } ∧
          (∀ q, t.reg q = if q = rd + 1 then BitVec.ofNat 32 total else s.reg q) ∧
          env.length = total ∧ s.mem.Stored (s.num rd) env t.mem)

/-- R262, R282: the checks 1 to 9 of EV.DEC in their order, and the fault of the first that fails. -/
def Obligations.EvDecCheckOrder : Prop :=
  ∀ (rd ra rb rc : Reg) (s : State),
    let i := Instr.evDec rd ra rb rc
    let named := rd ≠ 15 ∧ ra ≠ 15 ∧ rb ≠ 15 ∧ rc ≠ 15
    encode i = 0x51#8 ++ ra ++ rb ++ rc ++ rd ++ 0#8 ∧
    (¬ named → runWord (encode i) s = raise .illegalCommand (encode i) s) ∧
    (named → (s.buf rb).len = 0 ∨ (s.buf ra).len < 16 → exec i s = raise .argument (encode i) s) ∧
    (named → (s.buf rb).len ≠ 0 → 16 ≤ (s.buf ra).len →
      s.admits (s.buf ra) = false ∨ s.admits (s.buf rb) = false → exec i s = raise .address (encode i) s) ∧
    (named → s.decInputsOk ra rb → (∀ alg, ¬ s.decHeaderOk ra alg) →
      exec i s = raise .unsupported (encode i) s) ∧
    ∀ alg, named → s.decInputsOk ra rb → s.decHeaderOk ra alg →
      (¬ s.decSizesOk ra rc alg → exec i s = raise .argument (encode i) s) ∧
      (s.decSizesOk ra rc alg → ¬ s.decOutputsAdmitted rd ra rc alg → exec i s = raise .address (encode i) s) ∧
      (s.decSizesOk ra rc alg → s.decOutputsAdmitted rd ra rc alg → ¬ s.decOutputsApart rd ra rb rc alg →
        exec i s = raise .address (encode i) s)

/-- R262, R263, R264: EV.DEC after its checks: a tag that differs, or a ciphertext that does not decrypt to
valid padding, is an IntegrityFault that leaves every register, and every byte but the metadata copied out;
else the plaintext and the metadata are written and their lengths returned, the plaintext length last (log
entry 16). -/
def Obligations.EvDecOpensOrFaults : Prop :=
  ∀ (rd ra rb rc : Reg) (s : State) (alg : HashAlg), s.decAccepts rd ra rb rc alg → s.mem.wf = true →
    let i := Instr.evDec rd ra rb rc
    let body := s.envelopeBody ra alg
    let copied := if s.num (Reg.next rc) = 0 then [] else body.metadata
    let opened :=
      if body.tag = hmac alg (s.envelopeMacKey ra rb alg) body.ciphertext then
        cbcDecrypt (s.envelopeCipherKey ra rb alg) body.iv body.ciphertext
      else none
    (opened = none →
      ∃ t, exec i s = .next t ∧
        t = { s with
          err := some .integrity, errcp := s.cp, errcmd := encode i, queue := [], mem := t.mem } ∧
        s.mem.Stored (s.num rc) copied t.mem) ∧
    ∀ pt, opened = some pt →
      ∃ t m, exec i s = .next t ∧ t = { s with x := t.x, mem := t.mem, cp := s.cp + 1 } ∧
        (∀ q, t.reg q =
          if q = rd + 1 then BitVec.ofNat 32 pt.length
          else if q = rc + 1 ∧ s.num (Reg.next rc) ≠ 0 then (s.envelopeHeader ra).metadataSize
          else s.reg q) ∧
        s.mem.Stored (s.num rc) copied m ∧ m.Stored (s.num rd) pt t.mem ∧
        (s.plaintextOut rd ra alg).len - 16 ≤ pt.length ∧ pt.length < (s.plaintextOut rd ra alg).len

/-- R265: what EV.ENC retires with, EV.DEC opens again under the same key, in any state that holds the envelope
and that key and whose destinations are admitted and apart: the data and its length come back, and with a
capacity the metadata, with its length where that has a register of its own (log entry 16). It holds for every
RNG (log entry 3). -/
def Obligations.EnvelopeRoundTrip : Prop :=
  ∀ (rd ra rb rc rd' ra' rb' rc' : Reg) (s t u : State) (alg : HashAlg),
    s.mem.wf = true → u.mem.wf = true → s.cfg.legal = true → s.evAlg.toNat = alg.number →
    exec (.evEnc rd ra rb rc) s = .next t → t.cp = s.cp + 1 →
    (u.buf ra').len = t.num (rd + 1) → u.load (u.buf ra') = t.load (t.buf rd) →
    u.load (u.buf rb') = s.load (s.buf rb) →
    (rd' ≠ 15 ∧ ra' ≠ 15 ∧ rb' ≠ 15 ∧ rc' ≠ 15) →
    u.admits (u.buf ra') = true → u.admits (u.buf rb') = true →
    (u.num (rc' + 1) = 0 ∨ (s.buf rc).len ≤ u.num (rc' + 1)) →
    u.decOutputsAdmitted rd' ra' rc' alg → u.decOutputsApart rd' ra' rb' rc' alg →
    ∃ v, exec (.evDec rd' ra' rb' rc') u = .next v ∧ Retired u v ∧
      v.num (rd' + 1) = (s.buf ra).len ∧
      v.load ⟨u.num rd', (s.buf ra).len⟩ = s.load (s.buf ra) ∧
      (u.num (rc' + 1) ≠ 0 → v.load ⟨u.num rc', (s.buf rc).len⟩ = s.load (s.buf rc)) ∧
      (u.num (rc' + 1) ≠ 0 → rc' ≠ rd' → v.num (rc' + 1) = (s.buf rc).len)

/-- R263, R266: an envelope made by EV.ENC in which one byte of the tag has been changed is refused by EV.DEC
with an IntegrityFault, under the same key, and no byte outside the metadata destination changes. -/
def Obligations.TamperedTagFaults : Prop :=
  ∀ (rd ra rb rc rd' ra' rb' rc' : Reg) (s t u : State) (alg : HashAlg) (j : Nat) (b : Byte),
    s.mem.wf = true → u.mem.wf = true → s.cfg.legal = true → s.evAlg.toNat = alg.number →
    exec (.evEnc rd ra rb rc) s = .next t → t.cp = s.cp + 1 →
    32 + s.evSaltsz.toNat + s.evHsaltsz.toNat + (s.buf rc).len ≤ j →
    j < 32 + s.evSaltsz.toNat + s.evHsaltsz.toNat + (s.buf rc).len + alg.hLen →
    (t.load (t.buf rd)).getD j 0 ≠ b →
    (u.buf ra').len = t.num (rd + 1) → u.load (u.buf ra') = (t.load (t.buf rd)).set j b →
    u.load (u.buf rb') = s.load (s.buf rb) →
    u.decAccepts rd' ra' rb' rc' alg →
    ∃ v, exec (.evDec rd' ra' rb' rc') u = .next v ∧
      v = { u with
        err := some .integrity, errcp := u.cp, errcmd := encode (.evDec rd' ra' rb' rc'), queue := [],
        mem := v.mem } ∧
      ∀ a, (u.metadataOut ra' rc').contains a = false → v.mem.readByte a = u.mem.readByte a

/-- R263: on strings of one length the constant-time comparison is equality. -/
def Obligations.CtEqualIsEquality : Prop :=
  ∀ a b : Bytes, a.length = b.length → (ctEqual a b = true ↔ a = b)
end

