-- ==== Sys2Proof/Laws/Memory.lean ====
section
/-! SUPPORT. BUF: the canonical form is kept by every operation, and what each operation reads back. -/

namespace Sys2Proof.Machine

open Sys2Proof

/-! ## The canonical form -/

theorem Memory.wfFrom_cons {lo k : Nat} {v : Byte} {m : Memory} :
    Memory.wfFrom lo ((k, v) :: m) = true ↔ lo ≤ k ∧ v ≠ Memory.blank ∧ Memory.wfFrom (k + 1) m = true := by
  simp [Memory.wfFrom, and_assoc]

theorem Memory.wfFrom_mono {lo lo' : Nat} {m : Memory} (h : Memory.wfFrom lo m = true) (hl : lo' ≤ lo) :
    Memory.wfFrom lo' m = true := by
  cases m with
  | nil => rfl
  | cons c m =>
    obtain ⟨k, v⟩ := c
    rw [Memory.wfFrom_cons] at h ⊢
    exact ⟨by omega, h.2⟩

/-- Below its first address a canonical memory reads blank. -/
theorem Memory.readByte_below {lo : Nat} {m : Memory} (h : Memory.wfFrom lo m = true) {a : Nat} (ha : a < lo) :
    m.readByte a = Memory.blank := by
  induction m generalizing lo with
  | nil => rfl
  | cons c m ih =>
    obtain ⟨k, v⟩ := c
    rw [Memory.wfFrom_cons] at h
    simp only [Memory.readByte, if_neg (show k ≠ a by omega)]
    exact ih h.2.2 (by omega)

theorem Memory.writeByte_wfFrom {lo : Nat} {m : Memory} (h : Memory.wfFrom lo m = true) {a : Nat} (ha : lo ≤ a)
    (b : Byte) : Memory.wfFrom lo (m.writeByte a b) = true := by
  induction m generalizing lo with
  | nil =>
    simp only [Memory.writeByte]
    split
    · rfl
    · exact Memory.wfFrom_cons.2 ⟨ha, ‹_›, rfl⟩
  | cons c m ih =>
    obtain ⟨k, v⟩ := c
    have hk := Memory.wfFrom_cons.1 h
    simp only [Memory.writeByte]
    split
    · split
      · exact h
      · exact Memory.wfFrom_cons.2 ⟨ha, ‹_›, Memory.wfFrom_cons.2 ⟨by omega, hk.2⟩⟩
    · split
      · split
        · exact Memory.wfFrom_mono hk.2.2 (by omega)
        · exact Memory.wfFrom_cons.2 ⟨ha, ‹_›, by subst a; exact hk.2.2⟩
      · exact Memory.wfFrom_cons.2 ⟨hk.1, hk.2.1, ih hk.2.2 (by omega)⟩

/-- Writing one byte keeps the canonical form. -/
theorem Memory.writeByte_wf {m : Memory} (h : m.wf = true) (a : Nat) (b : Byte) : (m.writeByte a b).wf = true :=
  Memory.writeByte_wfFrom h (Nat.zero_le a) b

/-- Writing a byte string keeps the canonical form. -/
theorem Memory.write_wf {m : Memory} (h : m.wf = true) (a : Nat) (v : Bytes) : (m.write a v).wf = true := by
  induction v generalizing m a with
  | nil => exact h
  | cons b bs ih => exact ih (Memory.writeByte_wf h a b) (a + 1)

theorem State.store_wf {s : State} (h : s.mem.wf = true) (a : Nat) (v : Bytes) : (s.store a v).mem.wf = true :=
  Memory.write_wf h a v

theorem reset_mem_wf : State.reset.mem.wf = true := rfl

/-! ## What is read back -/

theorem Memory.readByte_writeByte_from {lo : Nat} {m : Memory} (h : Memory.wfFrom lo m = true) (a k : Nat) (b : Byte) :
    (m.writeByte a b).readByte k = if k = a then b else m.readByte k := by
  induction m generalizing lo with
  | nil =>
    by_cases hb : b = Memory.blank <;> by_cases hk : k = a
    · simp [Memory.writeByte, Memory.readByte, hb]
    · simp [Memory.writeByte, Memory.readByte, hb]
    · simp [Memory.writeByte, Memory.readByte, hb, hk]
    · simp [Memory.writeByte, Memory.readByte, hb, hk, Ne.symm hk]
  | cons c m ih =>
    obtain ⟨j, v⟩ := c
    have hj := Memory.wfFrom_cons.1 h
    have low : ∀ i, i < j + 1 → Memory.readByte m i = Memory.blank := fun i hi => Memory.readByte_below hj.2.2 hi
    by_cases hk : k = a
    · subst hk
      by_cases h1 : k < j
      · by_cases hb : b = Memory.blank
        · simp [Memory.writeByte, h1, hb, Memory.readByte, show j ≠ k by omega, low k (by omega)]
        · simp [Memory.writeByte, h1, hb, Memory.readByte]
      · by_cases h2 : k = j
        · subst h2
          by_cases hb : b = Memory.blank
          · simp [Memory.writeByte, hb, low k (by omega)]
          · simp [Memory.writeByte, hb, Memory.readByte]
        · simp [Memory.writeByte, h1, h2, Memory.readByte, show j ≠ k by omega, ih hj.2.2]
    · by_cases h1 : a < j
      · by_cases hb : b = Memory.blank
        · simp [Memory.writeByte, h1, hb, hk]
        · simp [Memory.writeByte, h1, hb, hk, Memory.readByte, show a ≠ k by omega]
      · by_cases h2 : a = j
        · subst h2
          by_cases hb : b = Memory.blank
          · simp [Memory.writeByte, hb, hk, Memory.readByte, show a ≠ k by omega]
          · simp [Memory.writeByte, hb, hk, Memory.readByte, show a ≠ k by omega]
        · by_cases h3 : j = k
          · subst h3
            simp [Memory.writeByte, h1, h2, Memory.readByte, hk]
          · simp [Memory.writeByte, h1, h2, Memory.readByte, h3, hk, ih hj.2.2]

/-- A written byte reads back, and every other byte is as before. -/
theorem Memory.readByte_writeByte {m : Memory} (h : m.wf = true) (a k : Nat) (b : Byte) :
    (m.writeByte a b).readByte k = if k = a then b else m.readByte k :=
  Memory.readByte_writeByte_from h a k b

/-- A write leaves every other byte, in any list at all. -/
theorem Memory.readByte_writeByte_of_ne (m : Memory) {a k : Nat} (b : Byte) (h : k ≠ a) :
    (m.writeByte a b).readByte k = m.readByte k := by
  induction m with
  | nil => by_cases hb : b = Memory.blank <;> simp [Memory.writeByte, Memory.readByte, hb, Ne.symm h]
  | cons c m ih =>
    obtain ⟨j, v⟩ := c
    simp only [Memory.writeByte]
    split
    · split <;> simp [Memory.readByte, Ne.symm h]
    · split
      · subst j
        split <;> simp [Memory.readByte, Ne.symm h]
      · simp [Memory.readByte, ih]

/-- A store leaves every byte outside its range, in any list at all. -/
theorem Memory.readByte_write_outside (m : Memory) {a k : Nat} (v : Bytes) (h : k < a ∨ a + v.length ≤ k) :
    (m.write a v).readByte k = m.readByte k := by
  induction v generalizing m a with
  | nil => rfl
  | cons b v ih =>
    rw [List.length_cons] at h
    rw [Memory.write, ih _ (by omega), Memory.readByte_writeByte_of_ne _ _ (by omega)]

/-- A written byte string reads back byte by byte, and every byte outside it is as before (R61). -/
theorem Memory.write_stored {m : Memory} (h : m.wf = true) (a : Nat) (v : Bytes) : m.Stored a v (m.write a v) := by
  intro k
  induction v generalizing m a with
  | nil => simp [Memory.write, show ¬ (a ≤ k ∧ k < a) by omega]
  | cons b bs ih =>
    rw [Memory.write, ih (Memory.writeByte_wf h a b), Memory.readByte_writeByte h]
    by_cases h1 : k = a
    · subst h1
      simp
    · by_cases h2 : a + 1 ≤ k ∧ k < a + 1 + bs.length
      · have : k - a = (k - (a + 1)) + 1 := by omega
        simp [this, show a + 1 ≤ k by omega, show a ≤ k by omega, show k < a + 1 + bs.length by omega,
          show k < a + (bs.length + 1) by omega]
      · rw [if_neg h2, if_neg h1, if_neg (by simp only [List.length_cons]; omega)]

theorem Memory.length_read (m : Memory) (a n : Nat) : (m.read a n).length = n := by
  induction n generalizing a with
  | zero => rfl
  | succ n ih => simp [Memory.read, ih]

theorem Memory.getD_read (m : Memory) (a n i : Nat) (hi : i < n) :
    (m.read a n).getD i 0 = m.readByte (a + i) := by
  induction n generalizing a i with
  | zero => omega
  | succ n ih =>
    cases i with
    | zero => simp [Memory.read]
    | succ i =>
      have := ih (a + 1) i (by omega)
      simp only [Memory.read, List.getD_cons_succ, this]
      congr 1; omega

/-- Two memories that agree on a range read the same bytes there. -/
theorem Memory.read_congr {m m' : Memory} {a n : Nat} (h : ∀ k, a ≤ k → k < a + n → m.readByte k = m'.readByte k) :
    m.read a n = m'.read a n := by
  induction n generalizing a with
  | zero => rfl
  | succ n ih =>
    simp only [Memory.read, h a (by omega) (by omega)]
    rw [ih fun k h1 h2 => h k (by omega) (by omega)]

theorem State.length_load (s : State) (r : Range) : (s.load r).length = r.len := Memory.length_read _ _ _

/-! ## Equal reads, equal memories -/

theorem Memory.ext_from {lo : Nat} {m m' : Memory} (h : Memory.wfFrom lo m = true) (h' : Memory.wfFrom lo m' = true)
    (heq : ∀ k, m.readByte k = m'.readByte k) : m = m' := by
  induction m generalizing lo m' with
  | nil =>
    cases m' with
    | nil => rfl
    | cons c m' =>
      obtain ⟨k, v⟩ := c
      have hv := (Memory.wfFrom_cons.1 h').2.1
      have := heq k
      simp [Memory.readByte] at this
      exact absurd this.symm hv
  | cons c m ih =>
    obtain ⟨k, v⟩ := c
    have hk := Memory.wfFrom_cons.1 h
    cases m' with
    | nil =>
      have := heq k
      simp [Memory.readByte] at this
      exact absurd this hk.2.1
    | cons c' m' =>
      obtain ⟨k', v'⟩ := c'
      have hk' := Memory.wfFrom_cons.1 h'
      have hkk : k = k' := by
        rcases Nat.lt_trichotomy k k' with hlt | heqk | hgt
        · have := heq k
          rw [Memory.readByte_below (Memory.wfFrom_cons.2 ⟨Nat.le_refl k', hk'.2⟩) hlt] at this
          simp [Memory.readByte] at this
          exact absurd this hk.2.1
        · exact heqk
        · have := heq k'
          rw [Memory.readByte_below (Memory.wfFrom_cons.2 ⟨Nat.le_refl k, hk.2⟩) hgt] at this
          simp [Memory.readByte] at this
          exact absurd this.symm hk'.2.1
      subst hkk
      have hv : v = v' := by simpa [Memory.readByte] using heq k
      subst hv
      rw [ih hk.2.2 hk'.2.2 fun j => ?_]
      by_cases hj : j < k + 1
      · rw [Memory.readByte_below hk.2.2 hj, Memory.readByte_below hk'.2.2 hj]
      · have := heq j
        simpa [Memory.readByte, show k ≠ j by omega] using this

/-- In canonical form equal contents are equal lists. -/
theorem Memory.ext_of_wf {m m' : Memory} (h : m.wf = true) (h' : m'.wf = true)
    (heq : ∀ k, m.readByte k = m'.readByte k) : m = m' := Memory.ext_from h h' heq

/-! ## The end of BUF -/

theorem Memory.within_cons {limit k : Nat} {v : Byte} {m : Memory} :
    Memory.within limit ((k, v) :: m) = true ↔ k < limit ∧ Memory.within limit m = true := by
  simp [Memory.within]

theorem Memory.writeByte_within {limit : Nat} {m : Memory} (h : m.within limit = true) {a : Nat} (ha : a < limit)
    (b : Byte) : (m.writeByte a b).within limit = true := by
  induction m with
  | nil =>
    simp only [Memory.writeByte]
    split <;> simp [Memory.within, ha]
  | cons c m ih =>
    obtain ⟨k, v⟩ := c
    have hk := Memory.within_cons.1 h
    simp only [Memory.writeByte]
    split
    · split
      · exact h
      · exact Memory.within_cons.2 ⟨ha, h⟩
    · split
      · split
        · exact hk.2
        · exact Memory.within_cons.2 ⟨ha, hk.2⟩
      · exact Memory.within_cons.2 ⟨hk.1, ih hk.2⟩

/-- A write inside BUF leaves nothing listed past its end. -/
theorem Memory.write_within {limit : Nat} {m : Memory} (h : m.within limit = true) {a : Nat} {v : Bytes}
    (ha : v = [] ∨ a + v.length ≤ limit) : (m.write a v).within limit = true := by
  induction v generalizing m a with
  | nil => exact h
  | cons b bs ih =>
    have hlen : a + (bs.length + 1) ≤ limit := by simpa using ha
    exact ih (Memory.writeByte_within h (by omega) b) (Or.inr (by omega))

end Sys2Proof.Machine
end

