-- ==== Sys2Proof/Laws/State.lean ====
section
/-! SUPPORT. One lemma for each field and each update of State, true by unfolding the update. -/

namespace Sys2Proof.Machine

open Sys2Proof

@[simp] theorem setReg_x (s : State) (r : Reg) (v : Word) : (s.setReg r v).x = s.x.set r.toNat v r.isLt := rfl
@[simp] theorem setReg_cp (s : State) (r : Reg) (v : Word) : (s.setReg r v).cp = s.cp := rfl
@[simp] theorem setReg_queue (s : State) (r : Reg) (v : Word) : (s.setReg r v).queue = s.queue := rfl
@[simp] theorem setReg_err (s : State) (r : Reg) (v : Word) : (s.setReg r v).err = s.err := rfl
@[simp] theorem setReg_errcp (s : State) (r : Reg) (v : Word) : (s.setReg r v).errcp = s.errcp := rfl
@[simp] theorem setReg_errcmd (s : State) (r : Reg) (v : Word) : (s.setReg r v).errcmd = s.errcmd := rfl
@[simp] theorem setReg_scCfg (s : State) (r : Reg) (v : Word) : (s.setReg r v).scCfg = s.scCfg := rfl
@[simp] theorem setReg_evAlg (s : State) (r : Reg) (v : Word) : (s.setReg r v).evAlg = s.evAlg := rfl
@[simp] theorem setReg_evIter (s : State) (r : Reg) (v : Word) : (s.setReg r v).evIter = s.evIter := rfl
@[simp] theorem setReg_evSaltsz (s : State) (r : Reg) (v : Word) : (s.setReg r v).evSaltsz = s.evSaltsz := rfl
@[simp] theorem setReg_evHsaltsz (s : State) (r : Reg) (v : Word) : (s.setReg r v).evHsaltsz = s.evHsaltsz := rfl
@[simp] theorem setReg_sc (s : State) (r : Reg) (v : Word) : (s.setReg r v).sc = s.sc := rfl
@[simp] theorem setReg_b2 (s : State) (r : Reg) (v : Word) : (s.setReg r v).b2 = s.b2 := rfl
@[simp] theorem setReg_kd (s : State) (r : Reg) (v : Word) : (s.setReg r v).kd = s.kd := rfl
@[simp] theorem setReg_mem (s : State) (r : Reg) (v : Word) : (s.setReg r v).mem = s.mem := rfl
@[simp] theorem setReg_cfg (s : State) (r : Reg) (v : Word) : (s.setReg r v).cfg = s.cfg := rfl
@[simp] theorem setReg_rngHead (s : State) (r : Reg) (v : Word) : (s.setReg r v).rngHead = s.rngHead := rfl
@[simp] theorem setReg_rngPos (s : State) (r : Reg) (v : Word) : (s.setReg r v).rngPos = s.rngPos := rfl
@[simp] theorem setReg_moves (s : State) (r : Reg) (v : Word) : (s.setReg r v).moves = s.moves := rfl

@[simp] theorem store_x (s : State) (a : Nat) (v : Bytes) : (s.store a v).x = s.x := rfl
@[simp] theorem store_cp (s : State) (a : Nat) (v : Bytes) : (s.store a v).cp = s.cp := rfl
@[simp] theorem store_queue (s : State) (a : Nat) (v : Bytes) : (s.store a v).queue = s.queue := rfl
@[simp] theorem store_err (s : State) (a : Nat) (v : Bytes) : (s.store a v).err = s.err := rfl
@[simp] theorem store_errcp (s : State) (a : Nat) (v : Bytes) : (s.store a v).errcp = s.errcp := rfl
@[simp] theorem store_errcmd (s : State) (a : Nat) (v : Bytes) : (s.store a v).errcmd = s.errcmd := rfl
@[simp] theorem store_scCfg (s : State) (a : Nat) (v : Bytes) : (s.store a v).scCfg = s.scCfg := rfl
@[simp] theorem store_evAlg (s : State) (a : Nat) (v : Bytes) : (s.store a v).evAlg = s.evAlg := rfl
@[simp] theorem store_evIter (s : State) (a : Nat) (v : Bytes) : (s.store a v).evIter = s.evIter := rfl
@[simp] theorem store_evSaltsz (s : State) (a : Nat) (v : Bytes) : (s.store a v).evSaltsz = s.evSaltsz := rfl
@[simp] theorem store_evHsaltsz (s : State) (a : Nat) (v : Bytes) : (s.store a v).evHsaltsz = s.evHsaltsz := rfl
@[simp] theorem store_sc (s : State) (a : Nat) (v : Bytes) : (s.store a v).sc = s.sc := rfl
@[simp] theorem store_b2 (s : State) (a : Nat) (v : Bytes) : (s.store a v).b2 = s.b2 := rfl
@[simp] theorem store_kd (s : State) (a : Nat) (v : Bytes) : (s.store a v).kd = s.kd := rfl
@[simp] theorem store_mem (s : State) (a : Nat) (v : Bytes) : (s.store a v).mem = s.mem.write a v := rfl
@[simp] theorem store_cfg (s : State) (a : Nat) (v : Bytes) : (s.store a v).cfg = s.cfg := rfl
@[simp] theorem store_rngHead (s : State) (a : Nat) (v : Bytes) : (s.store a v).rngHead = s.rngHead := rfl
@[simp] theorem store_rngPos (s : State) (a : Nat) (v : Bytes) : (s.store a v).rngPos = s.rngPos := rfl
@[simp] theorem store_moves (s : State) (a : Nat) (v : Bytes) : (s.store a v).moves = s.moves := rfl

@[simp] theorem trapEntry_x (t : Trap) (w : Word) (s : State) : (trapEntry t w s).x = s.x := rfl
@[simp] theorem trapEntry_cp (t : Trap) (w : Word) (s : State) : (trapEntry t w s).cp = s.cp := rfl
@[simp] theorem trapEntry_queue (t : Trap) (w : Word) (s : State) : (trapEntry t w s).queue = [] := rfl
@[simp] theorem trapEntry_err (t : Trap) (w : Word) (s : State) : (trapEntry t w s).err = some t := rfl
@[simp] theorem trapEntry_errcp (t : Trap) (w : Word) (s : State) : (trapEntry t w s).errcp = s.cp := rfl
@[simp] theorem trapEntry_errcmd (t : Trap) (w : Word) (s : State) : (trapEntry t w s).errcmd = w := rfl
@[simp] theorem trapEntry_scCfg (t : Trap) (w : Word) (s : State) : (trapEntry t w s).scCfg = s.scCfg := rfl
@[simp] theorem trapEntry_evAlg (t : Trap) (w : Word) (s : State) : (trapEntry t w s).evAlg = s.evAlg := rfl
@[simp] theorem trapEntry_evIter (t : Trap) (w : Word) (s : State) : (trapEntry t w s).evIter = s.evIter := rfl
@[simp] theorem trapEntry_evSaltsz (t : Trap) (w : Word) (s : State) : (trapEntry t w s).evSaltsz = s.evSaltsz := rfl
@[simp] theorem trapEntry_evHsaltsz (t : Trap) (w : Word) (s : State) : (trapEntry t w s).evHsaltsz = s.evHsaltsz := rfl
@[simp] theorem trapEntry_sc (t : Trap) (w : Word) (s : State) : (trapEntry t w s).sc = s.sc := rfl
@[simp] theorem trapEntry_b2 (t : Trap) (w : Word) (s : State) : (trapEntry t w s).b2 = s.b2 := rfl
@[simp] theorem trapEntry_kd (t : Trap) (w : Word) (s : State) : (trapEntry t w s).kd = s.kd := rfl
@[simp] theorem trapEntry_mem (t : Trap) (w : Word) (s : State) : (trapEntry t w s).mem = s.mem := rfl
@[simp] theorem trapEntry_cfg (t : Trap) (w : Word) (s : State) : (trapEntry t w s).cfg = s.cfg := rfl
@[simp] theorem trapEntry_rngHead (t : Trap) (w : Word) (s : State) : (trapEntry t w s).rngHead = s.rngHead := rfl
@[simp] theorem trapEntry_rngPos (t : Trap) (w : Word) (s : State) : (trapEntry t w s).rngPos = s.rngPos := rfl
@[simp] theorem trapEntry_moves (t : Trap) (w : Word) (s : State) : (trapEntry t w s).moves = s.moves := rfl

@[simp] theorem clearError_x (s : State) : (clearError s).x = s.x := rfl
@[simp] theorem clearError_cp (s : State) : (clearError s).cp = s.cp := rfl
@[simp] theorem clearError_queue (s : State) : (clearError s).queue = s.queue := rfl
@[simp] theorem clearError_err (s : State) : (clearError s).err = none := rfl
@[simp] theorem clearError_errcp (s : State) : (clearError s).errcp = s.errcp := rfl
@[simp] theorem clearError_errcmd (s : State) : (clearError s).errcmd = s.errcmd := rfl
@[simp] theorem clearError_scCfg (s : State) : (clearError s).scCfg = s.scCfg := rfl
@[simp] theorem clearError_evAlg (s : State) : (clearError s).evAlg = s.evAlg := rfl
@[simp] theorem clearError_evIter (s : State) : (clearError s).evIter = s.evIter := rfl
@[simp] theorem clearError_evSaltsz (s : State) : (clearError s).evSaltsz = s.evSaltsz := rfl
@[simp] theorem clearError_evHsaltsz (s : State) : (clearError s).evHsaltsz = s.evHsaltsz := rfl
@[simp] theorem clearError_sc (s : State) : (clearError s).sc = s.sc := rfl
@[simp] theorem clearError_b2 (s : State) : (clearError s).b2 = s.b2 := rfl
@[simp] theorem clearError_kd (s : State) : (clearError s).kd = s.kd := rfl
@[simp] theorem clearError_mem (s : State) : (clearError s).mem = s.mem := rfl
@[simp] theorem clearError_cfg (s : State) : (clearError s).cfg = s.cfg := rfl
@[simp] theorem clearError_rngHead (s : State) : (clearError s).rngHead = s.rngHead := rfl
@[simp] theorem clearError_rngPos (s : State) : (clearError s).rngPos = s.rngPos := rfl
@[simp] theorem clearError_moves (s : State) : (clearError s).moves = s.moves := rfl

@[simp] theorem wipeSc_x (s : State) : (wipeSc s).x = s.x := rfl
@[simp] theorem wipeSc_cp (s : State) : (wipeSc s).cp = s.cp := rfl
@[simp] theorem wipeSc_queue (s : State) : (wipeSc s).queue = s.queue := rfl
@[simp] theorem wipeSc_err (s : State) : (wipeSc s).err = s.err := rfl
@[simp] theorem wipeSc_errcp (s : State) : (wipeSc s).errcp = s.errcp := rfl
@[simp] theorem wipeSc_errcmd (s : State) : (wipeSc s).errcmd = s.errcmd := rfl
@[simp] theorem wipeSc_scCfg (s : State) : (wipeSc s).scCfg = s.scCfg := rfl
@[simp] theorem wipeSc_evAlg (s : State) : (wipeSc s).evAlg = s.evAlg := rfl
@[simp] theorem wipeSc_evIter (s : State) : (wipeSc s).evIter = s.evIter := rfl
@[simp] theorem wipeSc_evSaltsz (s : State) : (wipeSc s).evSaltsz = s.evSaltsz := rfl
@[simp] theorem wipeSc_evHsaltsz (s : State) : (wipeSc s).evHsaltsz = s.evHsaltsz := rfl
@[simp] theorem wipeSc_sc (s : State) : (wipeSc s).sc = ScUnit.zero := rfl
@[simp] theorem wipeSc_b2 (s : State) : (wipeSc s).b2 = s.b2 := rfl
@[simp] theorem wipeSc_kd (s : State) : (wipeSc s).kd = s.kd := rfl
@[simp] theorem wipeSc_mem (s : State) : (wipeSc s).mem = s.mem := rfl
@[simp] theorem wipeSc_cfg (s : State) : (wipeSc s).cfg = s.cfg := rfl
@[simp] theorem wipeSc_rngHead (s : State) : (wipeSc s).rngHead = s.rngHead := rfl
@[simp] theorem wipeSc_rngPos (s : State) : (wipeSc s).rngPos = s.rngPos := rfl
@[simp] theorem wipeSc_moves (s : State) : (wipeSc s).moves = s.moves := rfl

@[simp] theorem wipeB2_x (s : State) : (wipeB2 s).x = s.x := rfl
@[simp] theorem wipeB2_cp (s : State) : (wipeB2 s).cp = s.cp := rfl
@[simp] theorem wipeB2_queue (s : State) : (wipeB2 s).queue = s.queue := rfl
@[simp] theorem wipeB2_err (s : State) : (wipeB2 s).err = s.err := rfl
@[simp] theorem wipeB2_errcp (s : State) : (wipeB2 s).errcp = s.errcp := rfl
@[simp] theorem wipeB2_errcmd (s : State) : (wipeB2 s).errcmd = s.errcmd := rfl
@[simp] theorem wipeB2_scCfg (s : State) : (wipeB2 s).scCfg = s.scCfg := rfl
@[simp] theorem wipeB2_evAlg (s : State) : (wipeB2 s).evAlg = s.evAlg := rfl
@[simp] theorem wipeB2_evIter (s : State) : (wipeB2 s).evIter = s.evIter := rfl
@[simp] theorem wipeB2_evSaltsz (s : State) : (wipeB2 s).evSaltsz = s.evSaltsz := rfl
@[simp] theorem wipeB2_evHsaltsz (s : State) : (wipeB2 s).evHsaltsz = s.evHsaltsz := rfl
@[simp] theorem wipeB2_sc (s : State) : (wipeB2 s).sc = s.sc := rfl
@[simp] theorem wipeB2_b2 (s : State) : (wipeB2 s).b2 = B2Unit.zero := rfl
@[simp] theorem wipeB2_kd (s : State) : (wipeB2 s).kd = s.kd := rfl
@[simp] theorem wipeB2_mem (s : State) : (wipeB2 s).mem = s.mem := rfl
@[simp] theorem wipeB2_cfg (s : State) : (wipeB2 s).cfg = s.cfg := rfl
@[simp] theorem wipeB2_rngHead (s : State) : (wipeB2 s).rngHead = s.rngHead := rfl
@[simp] theorem wipeB2_rngPos (s : State) : (wipeB2 s).rngPos = s.rngPos := rfl
@[simp] theorem wipeB2_moves (s : State) : (wipeB2 s).moves = s.moves := rfl

@[simp] theorem wipeKd_x (s : State) : (wipeKd s).x = s.x := rfl
@[simp] theorem wipeKd_cp (s : State) : (wipeKd s).cp = s.cp := rfl
@[simp] theorem wipeKd_queue (s : State) : (wipeKd s).queue = s.queue := rfl
@[simp] theorem wipeKd_err (s : State) : (wipeKd s).err = s.err := rfl
@[simp] theorem wipeKd_errcp (s : State) : (wipeKd s).errcp = s.errcp := rfl
@[simp] theorem wipeKd_errcmd (s : State) : (wipeKd s).errcmd = s.errcmd := rfl
@[simp] theorem wipeKd_scCfg (s : State) : (wipeKd s).scCfg = s.scCfg := rfl
@[simp] theorem wipeKd_evAlg (s : State) : (wipeKd s).evAlg = s.evAlg := rfl
@[simp] theorem wipeKd_evIter (s : State) : (wipeKd s).evIter = s.evIter := rfl
@[simp] theorem wipeKd_evSaltsz (s : State) : (wipeKd s).evSaltsz = s.evSaltsz := rfl
@[simp] theorem wipeKd_evHsaltsz (s : State) : (wipeKd s).evHsaltsz = s.evHsaltsz := rfl
@[simp] theorem wipeKd_sc (s : State) : (wipeKd s).sc = s.sc := rfl
@[simp] theorem wipeKd_b2 (s : State) : (wipeKd s).b2 = s.b2 := rfl
@[simp] theorem wipeKd_kd (s : State) : (wipeKd s).kd = ⟨none, true⟩ := rfl
@[simp] theorem wipeKd_mem (s : State) : (wipeKd s).mem = s.mem := rfl
@[simp] theorem wipeKd_cfg (s : State) : (wipeKd s).cfg = s.cfg := rfl
@[simp] theorem wipeKd_rngHead (s : State) : (wipeKd s).rngHead = s.rngHead := rfl
@[simp] theorem wipeKd_rngPos (s : State) : (wipeKd s).rngPos = s.rngPos := rfl
@[simp] theorem wipeKd_moves (s : State) : (wipeKd s).moves = s.moves := rfl

@[simp] theorem advanceSc_x (s : State) (n : Nat) : (advanceSc s n).x = s.x := rfl
@[simp] theorem advanceSc_cp (s : State) (n : Nat) : (advanceSc s n).cp = s.cp := rfl
@[simp] theorem advanceSc_queue (s : State) (n : Nat) : (advanceSc s n).queue = s.queue := rfl
@[simp] theorem advanceSc_err (s : State) (n : Nat) : (advanceSc s n).err = s.err := rfl
@[simp] theorem advanceSc_errcp (s : State) (n : Nat) : (advanceSc s n).errcp = s.errcp := rfl
@[simp] theorem advanceSc_errcmd (s : State) (n : Nat) : (advanceSc s n).errcmd = s.errcmd := rfl
@[simp] theorem advanceSc_scCfg (s : State) (n : Nat) : (advanceSc s n).scCfg = s.scCfg := rfl
@[simp] theorem advanceSc_evAlg (s : State) (n : Nat) : (advanceSc s n).evAlg = s.evAlg := rfl
@[simp] theorem advanceSc_evIter (s : State) (n : Nat) : (advanceSc s n).evIter = s.evIter := rfl
@[simp] theorem advanceSc_evSaltsz (s : State) (n : Nat) : (advanceSc s n).evSaltsz = s.evSaltsz := rfl
@[simp] theorem advanceSc_evHsaltsz (s : State) (n : Nat) : (advanceSc s n).evHsaltsz = s.evHsaltsz := rfl
@[simp] theorem advanceSc_sc (s : State) (n : Nat) : (advanceSc s n).sc = { s.sc with cs := advance s.scCfg.variant (blocksFor n) s.sc.cs } := rfl
@[simp] theorem advanceSc_b2 (s : State) (n : Nat) : (advanceSc s n).b2 = s.b2 := rfl
@[simp] theorem advanceSc_kd (s : State) (n : Nat) : (advanceSc s n).kd = s.kd := rfl
@[simp] theorem advanceSc_mem (s : State) (n : Nat) : (advanceSc s n).mem = s.mem := rfl
@[simp] theorem advanceSc_cfg (s : State) (n : Nat) : (advanceSc s n).cfg = s.cfg := rfl
@[simp] theorem advanceSc_rngHead (s : State) (n : Nat) : (advanceSc s n).rngHead = s.rngHead := rfl
@[simp] theorem advanceSc_rngPos (s : State) (n : Nat) : (advanceSc s n).rngPos = s.rngPos := rfl
@[simp] theorem advanceSc_moves (s : State) (n : Nat) : (advanceSc s n).moves = s.moves := rfl

@[simp] theorem drawRandom_x (s : State) (n : Nat) : ((drawRandom s n).2).x = s.x := rfl
@[simp] theorem drawRandom_cp (s : State) (n : Nat) : ((drawRandom s n).2).cp = s.cp := rfl
@[simp] theorem drawRandom_queue (s : State) (n : Nat) : ((drawRandom s n).2).queue = s.queue := rfl
@[simp] theorem drawRandom_err (s : State) (n : Nat) : ((drawRandom s n).2).err = s.err := rfl
@[simp] theorem drawRandom_errcp (s : State) (n : Nat) : ((drawRandom s n).2).errcp = s.errcp := rfl
@[simp] theorem drawRandom_errcmd (s : State) (n : Nat) : ((drawRandom s n).2).errcmd = s.errcmd := rfl
@[simp] theorem drawRandom_scCfg (s : State) (n : Nat) : ((drawRandom s n).2).scCfg = s.scCfg := rfl
@[simp] theorem drawRandom_evAlg (s : State) (n : Nat) : ((drawRandom s n).2).evAlg = s.evAlg := rfl
@[simp] theorem drawRandom_evIter (s : State) (n : Nat) : ((drawRandom s n).2).evIter = s.evIter := rfl
@[simp] theorem drawRandom_evSaltsz (s : State) (n : Nat) : ((drawRandom s n).2).evSaltsz = s.evSaltsz := rfl
@[simp] theorem drawRandom_evHsaltsz (s : State) (n : Nat) : ((drawRandom s n).2).evHsaltsz = s.evHsaltsz := rfl
@[simp] theorem drawRandom_sc (s : State) (n : Nat) : ((drawRandom s n).2).sc = s.sc := rfl
@[simp] theorem drawRandom_b2 (s : State) (n : Nat) : ((drawRandom s n).2).b2 = s.b2 := rfl
@[simp] theorem drawRandom_kd (s : State) (n : Nat) : ((drawRandom s n).2).kd = s.kd := rfl
@[simp] theorem drawRandom_mem (s : State) (n : Nat) : ((drawRandom s n).2).mem = s.mem := rfl
@[simp] theorem drawRandom_cfg (s : State) (n : Nat) : ((drawRandom s n).2).cfg = s.cfg := rfl
@[simp] theorem drawRandom_rngHead (s : State) (n : Nat) : ((drawRandom s n).2).rngHead = s.rngHead := rfl
@[simp] theorem drawRandom_rngPos (s : State) (n : Nat) : ((drawRandom s n).2).rngPos = s.rngPos + n := rfl
@[simp] theorem drawRandom_moves (s : State) (n : Nat) : ((drawRandom s n).2).moves = s.moves := rfl

@[simp] theorem placeCommand_x (s : State) (w : Word) : (placeCommand s w).x = s.x := rfl
@[simp] theorem placeCommand_cp (s : State) (w : Word) : (placeCommand s w).cp = s.cp := rfl
@[simp] theorem placeCommand_queue (s : State) (w : Word) : (placeCommand s w).queue = [w] := rfl
@[simp] theorem placeCommand_err (s : State) (w : Word) : (placeCommand s w).err = none := rfl
@[simp] theorem placeCommand_errcp (s : State) (w : Word) : (placeCommand s w).errcp = s.errcp := rfl
@[simp] theorem placeCommand_errcmd (s : State) (w : Word) : (placeCommand s w).errcmd = s.errcmd := rfl
@[simp] theorem placeCommand_scCfg (s : State) (w : Word) : (placeCommand s w).scCfg = s.scCfg := rfl
@[simp] theorem placeCommand_evAlg (s : State) (w : Word) : (placeCommand s w).evAlg = s.evAlg := rfl
@[simp] theorem placeCommand_evIter (s : State) (w : Word) : (placeCommand s w).evIter = s.evIter := rfl
@[simp] theorem placeCommand_evSaltsz (s : State) (w : Word) : (placeCommand s w).evSaltsz = s.evSaltsz := rfl
@[simp] theorem placeCommand_evHsaltsz (s : State) (w : Word) : (placeCommand s w).evHsaltsz = s.evHsaltsz := rfl
@[simp] theorem placeCommand_sc (s : State) (w : Word) : (placeCommand s w).sc = s.sc := rfl
@[simp] theorem placeCommand_b2 (s : State) (w : Word) : (placeCommand s w).b2 = s.b2 := rfl
@[simp] theorem placeCommand_kd (s : State) (w : Word) : (placeCommand s w).kd = s.kd := rfl
@[simp] theorem placeCommand_mem (s : State) (w : Word) : (placeCommand s w).mem = s.mem := rfl
@[simp] theorem placeCommand_cfg (s : State) (w : Word) : (placeCommand s w).cfg = s.cfg := rfl
@[simp] theorem placeCommand_rngHead (s : State) (w : Word) : (placeCommand s w).rngHead = s.rngHead := rfl
@[simp] theorem placeCommand_rngPos (s : State) (w : Word) : (placeCommand s w).rngPos = s.rngPos := rfl
@[simp] theorem placeCommand_moves (s : State) (w : Word) : (placeCommand s w).moves = [] := rfl

@[simp] theorem hardReset_x (s : State) : (hardReset s).x = State.reset.x := rfl
@[simp] theorem hardReset_cp (s : State) : (hardReset s).cp = State.reset.cp := rfl
@[simp] theorem hardReset_queue (s : State) : (hardReset s).queue = State.reset.queue := rfl
@[simp] theorem hardReset_err (s : State) : (hardReset s).err = State.reset.err := rfl
@[simp] theorem hardReset_errcp (s : State) : (hardReset s).errcp = State.reset.errcp := rfl
@[simp] theorem hardReset_errcmd (s : State) : (hardReset s).errcmd = State.reset.errcmd := rfl
@[simp] theorem hardReset_scCfg (s : State) : (hardReset s).scCfg = State.reset.scCfg := rfl
@[simp] theorem hardReset_evAlg (s : State) : (hardReset s).evAlg = State.reset.evAlg := rfl
@[simp] theorem hardReset_evIter (s : State) : (hardReset s).evIter = State.reset.evIter := rfl
@[simp] theorem hardReset_evSaltsz (s : State) : (hardReset s).evSaltsz = State.reset.evSaltsz := rfl
@[simp] theorem hardReset_evHsaltsz (s : State) : (hardReset s).evHsaltsz = State.reset.evHsaltsz := rfl
@[simp] theorem hardReset_sc (s : State) : (hardReset s).sc = State.reset.sc := rfl
@[simp] theorem hardReset_b2 (s : State) : (hardReset s).b2 = State.reset.b2 := rfl
@[simp] theorem hardReset_kd (s : State) : (hardReset s).kd = State.reset.kd := rfl
@[simp] theorem hardReset_mem (s : State) : (hardReset s).mem = State.reset.mem := rfl
@[simp] theorem hardReset_cfg (s : State) : (hardReset s).cfg = s.cfg := rfl
@[simp] theorem hardReset_rngHead (s : State) : (hardReset s).rngHead = s.rngHead := rfl
@[simp] theorem hardReset_rngPos (s : State) : (hardReset s).rngPos = s.rngPos := rfl
@[simp] theorem hardReset_moves (s : State) : (hardReset s).moves = s.moves := rfl

@[simp] theorem softReset_x (s : State) : (softReset s).x = State.reset.x := rfl
@[simp] theorem softReset_cp (s : State) : (softReset s).cp = State.reset.cp := rfl
@[simp] theorem softReset_queue (s : State) : (softReset s).queue = State.reset.queue := rfl
@[simp] theorem softReset_err (s : State) : (softReset s).err = State.reset.err := rfl
@[simp] theorem softReset_errcp (s : State) : (softReset s).errcp = State.reset.errcp := rfl
@[simp] theorem softReset_errcmd (s : State) : (softReset s).errcmd = State.reset.errcmd := rfl
@[simp] theorem softReset_scCfg (s : State) : (softReset s).scCfg = State.reset.scCfg := rfl
@[simp] theorem softReset_evAlg (s : State) : (softReset s).evAlg = State.reset.evAlg := rfl
@[simp] theorem softReset_evIter (s : State) : (softReset s).evIter = State.reset.evIter := rfl
@[simp] theorem softReset_evSaltsz (s : State) : (softReset s).evSaltsz = State.reset.evSaltsz := rfl
@[simp] theorem softReset_evHsaltsz (s : State) : (softReset s).evHsaltsz = State.reset.evHsaltsz := rfl
@[simp] theorem softReset_sc (s : State) : (softReset s).sc = State.reset.sc := rfl
@[simp] theorem softReset_b2 (s : State) : (softReset s).b2 = State.reset.b2 := rfl
@[simp] theorem softReset_kd (s : State) : (softReset s).kd = State.reset.kd := rfl
@[simp] theorem softReset_mem (s : State) : (softReset s).mem = s.mem := rfl
@[simp] theorem softReset_cfg (s : State) : (softReset s).cfg = s.cfg := rfl
@[simp] theorem softReset_rngHead (s : State) : (softReset s).rngHead = s.rngHead := rfl
@[simp] theorem softReset_rngPos (s : State) : (softReset s).rngPos = s.rngPos := rfl
@[simp] theorem softReset_moves (s : State) : (softReset s).moves = s.moves := rfl

end Sys2Proof.Machine
end

