-- ==== Sys2Proof/Laws/Ops.lean ====
section
/-! SUPPORT. For each shared operation, one lemma that says all it can do: registers, checks, fault entry,
ranges, the sequencer and the host's moves. -/

namespace Sys2Proof.Machine

open Sys2Proof

/-! ## Operand registers -/

/-- A written register reads back, and every other register is as before (R20). -/
theorem State.reg_setReg (s : State) (r q : Reg) (v : Word) :
    (s.setReg r v).reg q = if q = r then v else s.reg q := by
  by_cases h : q = r
  · subst h
    simp only [State.reg, State.setReg, if_true]
    exact Vector.getElem_set_self (i := q.toNat) q.isLt
  · have hne : r.toNat ≠ q.toNat := fun e => h (BitVec.eq_of_toNat_eq e.symm)
    simp only [State.reg, State.setReg, h, if_false]
    exact Vector.getElem_set_ne (i := r.toNat) (j := q.toNat) r.isLt q.isLt hne

@[simp] theorem State.reg_store (s : State) (a : Nat) (v : Bytes) (r : Reg) : (s.store a v).reg r = s.reg r := rfl

@[simp] theorem State.reg_trapEntry (t : Trap) (w : Word) (s : State) (r : Reg) : (trapEntry t w s).reg r = s.reg r :=
  rfl

theorem Reg.next_ne (r : Reg) : Reg.next r ≠ r := by revert r; decide

/-! ## Checks and the end of a command -/

@[simp] theorem firstFault_nil : firstFault [] = none := rfl

@[simp] theorem firstFault_cons (c : Check) (cs : List Check) :
    firstFault (c :: cs) = if c.ok then firstFault cs else some c.trap := rfl

/-- A command passes its checks exactly when every one of them holds. -/
theorem firstFault_eq_none {cs : List Check} : firstFault cs = none ↔ ∀ c ∈ cs, c.ok = true := by
  induction cs with
  | nil => simp
  | cons c cs ih => cases h : c.ok <;> simp [firstFault, h, ih]

/-- All that a checked command can do (R13): it goes on, every check holding, or the first check that fails
decides the fault. -/
theorem checked_cases (w : Word) (s : State) (cs : List Check) (k : Unit → Result) :
    (firstFault cs = none ∧ checked w s cs k = k ()) ∨
      ∃ t, firstFault cs = some t ∧ checked w s cs k = raise t w s := by
  unfold checked
  cases h : firstFault cs with
  | none => exact .inl ⟨rfl, rfl⟩
  | some t => exact .inr ⟨t, rfl, rfl⟩

@[simp] theorem checked_nil (w : Word) (s : State) (k : Unit → Result) : checked w s [] k = k () := rfl

@[simp] theorem checked_cons (w : Word) (s : State) (c : Check) (cs : List Check) (k : Unit → Result) :
    checked w s (c :: cs) k = if c.ok then checked w s cs k else raise c.trap w s := by
  cases h : c.ok <;> simp [checked, firstFault, h]

/-- A retiring command changes `cp` alone (R24). -/
theorem retire_eq (s : State) : retire s = .next { s with cp := s.cp + 1 } := rfl

/-- All that fault entry does (R284). -/
theorem raise_eq (t : Trap) (w : Word) (s : State) :
    raise t w s = .next { s with err := some t, errcp := s.cp, errcmd := w, queue := [] } := rfl

@[simp] theorem halted_trapEntry (t : Trap) (w : Word) (s : State) : (trapEntry t w s).halted = true := rfl

@[simp] theorem halted_clearError (s : State) : (clearError s).halted = false := rfl

/-! ## Ranges -/

theorem Range.admitted_iff {size : Nat} {r : Range} :
    r.admitted size = true ↔ r.len = 0 ∨ r.addr + r.len ≤ size := by
  simp [Range.admitted]

theorem Range.overlaps_iff {a b : Range} :
    a.overlaps b = true ↔ 0 < a.len ∧ 0 < b.len ∧ a.addr < b.addr + b.len ∧ b.addr < a.addr + a.len := by
  simp [Range.overlaps, and_assoc]

theorem Range.overlaps_comm (a b : Range) : a.overlaps b = b.overlaps a := by
  rw [Bool.eq_iff_iff, Range.overlaps_iff, Range.overlaps_iff]
  omega

/-- Two ranges overlap exactly when some address lies in both (R63). -/
theorem Range.overlaps_iff_shared {a b : Range} :
    a.overlaps b = true ↔ ∃ k, a.contains k = true ∧ b.contains k = true := by
  simp only [Range.overlaps_iff, Range.contains, Bool.and_eq_true, decide_eq_true_eq]
  constructor
  · intro h
    exact ⟨max a.addr b.addr, by omega, by omega⟩
  · rintro ⟨k, h1, h2⟩
    omega

/-- A store outside a range leaves the bytes read there. -/
theorem State.load_store {s : State} (h : s.mem.wf = true) {r : Range} {a : Nat} {v : Bytes}
    (hd : Range.overlaps ⟨a, v.length⟩ r = false) : (s.store a v).load r = s.load r := by
  refine Memory.read_congr fun k h1 h2 => ?_
  rw [store_mem, Memory.write_stored h a v k, if_neg]
  intro hk
  have : Range.overlaps ⟨a, v.length⟩ r = true :=
    Range.overlaps_iff_shared.2 ⟨k, by simp [Range.contains, hk.1, hk.2], by simp [Range.contains, h1, h2]⟩
  rw [hd] at this
  exact Bool.noConfusion this

/-- What a store wrote is what the same range reads. -/
theorem State.load_store_same {s : State} (h : s.mem.wf = true) (a : Nat) (v : Bytes) :
    (s.store a v).load ⟨a, v.length⟩ = v := by
  refine List.ext_getElem (by simp [State.length_load]) fun i h1 h2 => ?_
  have e := Memory.getD_read (s.mem.write a v) a v.length i h2
  rw [Memory.write_stored h a v (a + i)] at e
  simp only [show a ≤ a + i ∧ a + i < a + v.length from ⟨by omega, by omega⟩, and_self, if_true,
    Nat.add_sub_cancel_left] at e
  rw [List.getD_eq_getElem _ _ (by simpa [Memory.length_read] using h2), List.getD_eq_getElem _ _ h2] at e
  exact e

/-! ## Tables -/

@[simp] theorem length_tableRow (width n row : Nat) : (tableRow width n row).length = n := by
  induction n with
  | zero => rfl
  | succ n ih => simp [tableRow, ih]

/-- Word `i` of a row of `n` words. -/
theorem getElem_tableRow (width n row i : Nat) (h : i < (tableRow width n row).length) :
    (tableRow width n row)[i] = BitVec.ofNat width (row >>> (width * (n - 1 - i))) := by
  induction n generalizing i with
  | zero => exact absurd h (Nat.not_lt_zero i)
  | succ n ih =>
    cases i with
    | zero => simp [tableRow]
    | succ i =>
      simp only [tableRow, List.getElem_cons_succ, ih]
      rw [show n + 1 - 1 - (i + 1) = n - 1 - i by omega]

/-! ## The RNG -/

/-- The only effect of `Rand` is on the read position (R300). -/
theorem drawRandom_eq (s : State) (n : Nat) :
    drawRandom s n = (rngBytes s s.rngPos n, { s with rngPos := s.rngPos + n }) := rfl

/-- All that the three draws of `EV.ENC` do: consecutive pieces of the RNG's sequence, and the read position
moved past them (R256, R300). -/
theorem drawSalts_eq (s : State) (ss hs : Nat) :
    drawSalts s ss hs =
      (rngBytes s s.rngPos ss, rngBytes s (s.rngPos + ss) hs, rngBytes s (s.rngPos + ss + hs) 16,
        { s with rngPos := s.rngPos + ss + hs + 16 }) := rfl

@[simp] theorem length_rngBytes (s : State) (pos n : Nat) : (rngBytes s pos n).length = n := by
  simp [rngBytes]

/-! ## The sequencer and the host -/

/-- All that the sequencer can do: nothing, or the oldest word executed (R25, R285, R308). -/
theorem sequencerStep_cases (s : State) :
    ((s.halted = true ∨ s.queue = []) ∧ sequencerStep s = .next s) ∨
      ∃ w q, s.halted = false ∧ s.queue = w :: q ∧ sequencerStep s = runWord w { s with queue := q } := by
  unfold sequencerStep
  cases h : s.halted with
  | true => exact .inl ⟨.inl rfl, rfl⟩
  | false =>
    cases hq : s.queue with
    | nil => exact .inl ⟨.inr rfl, rfl⟩
    | cons w q => exact .inr ⟨w, q, rfl, rfl, rfl⟩

/-- All that a command word can do: its command, or `IllegalCommand` (R88). -/
theorem runWord_cases (w : Word) (s : State) :
    (∃ i, decode w = .ok i ∧ runWord w s = exec i s) ∨
      ∃ e, decode w = .error e ∧ runWord w s = raise .illegalCommand w s := by
  unfold runWord
  cases h : decode w with
  | ok i => exact .inl ⟨i, rfl, rfl⟩
  | error e => exact .inr ⟨e, rfl, rfl⟩

/-- All that one step can do: the sequencer's step, or the first of the host's moves (R303). -/
theorem step_cases (s : State) :
    (s.moves = [] ∧ step s = sequencerStep s) ∨
      ∃ m ms, s.moves = m :: ms ∧ step s = hostMove m { s with moves := ms } := by
  unfold step
  cases h : s.moves with
  | nil => exact .inl ⟨rfl, rfl⟩
  | cons m ms => exact .inr ⟨m, ms, rfl, rfl⟩

/-- All that a host move which is not refused can do (R303). -/
theorem hostMove_cases {m : HostMove} {s t : State} (h : hostMove m s = .next t) :
    (∃ w, m = .command w ∧ s.portReady = true ∧ t = { s with queue := s.queue ++ [w] }) ∨
      (∃ a b, m = .bufWrite a b ∧ s.busy = false ∧ a < s.cfg.bufBytes ∧ t = { s with mem := s.mem.writeByte a b }) ∨
      (m = .clrErr ∧ t = clearError s) ∨ (m = .softReset ∧ s.busy = false ∧ t = softReset s) ∨
      (m = .hardReset ∧ t = hardReset s) ∨ (m = .wait ∧ sequencerStep s = .next t) := by
  cases m with
  | command w =>
    simp only [hostMove] at h
    split at h
    · exact .inl ⟨w, rfl, ‹_›, by injection h with h; exact h.symm⟩
    · cases h
  | bufWrite a b =>
    simp only [hostMove] at h
    split at h
    · cases h
    · split at h
      · refine .inr (.inl ⟨a, b, rfl, by simpa using ‹¬ s.busy = true›, ‹_›, ?_⟩)
        injection h with h
        exact h.symm
      · cases h
  | clrErr => exact .inr (.inr (.inl ⟨rfl, by injection h with h; exact h.symm⟩))
  | softReset =>
    simp only [hostMove] at h
    split at h
    · cases h
    · refine .inr (.inr (.inr (.inl ⟨rfl, by simpa using ‹¬ s.busy = true›, ?_⟩)))
      injection h with h
      exact h.symm
  | hardReset => exact .inr (.inr (.inr (.inr (.inl ⟨rfl, by injection h with h; exact h.symm⟩))))
  | wait => exact .inr (.inr (.inr (.inr (.inr ⟨rfl, h⟩))))

end Sys2Proof.Machine
end

