-- ==== Sys2Proof/Laws/PerInstr.lean ====
section
/-! SUPPORT. Facts about every command as syntax, one lemma for each constructor of Instr. -/

namespace Sys2Proof.Laws.EncodeFixedBits

open Sys2Proof

/-- The word of a command has the fixed bits of its row: its opcode, and 0 in every must-be-zero bit
(30_encoding.md R87). -/
def Statement (i : Instr) : Prop := encode i &&& i.op.mask = i.op.fixedBits

theorem nop : Statement .nop := by
  unfold Statement; decide

theorem setlo (rd : Reg) (imm : Half) : Statement (.setlo rd imm) := by
  simp only [Statement, encode, Instr.op, formatI, Op.mask, Op.fixedBits, Op.code]
  refine BitVec.eq_of_getLsbD_eq fun k hk => ?_
  simp only [BitVec.getLsbD_and, BitVec.getLsbD_append]
  interval_cases k <;> simp

theorem sethi (rd : Reg) (imm : Half) : Statement (.sethi rd imm) := by
  simp only [Statement, encode, Instr.op, formatI, Op.mask, Op.fixedBits, Op.code]
  refine BitVec.eq_of_getLsbD_eq fun k hk => ?_
  simp only [BitVec.getLsbD_and, BitVec.getLsbD_append]
  interval_cases k <;> simp

theorem mov (rd : Reg) (ra : Reg) : Statement (.mov rd ra) := by
  simp only [Statement, encode, Instr.op, formatR, Op.mask, Op.fixedBits, Op.code]
  refine BitVec.eq_of_getLsbD_eq fun k hk => ?_
  simp only [BitVec.getLsbD_and, BitVec.getLsbD_append]
  interval_cases k <;> simp

theorem csrr (rd : Reg) (csr : Csr) : Statement (.csrr rd csr) := by
  simp only [Statement, encode, Instr.op, formatC, Op.mask, Op.fixedBits, Op.code]
  refine BitVec.eq_of_getLsbD_eq fun k hk => ?_
  simp only [BitVec.getLsbD_and, BitVec.getLsbD_append]
  interval_cases k <;> simp

theorem csrw (csr : Csr) (ra : Reg) : Statement (.csrw csr ra) := by
  simp only [Statement, encode, Instr.op, formatC, Op.mask, Op.fixedBits, Op.code]
  refine BitVec.eq_of_getLsbD_eq fun k hk => ?_
  simp only [BitVec.getLsbD_and, BitVec.getLsbD_append]
  interval_cases k <;> simp

theorem wipe : Statement .wipe := by
  unfold Statement; decide

theorem scKey (ra : Reg) : Statement (.scKey ra) := by
  simp only [Statement, encode, Instr.op, formatR, Op.mask, Op.fixedBits, Op.code]
  refine BitVec.eq_of_getLsbD_eq fun k hk => ?_
  simp only [BitVec.getLsbD_and, BitVec.getLsbD_append]
  interval_cases k <;> simp

theorem scNonce (ra : Reg) (rb : Reg) : Statement (.scNonce ra rb) := by
  simp only [Statement, encode, Instr.op, formatR, Op.mask, Op.fixedBits, Op.code]
  refine BitVec.eq_of_getLsbD_eq fun k hk => ?_
  simp only [BitVec.getLsbD_and, BitVec.getLsbD_append]
  interval_cases k <;> simp

theorem scBlock (rd : Reg) : Statement (.scBlock rd) := by
  simp only [Statement, encode, Instr.op, formatR, Op.mask, Op.fixedBits, Op.code]
  refine BitVec.eq_of_getLsbD_eq fun k hk => ?_
  simp only [BitVec.getLsbD_and, BitVec.getLsbD_append]
  interval_cases k <;> simp

theorem scXor (rd : Reg) (ra : Reg) : Statement (.scXor rd ra) := by
  simp only [Statement, encode, Instr.op, formatR, Op.mask, Op.fixedBits, Op.code]
  refine BitVec.eq_of_getLsbD_eq fun k hk => ?_
  simp only [BitVec.getLsbD_and, BitVec.getLsbD_append]
  interval_cases k <;> simp

theorem scKs (rd : Reg) (ra : Reg) : Statement (.scKs rd ra) := by
  simp only [Statement, encode, Instr.op, formatR, Op.mask, Op.fixedBits, Op.code]
  refine BitVec.eq_of_getLsbD_eq fun k hk => ?_
  simp only [BitVec.getLsbD_and, BitVec.getLsbD_append]
  interval_cases k <;> simp

theorem scWipe : Statement .scWipe := by
  unfold Statement; decide

theorem b2Init (ra : Reg) (rb : Reg) (rc : Reg) (imm : Byte) : Statement (.b2Init ra rb rc imm) := by
  simp only [Statement, encode, Instr.op, formatR, Op.mask, Op.fixedBits, Op.code]
  refine BitVec.eq_of_getLsbD_eq fun k hk => ?_
  simp only [BitVec.getLsbD_and, BitVec.getLsbD_append]
  interval_cases k <;> simp

theorem b2Update (ra : Reg) : Statement (.b2Update ra) := by
  simp only [Statement, encode, Instr.op, formatR, Op.mask, Op.fixedBits, Op.code]
  refine BitVec.eq_of_getLsbD_eq fun k hk => ?_
  simp only [BitVec.getLsbD_and, BitVec.getLsbD_append]
  interval_cases k <;> simp

theorem b2Final (rd : Reg) : Statement (.b2Final rd) := by
  simp only [Statement, encode, Instr.op, formatR, Op.mask, Op.fixedBits, Op.code]
  refine BitVec.eq_of_getLsbD_eq fun k hk => ?_
  simp only [BitVec.getLsbD_and, BitVec.getLsbD_append]
  interval_cases k <;> simp

theorem b2Wipe : Statement .b2Wipe := by
  unfold Statement; decide

theorem hmMac (rd : Reg) (ra : Reg) (rb : Reg) (imm : Byte) : Statement (.hmMac rd ra rb imm) := by
  simp only [Statement, encode, Instr.op, formatR, Op.mask, Op.fixedBits, Op.code]
  refine BitVec.eq_of_getLsbD_eq fun k hk => ?_
  simp only [BitVec.getLsbD_and, BitVec.getLsbD_append]
  interval_cases k <;> simp

theorem kdInit (ra : Reg) (rb : Reg) (rc : Reg) (imm : Byte) : Statement (.kdInit ra rb rc imm) := by
  simp only [Statement, encode, Instr.op, formatR, Op.mask, Op.fixedBits, Op.code]
  refine BitVec.eq_of_getLsbD_eq fun k hk => ?_
  simp only [BitVec.getLsbD_and, BitVec.getLsbD_append]
  interval_cases k <;> simp

theorem kdGet (rd : Reg) (ra : Reg) : Statement (.kdGet rd ra) := by
  simp only [Statement, encode, Instr.op, formatR, Op.mask, Op.fixedBits, Op.code]
  refine BitVec.eq_of_getLsbD_eq fun k hk => ?_
  simp only [BitVec.getLsbD_and, BitVec.getLsbD_append]
  interval_cases k <;> simp

theorem kdWipe : Statement .kdWipe := by
  unfold Statement; decide

theorem evEnc (rd : Reg) (ra : Reg) (rb : Reg) (rc : Reg) : Statement (.evEnc rd ra rb rc) := by
  simp only [Statement, encode, Instr.op, formatR, Op.mask, Op.fixedBits, Op.code]
  refine BitVec.eq_of_getLsbD_eq fun k hk => ?_
  simp only [BitVec.getLsbD_and, BitVec.getLsbD_append]
  interval_cases k <;> simp

theorem evDec (rd : Reg) (ra : Reg) (rb : Reg) (rc : Reg) : Statement (.evDec rd ra rb rc) := by
  simp only [Statement, encode, Instr.op, formatR, Op.mask, Op.fixedBits, Op.code]
  refine BitVec.eq_of_getLsbD_eq fun k hk => ?_
  simp only [BitVec.getLsbD_and, BitVec.getLsbD_append]
  interval_cases k <;> simp

end Sys2Proof.Laws.EncodeFixedBits
end

