-- ==== Sys2Proof/Tests/Slice0.lean ====
section
/-! SUPPORT. The model's own tests, by the rule or the vector of spec/ each is taken from, and for every
statement with hypotheses a witness that meets them. -/

namespace Sys2Proof.Tests

-- One theorem at a time: each kernel evaluation needs its own deep stack.
set_option Elab.async false

open Sys2Proof Sys2Proof.Machine

/-! ## Small states -/

/-- A freshly reset core with a BUF of 1024 bytes and a queue of depth 4. -/
def tState : State := { State.reset with cfg := ⟨1024, 4⟩ }

/-- Some registers set. -/
def tRegs (l : List (Reg × Word)) (s : State) : State := l.foldl (fun s p => s.setReg p.1 p.2) s

/-- The bytes 0, 1, up to `n - 1`. -/
def tCount (n : Nat) : Bytes := (List.range n).map (BitVec.ofNat 8)

/-- The result is a next state with a property. -/
def tNext (r : Result) (p : State → Bool) : Bool :=
  match r with
  | .next t => p t
  | _ => false

theorem tNext_exists {r : Result} {p : State → Bool} (h : tNext r p = true) : ∃ t, r = .next t ∧ p t = true := by
  cases r with
  | next t => exact ⟨t, rfl, h⟩
  | fault f => cases f
  | refused f => exact Bool.noConfusion h

/-- V2.1: key `00 01 .. 1f` at 256, the 12-byte nonce at 320, counter 1. -/
def tKey : State :=
  tRegs [(0, 256), (1, 32), (2, 320), (3, 12), (4, 1), (5, 512), (6, 4), (7, 768)]
    ((tState.store 256 (tCount 32)).store 320 [0, 0, 0, 9, 0, 0, 0, 0x4a, 0, 0, 0, 0])

/-- V2.1 after `SC.KEY` and `SC.NONCE`, as the vector prints the CipherState. -/
def tNonced : State :=
  { tKey with
    sc := ⟨#v[0x61707865, 0x3320646e, 0x79622d32, 0x6b206574, 0x03020100, 0x07060504, 0x0b0a0908, 0x0f0e0d0c,
      0x13121110, 0x17161514, 0x1b1a1918, 0x1f1e1d1c, 0x00000001, 0x09000000, 0x4a000000, 0x00000000], true, true⟩ }

/-- A hash of 64 bytes in progress, nothing absorbed (R156's example), with the three bytes `abc` at 0. -/
def tHash : State :=
  { tRegs [(0, 0), (1, 3), (4, 64)] (tState.store 0 [0x61, 0x62, 0x63]) with b2 := blakeStart 64 [] [] [] }

/-- R212's example: password `password` at 0, salt `saltsalt` at 16, two iterations. -/
def tPassword : State :=
  tRegs [(0, 0), (1, 8), (2, 16), (3, 8), (4, 2), (5, 64), (6, 7)]
    ((tState.store 0 [0x70, 0x61, 0x73, 0x73, 0x77, 0x6f, 0x72, 0x64]).store 16
      [0x73, 0x61, 0x6c, 0x74, 0x73, 0x61, 0x6c, 0x74])

/-- R212's example after `KD.INIT`. -/
def tInstance : KdInstance :=
  { alg := .sha1
    k0 := [0x70, 0x61, 0x73, 0x73, 0x77, 0x6f, 0x72, 0x64] ++ zeros 56
    salt := [0x73, 0x61, 0x6c, 0x74, 0x73, 0x61, 0x6c, 0x74]
    iter := 2, blk := 0, dbuf := zeros 20, pos := 20 }

def tDerive : State := { tPassword with kd := ⟨some tInstance, false⟩ }

/-- V8.1's contents with one iteration: `hello world` at 0, a key of zeros at 64, the RNG's bytes `00 01 ..`. -/
def tSeal : State :=
  { tRegs [(1, 11), (2, 64), (3, 32), (6, 256)]
      (tState.store 0 [0x68, 0x65, 0x6c, 0x6c, 0x6f, 0x20, 0x77, 0x6f, 0x72, 0x6c, 0x64]) with
    evAlg := 2, evIter := 1, evSaltsz := 8, evHsaltsz := 8, rngHead := tCount 32 }

/-- The envelope of `tSeal`'s contents, as PBKDF2-HMAC-SHA-256, AES-256-CBC and HMAC-SHA-256 of another
implementation give it. -/
def tEnvelopeBytes : Bytes :=
  toBe 96 0x010002000000000001000000080008000001020304050607_08090a0b0c0d0e0f101112131415161718191a1b1c1d1e1f_180187149cf2b2365edcf53e051c0b73c86f32a496783e3fa38084b7237d0fff_2ae731b5c4caabe6a2b359a803627dce

/-- An envelope at 256, the key of zeros at 64. -/
def tEnvelope (e : Bytes) : State :=
  tRegs [(8, 256), (9, 96), (2, 64), (3, 32), (10, 0), (11, 0), (12, 512)] (tState.store 256 e)

/-! ## WellFormed: an ill-formed command for each check -/

theorem test_wf_refuses_scKey_15 : (Instr.scKey 15).wf = false := by decide
theorem test_wf_refuses_scNonce_15 : (Instr.scNonce 15 0).wf = false := by decide
theorem test_wf_refuses_scXor_15 : (Instr.scXor 0 15).wf = false := by decide
theorem test_wf_refuses_b2Init_15 :
    [(15, 0, 0), (0, 15, 0), (0, 0, 15)].all (fun r => !(Instr.b2Init r.1 r.2.1 r.2.2 64).wf) = true := by decide
theorem test_wf_refuses_b2Update_15 : (Instr.b2Update 15).wf = false := by decide
theorem test_wf_refuses_hmMac_15 : ((Instr.hmMac 0 15 0 1).wf || (Instr.hmMac 0 0 15 1).wf) = false := by decide
theorem test_wf_refuses_kdInit_15 : ((Instr.kdInit 15 0 0 1).wf || (Instr.kdInit 0 15 0 1).wf) = false := by decide
theorem test_wf_refuses_evEnc_15 :
    [(15, 0, 0, 0), (0, 15, 0, 0), (0, 0, 15, 0), (0, 0, 0, 15)].all
      (fun r => !(Instr.evEnc r.1 r.2.1 r.2.2.1 r.2.2.2).wf && !(Instr.evDec r.1 r.2.1 r.2.2.1 r.2.2.2).wf) = true := by
  decide
theorem test_wf_refuses_csrw_readonly :
    [Csr.id, .status, .err, .errcp, .errcmd, .cp].all (fun c => !(Instr.csrw c 0).wf) = true := by decide
theorem test_wf_admits_single_15 :
    ((Instr.mov 15 15).wf && (Instr.scNonce 14 15).wf && (Instr.kdInit 14 14 15 1).wf && (Instr.scBlock 15).wf &&
      (Instr.hmMac 15 14 14 1).wf) = true := by decide

/-! ## Words written out from R81 and R87 -/

theorem test_decode_nop : decode 0x00000000 = .ok .nop := by decide
theorem test_decode_setlo : decode (0x01#8 ++ 3#4 ++ 0#4 ++ 0x1234#16) = .ok (.setlo 3 0x1234) := by decide
theorem test_decode_sethi : decode (0x02#8 ++ 15#4 ++ 0#4 ++ 0xABCD#16) = .ok (.sethi 15 0xABCD) := by decide
theorem test_decode_mov : decode (0x03#8 ++ 7#4 ++ 0#4 ++ 0#4 ++ 9#4 ++ 0#8) = .ok (.mov 9 7) := by decide
theorem test_decode_csrr : decode (0x04#8 ++ 2#4 ++ 0#8 ++ 0x005#12) = .ok (.csrr 2 .cp) := by decide
theorem test_decode_csrw : decode (0x05#8 ++ 6#4 ++ 0#8 ++ 0x043#12) = .ok (.csrw .evHsaltsz 6) := by decide
theorem test_decode_wipe : decode 0x06000000 = .ok .wipe := by decide
theorem test_decode_scKey : decode 0x10E00000 = .ok (.scKey 14) := by decide
theorem test_decode_scNonce : decode 0x11240000 = .ok (.scNonce 2 4) := by decide
theorem test_decode_scBlock : decode 0x12000500 = .ok (.scBlock 5) := by decide
theorem test_decode_scXor : decode 0x13500700 = .ok (.scXor 7 5) := by decide
theorem test_decode_scKs : decode 0x14600700 = .ok (.scKs 7 6) := by decide
theorem test_decode_scWipe : decode 0x15000000 = .ok .scWipe := by decide
theorem test_decode_b2Init : decode 0x20024040 = .ok (.b2Init 0 2 4 64) := by decide
theorem test_decode_b2Update : decode 0x21200000 = .ok (.b2Update 2) := by decide
theorem test_decode_b2Final : decode 0x22000400 = .ok (.b2Final 4) := by decide
theorem test_decode_b2Wipe : decode 0x23000000 = .ok .b2Wipe := by decide
theorem test_decode_hmMac : decode 0x30020602 = .ok (.hmMac 6 0 2 2) := by decide
theorem test_decode_kdInit : decode 0x40024001 = .ok (.kdInit 0 2 4 1) := by decide
theorem test_decode_kdGet : decode 0x41600500 = .ok (.kdGet 5 6) := by decide
theorem test_decode_kdWipe : decode 0x42000000 = .ok .kdWipe := by decide
theorem test_decode_evEnc : decode 0x50024600 = .ok (.evEnc 6 0 2 4) := by decide
theorem test_decode_evDec : decode 0x5182AC00 = .ok (.evDec 12 8 2 10) := by decide
/-- R88: one word for each case, and R89: the case that is named when several hold. -/
theorem test_decode_illegal :
    (decode 0x07000000 = .error .unknownOpcode) ∧ (decode 0x00000001 = .error .mustBeZero) ∧
      (decode 0x10F00000 = .error .pairField15) ∧ (decode 0x04000006 = .error .csrUnimplemented) ∧
      (decode 0x05000005 = .error .csrReadOnly) ∧ (decode 0x10F00001 = .error .mustBeZero) ∧
      (decode 0x05000006 = .error .csrUnimplemented) := by decide
theorem test_decodeTableWord : decodeTableWord 32 0x12000500 = some (.scBlock 5) := by decide
/-- R91, R92: a line of assembler. -/
theorem test_assemble :
    assembleLine "LBUF x1, 0x10000, 32  # key" = some [.setlo 1 0, .sethi 1 1, .setlo 2 32] ∧
      assembleLine "ev.dec x12, x8, x2, x10" = some [.evDec 12 8 2 10] ∧
      assembleLine "csrw SC_CFG, x0" = some [.csrw .scCfg 0] ∧ assembleLine "mov x16, x0" = none := by
  decide +kernel

/-! ## The quarter rounds -/

/-- Four words at the indices 1, 5, 9, 13, the others 0. -/
def tFour (a b c d : Word) : Vector Word 16 := #v[0, a, 0, 0, 0, b, 0, 0, 0, c, 0, 0, 0, d, 0, 0]

/-- V2.0. -/
theorem test_chacha_quarter :
    chachaQuarter (tFour 0x11111111 0x01020304 0x9b8d6f43 0x01234567) 1 5 9 13 =
      tFour 0xea2a92f4 0xcb1cf8ce 0x4581472e 0x5881c4bb := by decide +kernel
/-- V3.0. -/
theorem test_salsa_quarter :
    salsaQuarter (tFour 1 0 0 0) 1 5 9 13 = tFour 0x08008145 0x00000080 0x00010200 0x20500000 ∧
    salsaQuarter (tFour 0xe7e8c006 0xc4f9417d 0x6479b4b2 0x68c67137) 1 5 9 13 =
      tFour 0xe876d72b 0x9361dfd5 0xf1460244 0x948541a3 := by decide +kernel

/-! ## Tables -/

/-- R183, R190: both tables are first bits of the same cube roots, so a word of `K256` is the high half of the
word of `K512` in its place; there are 64 and 80 of them. -/
theorem test_round_constants :
    k256 = (k512.take 64).map (fun k => k.extractLsb' 32 32) ∧ k256.length = 64 ∧ k512.length = 80 := by
  decide +kernel
/-- R191's example on `abc`, its last 16 bytes. -/
theorem test_sha512 : (sha512 [0x61, 0x62, 0x63]).drop 48 = toBe 16 0x454d4423643ce80e2a9ac94fa54ca49f := by
  decide +kernel

/-! ## One step of each command -/

/-- R100: from `cp = 5`. -/
theorem test_nop : tNext (exec .nop { tState with cp := 5 }) (fun t => t == { tState with cp := 6 }) = true := by
  decide +kernel
theorem test_setlo : tNext (exec (.setlo 3 0x1234) (tRegs [(3, 0xDEADBEEF)] tState)) (fun t => t.reg 3 == 0x1234) := by
  decide +kernel
theorem test_sethi : tNext (exec (.sethi 3 0xABCD) (tRegs [(3, 0x1234)] tState)) (fun t => t.reg 3 == 0xABCD1234) := by
  decide +kernel
theorem test_mov :
    tNext (exec (.mov 9 7) (tRegs [(7, 96)] tState)) (fun t => t.reg 9 == 96 && t.reg 7 == 96 && t.cp == 1) := by
  decide +kernel
/-- R104: ID, and R34: STATUS while a CSRR runs on a keyed and nonced unit. -/
theorem test_csrr :
    (tNext (exec (.csrr 1 .id) tState) (fun t => t.reg 1 == 0x47530001) &&
      tNext (exec (.csrr 1 .status) tNonced) (fun t => t.reg 1 == 0x301)) = true := by decide +kernel
/-- R105: Salsa with 20 rounds, the unit wiped; R37: ROUNDS 3 is refused. -/
theorem test_csrw :
    (tNext (exec (.csrw .scCfg 4) tNonced) (fun t => t.scCfg == ⟨.salsa, .r20⟩ && t.sc == ScUnit.zero) &&
      tNext (exec (.csrw .scCfg 0) (tRegs [(0, 6)] tNonced)) (fun t => t.err == some .argument && t.sc == tNonced.sc)) =
      true := by decide +kernel
/-- V10.3: every unit is wiped and the KD unit disposed. -/
theorem test_wipe : tNext (exec .wipe { tNonced with b2 := tHash.b2, kd := tDerive.kd }) (fun t =>
    t.sc == ScUnit.zero && t.b2 == B2Unit.zero && t.kd == ⟨none, true⟩ && t.x == tNonced.x) = true := by decide +kernel
/-- V2.1: the CipherState after `SC.KEY`. -/
theorem test_scKey : tNext (exec (.scKey 0) tKey) (fun t =>
    t.sc.keyed && !t.sc.nonced && t.sc.cs[0] == 0x61707865 && t.sc.cs[4] == 0x03020100 && t.sc.cs[11] == 0x1f1e1d1c &&
      t.sc.cs[12] == 0) = true := by decide +kernel
/-- V2.1: the counter and nonce words after `SC.NONCE`. -/
theorem test_scNonce : tNext (exec (.scNonce 2 4) { tKey with sc := { tNonced.sc with nonced := false } })
    (fun t => t.sc == tNonced.sc) = true := by decide +kernel
/-- V2.1: the first bytes of the block, and the counter. -/
theorem test_scBlock : tNext (exec (.scBlock 5) tNonced) (fun t =>
    t.load ⟨512, 8⟩ == toBe 8 0x10f1e7e4d13b5915 && t.sc.cs[12] == 2 && t.cp == 1) = true := by decide +kernel
/-- V2.1's keystream over the four input bytes `ff`. -/
theorem test_scXor : tNext (exec (.scXor 7 5) ((tRegs [(6, 4)] tNonced).store 512 [255, 255, 255, 255])) (fun t =>
    t.load ⟨768, 5⟩ == [0xef, 0x0e, 0x18, 0x1b, 0] && t.sc.cs[12] == 2) = true := by decide +kernel
/-- V2.1's keystream, four bytes of it: the counter still moves on by a whole block (R134). -/
theorem test_scKs : tNext (exec (.scKs 7 6) tNonced) (fun t =>
    t.load ⟨768, 5⟩ == [0x10, 0xf1, 0xe7, 0xe4, 0] && t.sc.cs[12] == 2) = true := by decide +kernel
theorem test_scWipe : tNext (exec .scWipe tNonced) (fun t => t.sc == ScUnit.zero && t.scCfg == tNonced.scCfg) = true := by
  decide +kernel
/-- R156's example. -/
theorem test_b2Init : tNext (exec (.b2Init 2 2 2 64) tState) (fun t =>
    t.b2.h[0] == 0x6a09e667f2bdc948 && t.b2.h[7] == 0x5be0cd19137e2179 && t.b2.c == 0 && t.b2.outlen == 64) = true := by
  decide +kernel
/-- R159's example. -/
theorem test_b2Update : tNext (exec (.b2Update 0) tHash) (fun t =>
    t.b2.c == 3 && t.b2.bbuf[2] == 0x63 && t.b2.bbuf[3] == 0 && t.b2.h == tHash.b2.h && t.b2.t0 == 0) = true := by
  decide +kernel
/-- V4.2: the digest of `abc`. -/
theorem test_b2Final : tNext (exec (.b2Final 4) { tHash with b2 := blakeAbsorb tHash.b2 [0x61, 0x62, 0x63] }) (fun t =>
    t.load ⟨64, 8⟩ == toBe 8 0xba80a53f981c4d0d && t.b2.final && t.b2.c == 0) = true := by decide +kernel
theorem test_b2Wipe : tNext (exec .b2Wipe tHash) (fun t => t.b2 == B2Unit.zero && t.mem == tHash.mem) = true := by
  decide +kernel
/-- V5.5: HMAC-SHA-256 of `Hi There`. -/
theorem test_hmMac :
    tNext (exec (.hmMac 6 0 2 2)
      (tRegs [(1, 20), (2, 32), (3, 8), (6, 64)] ((tState.store 0 (List.replicate 20 0x0b)).store 32
        [0x48, 0x69, 0x20, 0x54, 0x68, 0x65, 0x72, 0x65])))
      (fun t => t.load ⟨64, 8⟩ == toBe 8 0xb0344c61d8db3853) = true := by decide +kernel
/-- R212's example, and R212's fault for a salt of 7 bytes. -/
theorem test_kdInit :
    (tNext (exec (.kdInit 0 2 4 1) tPassword) (fun t => t.kd == ⟨some tInstance, false⟩) &&
      tNext (exec (.kdInit 0 2 4 1) (tRegs [(3, 7)] tPassword)) (fun t => t.err == some .argument)) = true := by
  decide +kernel
/-- V6.5: the first 7 bytes of the stream. -/
theorem test_kdGet : tNext (exec (.kdGet 5 6) tDerive) (fun t =>
    t.load ⟨64, 8⟩ == [0x59, 0xd8, 0x6e, 0xb8, 0x27, 0x97, 0xeb, 0]) = true := by decide +kernel
/-- R214: disposed, and a `KD.GET` is then a StateFault. -/
theorem test_kdWipe : tNext (exec .kdWipe tDerive) (fun t =>
    t.kd == ⟨none, true⟩ && tNext (exec (.kdGet 5 6) t) (fun u => u.err == some .state)) = true := by decide +kernel
/-- R256: unconfigured after reset; the RNG is not consulted. -/
theorem test_evEnc_unconfigured : tNext (exec (.evEnc 6 0 2 4) { tSeal with evAlg := 0 }) (fun t =>
    t.err == some .argument && t.rngPos == 0 && t.x == tSeal.x) = true := by decide +kernel
/-- The whole envelope, its length, and what was drawn. -/
theorem test_evEnc : tNext (exec (.evEnc 6 0 2 4) tSeal) (fun t =>
    t.load (t.buf 6) == tEnvelopeBytes && t.reg 7 == 96 && t.rngPos == 32 && t.cp == 1) = true := by decide +kernel
/-- V8.2: V8.1's envelope decodes to `hello world`. -/
theorem test_evDec : tNext (exec (.evDec 12 8 2 10) (tEnvelope (toBe 96
      0x010002000000000003000000080008000001020304050607_08090a0b0c0d0e0f101112131415161718191a1b1c1d1e1f_31bedfc2c2f0b97df35eacc4cb31b01120b7031ab1d8b3ac725f895d2c5b4022_418cf9f4d93acf5b60d24d5487918168)))
    (fun t => t.load ⟨512, 12⟩ == [0x68, 0x65, 0x6c, 0x6c, 0x6f, 0x20, 0x77, 0x6f, 0x72, 0x6c, 0x64, 0] &&
      t.reg 13 == 11 && t.cp == 1) = true := by decide +kernel

/-- V8.9: version 2 is an UnsupportedFault. -/
theorem test_evDec_version : tNext (exec (.evDec 12 8 2 10) ((tEnvelope tEnvelopeBytes).store 256 [2])) (fun t =>
    t.err == some .unsupported && t.reg 13 == 0) = true := by decide +kernel

/-! ## The step and the fault registers -/

/-- V9.1: fault entry keeps `cp` and names the command; R285: the queue is discarded. -/
theorem test_fault_entry :
    tNext (step { tState with cp := 2, queue := [0x12000000, 0x00000000] }) (fun t =>
      t == { tState with cp := 2, err := some .state, errcp := 2, errcmd := 0x12000000 }) = true := by decide +kernel
theorem test_step_illegal : tNext (step (tState.withFetchWord 32 0x07000000)) (fun t =>
    t.err == some .illegalCommand && t.errcmd == 0x07000000 && t.cp == 0) = true := by decide +kernel
theorem test_withFetchWord :
    tNext (step (State.reset.withFetchWord 32 0x01301234)) (fun t => t.reg 3 == 0x1234 && t.cp == 1) = true := by
  decide +kernel
theorem test_host_run :
    tNext (Host.Core.run Sys2Proof.core 3
      { tState with moves := [.command 0x01301234, .wait, .hardReset] }) (fun t => t == tState) = true := by
  decide +kernel

/-! ## Witnesses: states and operands that meet the hypotheses of each statement -/

theorem witness_DecodeOfEncode : (Instr.evDec 14 14 14 14).wf = true ∧ (Instr.csrw .evHsaltsz 15).wf = true := by decide
theorem witness_EncodeOfDecode : decode 0x51EEEE00 = .ok (.evDec 14 14 14 14) := by decide
theorem witness_IllegalWordFaults :
    (∀ o : Op, ¬ o.owns 0x07000000) ∧ (∀ o : Op, ¬ o.owns 0x10F00000) ∧ Op.scKey.owns 0x10E00000 := by
  refine ⟨fun o h => ?_, fun o h => ?_, by decide, ?_, trivial⟩
  · cases o <;> exact absurd h.1 (by decide)
  · cases o <;> first | exact absurd h.1 (by decide) | exact absurd (h.2.1 raField (List.mem_singleton.2 rfl)) (by decide)
  · intro f hf
    simp only [Op.pairPlaces, List.mem_singleton] at hf
    subst hf
    decide
theorem witness_StepRunsDecoded :
    (tState.moves = [] ∧ tState.err = none ∧ decode 0x01301234 = .ok (.setlo 3 0x1234) ∧
      { tState with queue := [0x01301234, 0] }.queue = 0x01301234 :: [0]) ∧
    { tState with moves := [.wait, .clrErr] }.moves = .wait :: [.clrErr] ∧
    { tState with queue := [0x07000000] }.queue = 0x07000000 :: [] ∧
    (tState.halted = false ∧ tState.queue = []) ∧ { tState with err := some .state }.halted = true ∧
    { tState with moves := [.hardReset] }.moves = .hardReset :: [] ∧
    decodeTableWord 32 0x01301234 = some (.setlo 3 0x1234) := by decide
theorem witness_QueueRunsProgram :
    let is := [Instr.setlo 1 7, .scBlock 0, .nop]
    let s := { tState with queue := is.map encode }
    s.moves = [] ∧ s.err = none ∧ (∀ i ∈ is, i.wf = true) ∧ s.queue = is.map encode := by decide
theorem witness_HaltTakesNoCommand :
    { tState with err := some .address }.halted = true ∧ tState.halted = false ∧
      ∃ t, exec (.scBlock 0) tState = .next t ∧ t.halted = true := by
  refine ⟨rfl, rfl, tNext_exists ?_⟩
  decide +kernel
theorem witness_HostMovesAsAllowed :
    (tState.queue.length < tState.cfg.cmdqDepth ∧ tState.halted = false) ∧
    { tState with queue := [0, 0, 0, 0] }.cfg.cmdqDepth ≤ { tState with queue := [0, 0, 0, 0] }.queue.length ∧
    { tState with err := some .state }.halted = true ∧
    (tState.busy = false ∧ 1023 < tState.cfg.bufBytes ∧ tState.mem.wf = true) ∧ tState.cfg.bufBytes ≤ 1024 ∧
    { tState with queue := [0] }.busy = true := by decide
theorem witness_ResetValues : { tState with err := some .state }.busy = false := by decide
theorem witness_FaultRegistersChangeOnly :
    (∃ t, step { tState with queue := [0x12000500] } = .next t ∧ (t.err == some .state) = true) ∧
    (∃ t, step { tState with queue := [0] } = .next t ∧ (t.err == none) = true) ∧
    (∃ t, step { tState with err := some .state, moves := [.clrErr] } = .next t ∧ (t.err == none) = true) ∧
    (∃ t, step { tState with err := some .state, moves := [.softReset] } = .next t ∧ (t.err == none) = true) := by
  refine ⟨tNext_exists ?_, tNext_exists ?_, tNext_exists ?_, tNext_exists ?_⟩ <;> decide +kernel
theorem witness_RunNeverStops : { tState with queue := [0x12000500, 0] }.moves = [] := rfl
theorem witness_RegistersWritten :
    (∃ t, exec (.setlo 15 1) tState = .next t ∧ (t.reg 15 != tState.reg 15) = true) ∧
    (tState.halted = false ∧ ∃ t, exec (.scBlock 0) tState = .next t ∧ t.halted = true) ∧
    (∃ t, hostMove (.bufWrite 1023 7) tState = .next t ∧ (t.x == tState.x) = true) := by
  refine ⟨tNext_exists ?_, ⟨rfl, tNext_exists ?_⟩, tNext_exists ?_⟩ <;> decide +kernel
theorem witness_CommandPointerCounts :
    tState.cp = 0 ∧ tState.halted = false ∧
      ∃ t, runCommands [.nop, .setlo 1 2] tState = .next t ∧ (!t.halted) = true := by
  refine ⟨rfl, rfl, tNext_exists ?_⟩
  decide +kernel
theorem witness_OnlyEnvelopeEncodeDraws :
    (∃ t, exec (.evEnc 6 0 2 4) tSeal = .next t ∧ (t.cp == tSeal.cp + 1) = true) ∧
    (∃ t, exec (.evEnc 6 0 2 4) tState = .next t ∧ (t.cp == tState.cp) = true) ∧
    ∃ t, exec .nop tState = .next t ∧ (t.cp == tState.cp + 1) = true := by
  refine ⟨tNext_exists ?_, tNext_exists ?_, tNext_exists ?_⟩ <;> decide +kernel

/-- A core with a key and a nonce, a hash begun, and a word waiting. -/
def tBusy : State := { tNonced with b2 := tHash.b2, queue := [0x12000500] }

theorem witness_StepKeepsInv : tBusy.Inv ∧ ∃ t, step tBusy = .next t ∧ (t.cp == 1) = true := by
  refine ⟨?_, tNext_exists (by decide +kernel)⟩
  exact
    { memWf := by decide +kernel
      memWithin := by decide +kernel
      cfgLegal := by decide
      queueDepth := by decide
      haltedEmpty := fun h => Bool.noConfusion h
      noncedKeyed := fun _ => rfl
      unkeyedZero := fun h => Bool.noConfusion h
      b2Inv :=
        { offset := by decide
          padding := by decide +kernel
          outlen := by decide
          flagHigh := rfl
          flagLow := .inl rfl
          idle := fun h => absurd h (by decide) }
      kdInv := fun k h => by cases h
      kdDisposed := fun _ => rfl }

theorem witness_StepKeepsCipherConstants :
    tBusy.sc.keyed = true ∧ constantWords tBusy.scCfg.variant tBusy.sc.cs = sigmaWords ∧ tBusy.constantsInPlace ∧
      ∃ t, step tBusy = .next t ∧ (t.cp == 1) = true :=
  ⟨rfl, by decide +kernel, fun _ => .inl (by decide +kernel), tNext_exists (by decide +kernel)⟩
theorem witness_SecretsHaveNoReadPath :
    tNonced.SameView { tNonced with sc := { tNonced.sc with cs := Vector.replicate 16 7 } } ∧
      (Instr.csrr 0 .status).releases = false ∧ (Instr.evDec 0 0 0 0).releases = false :=
  ⟨⟨rfl, rfl, rfl, rfl, rfl, rfl, rfl⟩, rfl, rfl⟩
theorem witness_StatusBits :
    tState.halted = false ∧ ({ tState with err := some .state }.halted = true →
      { tState with err := some .state }.queue = []) := by decide
theorem witness_CsrReadsBackWrite :
    (∃ t, exec (.csrw .scCfg 0) (tRegs [(0, 5)] tState) = .next t ∧ (t.cp == tState.cp + 1) = true) ∧
    ∃ t, exec (.csrw .evAlg 0) (tRegs [(0, 0xFFFF)] tState) = .next t ∧ (t.cp == tState.cp + 1) = true := by
  refine ⟨tNext_exists ?_, tNext_exists ?_⟩ <;> decide +kernel
theorem witness_OperandlessCommands :
    (0x42 : BitVec 8) ∈ ([0x00, 0x06, 0x15, 0x23, 0x42] : List (BitVec 8)) ∧ (0x800000 : BitVec 24) ≠ 0 := by decide
theorem witness_RegisterCommands :
    (0x02 : BitVec 8) ∈ ([0x01, 0x02] : List (BitVec 8)) ∧ (8 : BitVec 4) ≠ 0 ∧
      ((0 : Reg) ≠ 0 ∨ (1 : Reg) ≠ 0 ∨ (0 : Byte) ≠ 0) := by decide
theorem witness_CsrrReads :
    tState.halted = false ∧ ((0 : BitVec 8) ≠ 0 ∨ Csr.ofNumber 0x006 = none) ∧
      ((0x80 : BitVec 8) ≠ 0 ∨ Csr.ofNumber 0x005 = none) := by decide
theorem witness_CsrwWrites :
    let at5 := tRegs [(0, 5)] tState
    let at6 := tRegs [(0, 6)] tState
    let at8 := tRegs [(0, 8)] tState
    let low := tRegs [(0, 0xFFFF)] tState
    let high := tRegs [(0, 0x10000)] tState
    ((at5.reg 0).extractLsb' 3 29 = 0 ∧ (at5.reg 0).extractLsb' 1 2 ≠ 3) ∧ (at6.reg 0).extractLsb' 1 2 = 3 ∧
    (at8.reg 0).extractLsb' 3 29 ≠ 0 ∧ (low.reg 0).extractLsb' 16 16 = 0 ∧ (high.reg 0).extractLsb' 16 16 ≠ 0 ∧
    (0x005 : BitVec 12) ∉ ([0x010, 0x040, 0x041, 0x042, 0x043] : List (BitVec 12)) := by decide +kernel
theorem witness_LoadImmediate : tState.halted = false := rfl

theorem witness_ScKeyLoads :
    (0 : Reg) ≠ 15 ∧ (((tKey.buf 0).len = 16 ∨ (tKey.buf 0).len = 32) ∧ tKey.admits (tKey.buf 0) = true) ∧
    (let s := tRegs [(1, 24)] tKey; (s.buf 0).len ≠ 16 ∧ (s.buf 0).len ≠ 32) ∧
    (let s := tRegs [(0, 1009), (1, 16)] tKey; (s.buf 0).len = 16 ∧ s.admits (s.buf 0) = false) ∧
    (let s := tRegs [(0, 1008), (1, 16)] tKey; (s.buf 0).len = 16 ∧ s.admits (s.buf 0) = true) ∧
    tKey.scCfg.variant = .chacha ∧ { tKey with scCfg := ⟨.salsa, .r20⟩ }.scCfg.variant = .salsa := by decide +kernel
theorem witness_ScNonceLoads :
    (2 : Reg) ≠ 15 ∧ tKey.sc.keyed = false ∧
    (tNonced.sc.keyed = true ∧ (tNonced.buf 2).len = 12 ∧ tNonced.scCfg.variant = .chacha ∧
      tNonced.admits (tNonced.buf 2) = true) ∧
    (let s := { tNonced with scCfg := ⟨.salsa, .r20⟩ };
      s.sc.keyed = true ∧ ¬ ((s.buf 2).len = 8 ∨ (s.buf 2).len = 16 ∨ ((s.buf 2).len = 12 ∧ s.scCfg.variant = .chacha))) ∧
    (let s := { tRegs [(3, 8)] tNonced with scCfg := ⟨.salsa, .r20⟩ };
      s.sc.keyed = true ∧ (s.buf 2).len = 8 ∧ s.admits (s.buf 2) = true) ∧
    (let s := tRegs [(2, 1009), (3, 16)] tNonced;
      s.sc.keyed = true ∧ (s.buf 2).len = 16 ∧ s.admits (s.buf 2) = false) := by decide +kernel
theorem witness_ScBlockWrites :
    tKey.sc.keyed = false ∧ { tNonced.sc with nonced := false }.nonced = false ∧
    (tNonced.sc.keyed = true ∧ tNonced.sc.nonced = true ∧ tNonced.mem.wf = true) ∧
    (tRegs [(5, 960)] tNonced).admits ((tRegs [(5, 960)] tNonced).dest 5 64) = true ∧
    (tRegs [(5, 961)] tNonced).admits ((tRegs [(5, 961)] tNonced).dest 5 64) = false := by decide +kernel
theorem witness_ScXorWrites :
    let there := tRegs [(5, 512), (6, 100), (7, 612)] tNonced
    let same := tRegs [(5, 512), (6, 100), (7, 512)] tNonced
    let lap := tRegs [(5, 512), (6, 100), (7, 611)] tNonced
    let out := tRegs [(5, 512), (6, 100), (7, 925)] tNonced
    ((5 : Reg) ≠ 15 ∧ tNonced.sc.keyed = true ∧ tNonced.sc.nonced = true ∧ tKey.sc.keyed = false ∧
      there.mem.wf = true) ∧
    (there.admits (there.buf 5) = true ∧ there.admits (there.dest 7 100) = true ∧
      (there.dest 7 100).overlaps (there.buf 5) = false) ∧
    (same.admits (same.buf 5) = true ∧ same.reg 7 = same.reg 5) ∧
    (lap.reg 7 ≠ lap.reg 5 ∧ lap.admits (lap.dest 7 100) = true ∧
      (lap.dest 7 100).overlaps (lap.buf 5) = true) ∧
    out.admits (out.dest 7 100) = false := by decide +kernel
theorem witness_ScKsWrites :
    let atEnd := tRegs [(6, 24), (7, 1000)] tNonced
    let past := tRegs [(6, 25), (7, 1000)] tNonced
    tKey.sc.keyed = false ∧ atEnd.sc.keyed = true ∧ atEnd.sc.nonced = true ∧ atEnd.mem.wf = true ∧
    atEnd.admits (atEnd.dest 7 (atEnd.num 6)) = true ∧ past.admits (past.dest 7 (past.num 6)) = false := by
  decide +kernel

/-- One byte at 512, to be encrypted to 768. -/
def tOneByte : State := tRegs [(5, 512), (6, 1), (7, 768)] (tNonced.store 512 [0x5a])

/-- The encrypted byte as the input, under the same SC state, to go to 800. -/
def tOneByteBack : State := tRegs [(5, 768), (6, 1), (7, 800)] (tNonced.store 768 [0x4a])

theorem witness_ScXorTwiceRestores :
    (tOneByte.mem.wf = true ∧ tOneByteBack.mem.wf = true) ∧
    (∃ t, exec (.scXor 7 5) tOneByte = .next t ∧
      (t.cp == tOneByte.cp + 1 && tOneByteBack.load (tOneByteBack.buf 5) == t.load (tOneByte.dest 7 1)) = true) ∧
    tOneByteBack.sc = tOneByte.sc ∧ tOneByteBack.scCfg = tOneByte.scCfg ∧
    (tOneByteBack.buf 5).len = (tOneByte.buf 5).len ∧
    ∃ v, exec (.scXor 7 5) tOneByteBack = .next v ∧ (v.cp == tOneByteBack.cp + 1) = true := by
  refine ⟨⟨?_, ?_⟩, tNext_exists ?_, ?_, ?_, ?_, tNext_exists ?_⟩ <;> decide +kernel
theorem witness_BlockCounterSteps :
    (14 : Fin 16) ≠ counterLow .chacha ∧ (14 : Fin 16) ≠ counterHigh .chacha ∧ (10 : Fin 16) ≠ counterLow .salsa ∧
      (10 : Fin 16) ≠ counterHigh .salsa := by decide
theorem witness_QuarterRoundWords : ([0, 5, 10, 15] : List (Fin 16)).Nodup ∧ ([15, 12, 13, 14] : List (Fin 16)).Nodup := by
  decide
theorem witness_QuarterRoundsAnyOrder :
    ([(1, 5, 9, 13), (0, 4, 8, 12), (2, 6, 10, 14), (3, 7, 11, 15)] : List (Fin 16 × Fin 16 × Fin 16 × Fin 16)).Perm
      [(0, 4, 8, 12), (1, 5, 9, 13), (2, 6, 10, 14), (3, 7, 11, 15)] ∧
    ([(15, 12, 13, 14), (0, 1, 2, 3), (5, 6, 7, 4), (10, 11, 8, 9)] : List (Fin 16 × Fin 16 × Fin 16 × Fin 16)).Perm
      [(0, 1, 2, 3), (5, 6, 7, 4), (10, 11, 8, 9), (15, 12, 13, 14)] := by decide
theorem witness_B2InitStarts :
    let s := tRegs [(0, 0), (1, 128), (2, 128), (3, 16), (4, 1024), (5, 0)] tState
    let past := tRegs [(0, 897)] s
    ((0 : Reg) ≠ 15 ∧ (2 : Reg) ≠ 15 ∧ (4 : Reg) ≠ 15) ∧
    ((s.buf 0).len ≤ 128 ∧ (s.buf 2).len = 16 ∧ (s.buf 4).len = 0 ∧ 1 ≤ (64 : Byte).toNat ∧ (64 : Byte).toNat ≤ 64) ∧
    (s.admits (s.buf 0) = true ∧ s.admits (s.buf 2) = true ∧ s.admits (s.buf 4) = true) ∧
    past.admits (past.buf 0) = false ∧ ¬ ((65 : Byte).toNat ≤ 64) ∧ ¬ (1 ≤ (0 : Byte).toNat) ∧
    ((tRegs [(3, 0)] s).buf 2).len = 0 := by decide +kernel
theorem witness_B2UpdateAbsorbs :
    (0 : Reg) ≠ 15 ∧ tState.b2.outlen = 0 ∧ { tHash.b2 with f0 := BitVec.allOnes 64 }.f0 ≠ 0 ∧
    (tHash.b2.outlen ≠ 0 ∧ tHash.b2.f0 = 0 ∧ tHash.admits (tHash.buf 0) = true) ∧
    (tRegs [(0, 1022)] tHash).admits ((tRegs [(0, 1022)] tHash).buf 0) = false ∧
    ((tRegs [(1, 0)] tHash).buf 0).len = 0 := by decide +kernel
theorem witness_B2FinalWritesDigest :
    (tHash.b2.outlen ≠ 0 ∧ tHash.b2.f0 = 0 ∧ tHash.b2.c ≤ 128 ∧ tHash.mem.wf = true) ∧ tState.b2.outlen = 0 ∧
    (tRegs [(4, 960)] tHash).admits ((tRegs [(4, 960)] tHash).dest 4 tHash.b2.outlen) = true ∧
    (tRegs [(4, 961)] tHash).admits ((tRegs [(4, 961)] tHash).dest 4 tHash.b2.outlen) = false := by decide +kernel
theorem witness_ByteCounterAdds : (1 ≤ 1 ∧ 1 ≤ 128) ∧ 1 ≤ 128 ∧ 128 ≤ 128 := by decide
theorem witness_AbsorptionLaws :
    let full := { tHash.b2 with c := 128 }
    (tHash.b2.c ≤ 128 ∧ tHash.b2.c < 128 ∧ tHash.b2.c = 0 ∧ tHash.b2.count = 0) ∧
    (full.c ≤ 128 ∧ full.c = 128) ∧ (∀ j : Fin 128, tHash.b2.c ≤ j.val → tHash.b2.bbuf[j] = 0) ∧
    ([0] : Bytes) ≠ [] := by decide +kernel

theorem witness_HmMacWritesTag :
    let s := tRegs [(0, 0), (1, 20), (2, 32), (3, 8), (6, 64)] tState
    let past := tRegs [(6, 993)] s
    let lap := tRegs [(6, 39)] s
    ((0 : Reg) ≠ 15 ∧ (2 : Reg) ≠ 15 ∧ (2 : Byte).toNat = HashAlg.sha256.number ∧ s.mem.wf = true) ∧
    (s.admits (s.buf 0) = true ∧ s.admits (s.buf 2) = true ∧ s.admits (s.dest 6 32) = true) ∧
    ((s.dest 6 32).overlaps (s.buf 0) = false ∧ (s.dest 6 32).overlaps (s.buf 2) = false) ∧
    past.admits (past.dest 6 32) = false ∧
    (lap.admits (lap.dest 6 32) = true ∧ (lap.dest 6 32).overlaps (lap.buf 2) = true) ∧
    ((0 : Byte).toNat = 0 ∧ 4 < (5 : Byte).toNat) := by decide +kernel
theorem witness_HmacKeys :
    HashAlg.sha1.blockLen < (zeros 65).length ∧ (tCount 60).length + 4 ≤ HashAlg.sha1.blockLen := by decide
theorem witness_ShaPadding : (64 = 64 ∨ 64 = 128) ∧ (128 = 64 ∨ 128 = 128) := by decide
theorem witness_DerivedBlockIsXor : 1 ≤ 1 := by decide
theorem witness_KdInitStarts :
    let s := tPassword
    let short := tRegs [(3, 7)] s
    let negative := tRegs [(4, 0x80000000)] s
    let past := tRegs [(2, 1017)] s
    ((0 : Reg) ≠ 15 ∧ (2 : Reg) ≠ 15 ∧ 1 ≤ (4 : Byte).toNat ∧ (4 : Byte).toNat ≤ 4) ∧
    (0 < (s.reg 4).toInt ∧ 8 ≤ (s.buf 2).len ∧ (s.buf 2).len ≤ 32767) ∧
    (s.admits (s.buf 0) = true ∧ s.admits (s.buf 2) = true) ∧ ¬ (8 ≤ (short.buf 2).len) ∧
    ¬ (0 < (negative.reg 4).toInt) ∧ (8 ≤ (past.buf 2).len ∧ past.admits (past.buf 2) = false) := by decide +kernel

theorem tInstance_inv : tInstance.Inv where
  keyLength := by decide
  saltLength := by decide
  iterRange := by decide
  posRange := by decide
  bufferLength := by decide
  fresh := fun _ => rfl
  buffered := fun h => absurd rfl h

/-- The same instance with the index of its last block at the end of the range, and nothing buffered. -/
def tLastBlock : KdInstance :=
  { tInstance with
    blk := 0xFFFFFFFF, dbuf := deriveBlock tInstance.alg tInstance.k0 tInstance.salt tInstance.iter 0xFFFFFFFF }

theorem witness_KdGetWritesStream :
    (tDerive.kd.disposed = false ∧ tDerive.kd.inst = some tInstance ∧ tInstance.Inv ∧ tDerive.mem.wf = true) ∧
    (tState.kd.inst = none ∧ (wipeKd tState).kd.disposed = true) ∧
    (tInstance.blk.toNat + 1 ≤ 0xFFFFFFFF ∧ tDerive.admits (tDerive.dest 5 (tDerive.num 6)) = true) ∧
    (tRegs [(5, 1018)] tDerive).admits ((tRegs [(5, 1018)] tDerive).dest 5 7) = false ∧
    (0xFFFFFFFF < tLastBlock.blk.toNat + 1 ∧ tLastBlock.Inv) := by
  refine ⟨⟨rfl, rfl, tInstance_inv, by decide +kernel⟩, ⟨rfl, rfl⟩, ⟨by decide, by decide +kernel⟩, by decide +kernel,
    by decide, ?_⟩
  exact
    { tInstance_inv with
      posRange := by decide
      bufferLength := by decide +kernel
      fresh := fun h => absurd h (by decide)
      buffered := fun _ => by simp only [tLastBlock] }
theorem witness_KdDeriveIsPbkdf2 :
    tPassword.halted = false ∧ tPassword.mem.wf = true ∧ (0 : Reg) ≠ 15 ∧ (2 : Reg) ≠ 15 ∧
    (1 : Byte).toNat = HashAlg.sha1.number ∧ 0 < (tPassword.reg 4).toInt ∧ 8 ≤ (tPassword.buf 2).len ∧
    (tPassword.buf 2).len ≤ 32767 ∧ tPassword.admits (tPassword.buf 0) = true ∧
    tPassword.admits (tPassword.buf 2) = true ∧ tPassword.admits (tPassword.dest 5 (tPassword.num 6)) = true := by
  decide +kernel
theorem witness_AesDecryptsItself : (zeros 32).length = 32 ∧ (tCount 16).length = 16 := by decide +kernel
theorem witness_PaddingIsExact :
    tCount 16 ≠ [] ∧ (tCount 16).length % 16 = 0 ∧ pkcsPad (tCount 11) = tCount 11 ++ [5, 5, 5, 5, 5] := by decide
theorem witness_CbcRoundTrip : (zeros 32).length = 32 ∧ (zeros 16).length = 16 := by decide

theorem witness_EvEncWritesEnvelope :
    let s := tSeal
    let past := tRegs [(6, 929)] s
    let lap := tRegs [(6, 95)] s
    ((0 : Reg) ≠ 15 ∧ (2 : Reg) ≠ 15 ∧ (4 : Reg) ≠ 15 ∧ (6 : Reg) ≠ 15) ∧
    ((s.buf 2).len ≠ 0 ∧ 1 ≤ s.evAlg.toNat ∧ s.evAlg.toNat ≤ 4 ∧ 0 < s.evIter.toInt ∧ 8 ≤ s.evSaltsz.toInt ∧
      8 ≤ s.evHsaltsz.toInt ∧ (s.buf 4).len ≤ 0x7FFFFFFF ∧ s.evAlg.toNat = HashAlg.sha256.number ∧
      s.mem.wf = true) ∧
    (s.admits (s.buf 0) = true ∧ s.admits (s.buf 2) = true ∧ s.admits (s.buf 4) = true ∧
      s.admits (s.dest 6 96) = true) ∧
    ((s.dest 6 96).overlaps (s.buf 0) = false ∧ (s.dest 6 96).overlaps (s.buf 2) = false ∧
      (s.dest 6 96).overlaps (s.buf 4) = false) ∧
    past.admits (past.dest 6 96) = false ∧
    (lap.admits (lap.dest 6 96) = true ∧ (lap.dest 6 96).overlaps (lap.buf 2) = true) ∧
    ¬ (8 ≤ { s with evSaltsz := 0x8000 }.evSaltsz.toInt) ∧ 32 + 8 + 8 + 0 + 32 + (11 / 16 + 1) * 16 = 96 := by
  decide +kernel

/-- The state after sealing, its registers set to open the envelope again. -/
def tOpen : State := tEnvelope tEnvelopeBytes

/-- Every check of `EV.DEC` holds on an envelope of this form. -/
theorem tOpen_accepts : tOpen.decAccepts 12 8 2 10 .sha256 := by
  unfold State.decAccepts State.decInputsOk State.decHeaderOk State.decSizesOk EnvelopeHeader.Accepted
    State.decOutputsAdmitted State.decOutputsApart
  decide +kernel

theorem witness_EvDecCheckOrder :
    ((12 : Reg) ≠ 15 ∧ (8 : Reg) ≠ 15 ∧ (2 : Reg) ≠ 15 ∧ (10 : Reg) ≠ 15) ∧
    tOpen.decInputsOk 8 2 ∧ tOpen.decHeaderOk 8 .sha256 ∧ tOpen.decSizesOk 8 10 .sha256 ∧
    tOpen.decOutputsAdmitted 12 8 10 .sha256 ∧
    ((tRegs [(9, 15)] tOpen).buf 8).len < 16 ∧
    (16 ≤ ((tRegs [(8, 929)] tOpen).buf 8).len ∧
      (tRegs [(8, 929)] tOpen).admits ((tRegs [(8, 929)] tOpen).buf 8) = false) ∧
    (∀ alg, ¬ (tOpen.store 256 [2]).decHeaderOk 8 alg) ∧ ¬ (tRegs [(9, 79)] tOpen).decSizesOk 8 10 .sha256 ∧
    ¬ (tRegs [(12, 1009)] tOpen).decOutputsAdmitted 12 8 10 .sha256 ∧
    ¬ (tRegs [(12, 351)] tOpen).decOutputsApart 12 8 2 10 .sha256 := by
  refine ⟨by decide, tOpen_accepts.2.1, tOpen_accepts.2.2.1, tOpen_accepts.2.2.2.1,
    tOpen_accepts.2.2.2.2.1, by decide +kernel, by decide +kernel, fun alg h => ?_, ?_, ?_, ?_⟩
  · exact absurd h.1 (by decide +kernel)
  · unfold State.decSizesOk EnvelopeHeader.Accepted; decide +kernel
  · unfold State.decOutputsAdmitted; decide +kernel
  · unfold State.decOutputsApart; decide +kernel

theorem witness_EnvelopeRoundTrip :
    (tSeal.mem.wf = true ∧ tOpen.mem.wf = true ∧ tSeal.cfg.legal = true ∧
      tSeal.evAlg.toNat = HashAlg.sha256.number) ∧
    (∃ t, exec (.evEnc 6 0 2 4) tSeal = .next t ∧
      (t.load (t.buf 6) == tEnvelopeBytes && t.reg 7 == 96 && t.rngPos == 32 && t.cp == 1) = true) ∧
    ((tOpen.buf 8).len = 96 ∧ tOpen.load (tOpen.buf 8) = tEnvelopeBytes) ∧
    tOpen.load (tOpen.buf 2) = tSeal.load (tSeal.buf 2) ∧
    (tOpen.num 11 = 0 ∨ (tSeal.buf 4).len ≤ tOpen.num 11) ∧ tOpen.decAccepts 12 8 2 10 .sha256 := by
  refine ⟨?_, tNext_exists test_evEnc, ?_, ?_, ?_, tOpen_accepts⟩ <;> decide +kernel

/-- The same with the first byte of the tag, at offset 48, changed. -/
def tTampered : State := tEnvelope (tEnvelopeBytes.set 48 0x19)

theorem tTampered_accepts : tTampered.decAccepts 12 8 2 10 .sha256 := by
  unfold State.decAccepts State.decInputsOk State.decHeaderOk State.decSizesOk EnvelopeHeader.Accepted
    State.decOutputsAdmitted State.decOutputsApart
  decide +kernel

theorem witness_TamperedTagFaults :
    (∃ t, exec (.evEnc 6 0 2 4) tSeal = .next t ∧
      (t.load (t.buf 6) == tEnvelopeBytes && t.reg 7 == 96 && t.rngPos == 32 && t.cp == 1) = true) ∧
    (tEnvelopeBytes.getD 48 0 ≠ 0x19 ∧ (tTampered.buf 8).len = 96 ∧
      tTampered.load (tTampered.buf 8) = tEnvelopeBytes.set 48 0x19) ∧
    (tSeal.mem.wf = true ∧ tTampered.mem.wf = true ∧ tSeal.cfg.legal = true ∧
      tTampered.load (tTampered.buf 2) = tSeal.load (tSeal.buf 2) ∧
      32 + tSeal.evSaltsz.toNat + tSeal.evHsaltsz.toNat + (tSeal.buf 4).len ≤ 48 ∧
      48 < 32 + tSeal.evSaltsz.toNat + tSeal.evHsaltsz.toNat + (tSeal.buf 4).len + HashAlg.sha256.hLen) ∧
    tTampered.decAccepts 12 8 2 10 .sha256 := by
  refine ⟨tNext_exists test_evEnc, ?_, ?_, tTampered_accepts⟩ <;> decide +kernel

/-- Both outcomes of an envelope that passes the checks: it opens, or its tag differs. -/
theorem witness_EvDecOpensOrFaults :
    (tOpen.decAccepts 12 8 2 10 .sha256 ∧ tOpen.mem.wf = true ∧
      ∃ t, exec (.evDec 12 8 2 10) tOpen = .next t ∧ (t.cp == 1 && t.reg 13 == 11) = true) ∧
    tTampered.decAccepts 12 8 2 10 .sha256 ∧ tTampered.mem.wf = true ∧
      ∃ t, exec (.evDec 12 8 2 10) tTampered = .next t ∧ (t.err == some .integrity) = true := by
  refine ⟨⟨tOpen_accepts, ?_, tNext_exists ?_⟩, tTampered_accepts, ?_, tNext_exists ?_⟩ <;> decide +kernel
theorem witness_CtEqualIsEquality : (zeros 20).length = (tCount 20).length := by decide

end Sys2Proof.Tests
end

section
/-! PROOF. What every command ends in: it retires, or it takes one fault (60_exceptions.md R281, R284). -/

namespace Sys2Proof.Machine

open Sys2Proof

/-! ## The two ways a command ends -/

/-- `u` differs from `s` at most in what a command may work on: the operand registers, the writable CSRs, the
units, BUF and the RNG's read position. -/
def KeepsControl (s u : State) : Prop :=
  u = { s with
    x := u.x, scCfg := u.scCfg, evAlg := u.evAlg, evIter := u.evIter, evSaltsz := u.evSaltsz,
    evHsaltsz := u.evHsaltsz, sc := u.sc, b2 := u.b2, kd := u.kd, mem := u.mem, rngPos := u.rngPos }

/-- What a fault `f` of the command `i` may have left in BUF: all as it was, but for the metadata destination of
`EV.DEC` on an `IntegrityFault` (10_state.md R13, 46_envelope.md R262). -/
def FaultLeaves (i : Instr) (s : State) (f : Trap) (m : Memory) : Prop :=
  (f ≠ .integrity ∨ (∀ rd ra rb rc, i ≠ .evDec rd ra rb rc) → m = s.mem) ∧
    ∀ rd ra rb rc, i = .evDec rd ra rb rc →
      ∀ a, (s.metadataOut ra rc).contains a = false → m.readByte a = s.mem.readByte a

/-- The result `r` of the command `i` from `s` is a next state, retired or with one fault taken. -/
def RetiresOrFaults (i : Instr) (s : State) (r : Result) : Prop :=
  ∃ t, r = .next t ∧
    (Retired s t ∨
      ∃ f : Trap, t = { s with err := some f, errcp := s.cp, errcmd := encode i, queue := [], mem := t.mem } ∧
        FaultLeaves i s f t.mem)

theorem KeepsControl.setReg {s u : State} (h : KeepsControl s u) (r : Reg) (v : Word) :
    KeepsControl s (u.setReg r v) := by
  unfold KeepsControl at h ⊢
  rw [h]
  rfl

theorem KeepsControl.store {s u : State} (h : KeepsControl s u) (a : Nat) (v : Bytes) :
    KeepsControl s (u.store a v) := by
  unfold KeepsControl at h ⊢
  rw [h]
  rfl

theorem KeepsControl.ite {s u v : State} {c : Prop} [Decidable c] (hu : KeepsControl s u) (hv : KeepsControl s v) :
    KeepsControl s (if c then u else v) := by
  split
  · exact hu
  · exact hv

theorem retired_of_keepsControl {s u : State} (h : KeepsControl s u) : Retired s { u with cp := u.cp + 1 } := by
  unfold KeepsControl at h
  rw [h]
  exact ⟨rfl, rfl, rfl, rfl, rfl, rfl, rfl, rfl⟩

/-- A legal write of a CSR touches that CSR, and with `SC_CFG` the SC unit (R37, R105). -/
theorem csrStore_keepsControl {s t : State} {v : Word} {csr : Csr} (h : csrStore s v csr = some t) :
    KeepsControl s t := by
  cases csr with
  | scCfg | evAlg | evSaltsz | evHsaltsz =>
    obtain ⟨c, -, rfl⟩ := Option.map_eq_some_iff.1 h
    rfl
  | evIter =>
    obtain rfl := Option.some.inj h
    rfl
  | id | status | err | errcp | errcmd | cp => cases h

section
variable {i : Instr} {s u : State}

theorem retire_retiresOrFaults (h : KeepsControl s u) : RetiresOrFaults i s (retire u) :=
  ⟨_, rfl, .inl (retired_of_keepsControl h)⟩

theorem raise_retiresOrFaults (f : Trap) : RetiresOrFaults i s (raise f (encode i) s) :=
  ⟨_, rfl, .inr ⟨f, rfl, fun _ => rfl, fun _ _ _ _ _ _ _ => rfl⟩⟩

theorem checked_retiresOrFaults {cs : List Check} {k : Unit → Result}
    (h : firstFault cs = none → RetiresOrFaults i s (k ())) :
    RetiresOrFaults i s (checked (encode i) s cs k) := by
  obtain ⟨hpass, hk⟩ | ⟨f, -, hf⟩ := checked_cases (encode i) s cs k
  · rw [hk]
    exact h hpass
  · rw [hf]
    exact raise_retiresOrFaults f

/-- A command that only retires once its checks hold. -/
theorem checked_retire_retiresOrFaults {cs : List Check} (h : KeepsControl s u) :
    RetiresOrFaults i s (checked (encode i) s cs fun _ => retire u) :=
  checked_retiresOrFaults fun _ => retire_retiresOrFaults h

end

/-! ## Commands that decide more after their first checks -/

theorem execCsrw_retiresOrFaults (csr : Csr) (ra : Reg) (s : State) :
    RetiresOrFaults (.csrw csr ra) s (execCsrw csr ra s) := by
  unfold execCsrw
  refine checked_retiresOrFaults fun _ => ?_
  split
  next => exact raise_retiresOrFaults _
  next t ht => exact retire_retiresOrFaults (csrStore_keepsControl ht)

theorem execHmMac_retiresOrFaults (rd ra rb : Reg) (imm : Byte) (s : State) :
    RetiresOrFaults (.hmMac rd ra rb imm) s (execHmMac rd ra rb imm s) := by
  unfold execHmMac
  refine checked_retiresOrFaults fun _ => ?_
  dsimp only
  split
  next => exact raise_retiresOrFaults _
  next alg _ => exact checked_retire_retiresOrFaults rfl

theorem execKdInit_retiresOrFaults (ra rb rc : Reg) (imm : Byte) (s : State) :
    RetiresOrFaults (.kdInit ra rb rc imm) s (execKdInit ra rb rc imm s) := by
  unfold execKdInit
  refine checked_retiresOrFaults fun _ => ?_
  split
  next => exact raise_retiresOrFaults _
  next alg _ => exact checked_retire_retiresOrFaults rfl

theorem execKdGet_retiresOrFaults (rd ra : Reg) (s : State) :
    RetiresOrFaults (.kdGet rd ra) s (execKdGet rd ra s) := by
  unfold execKdGet
  refine checked_retiresOrFaults fun _ => ?_
  dsimp only
  split
  next => exact raise_retiresOrFaults _
  next k _ => exact checked_retire_retiresOrFaults rfl

/-- The three draws move the RNG's read position alone (R300). -/
theorem drawSalts_keepsControl (s : State) (ss hs : Nat) : KeepsControl s (drawSalts s ss hs).2.2.2 := by
  rw [drawSalts_eq]
  rfl

theorem execEvEnc_retiresOrFaults (rd ra rb rc : Reg) (s : State) :
    RetiresOrFaults (.evEnc rd ra rb rc) s (execEvEnc rd ra rb rc s) := by
  unfold execEvEnc
  refine checked_retiresOrFaults fun _ => ?_
  dsimp only
  split
  next => exact raise_retiresOrFaults _
  next alg _ => exact checked_retire_retiresOrFaults (((drawSalts_keepsControl s _ _).store _ _).setReg _ _)

/-! ## EV.DEC: the metadata is copied out before the tag is checked -/

theorem length_slice_le (b : Bytes) (i j : Nat) : (slice b i j).length ≤ j - i := List.length_take_le _ _

theorem slice_take (b : Bytes) {i j n : Nat} (h : j ≤ n) : slice (b.take n) i j = slice b i j := by
  rw [slice, slice, List.drop_take, List.take_take, min_eq_left (by omega)]

/-- A header is read from the first 16 bytes alone (R250). -/
theorem parseHeader_take (b : Bytes) : parseHeader (b.take 16) = parseHeader b := by
  simp [parseHeader, slice_take]

theorem Memory.take_read (m : Memory) (a : Nat) {k n : Nat} (h : k ≤ n) : (m.read a n).take k = m.read a k := by
  induction k generalizing a n with
  | zero => rfl
  | succ k ih =>
    obtain ⟨n, rfl⟩ := Nat.exists_eq_add_of_lt h
    simp only [Memory.read, List.take_succ_cons]
    rw [ih _ (by omega)]

/-- The header `EV.DEC` parses from 16 loaded bytes is the header of the whole envelope (R262, check 4). -/
theorem parseHeader_load {s : State} {ra : Reg} (h : 16 ≤ (s.buf ra).len) :
    parseHeader (s.load ⟨(s.buf ra).addr, 16⟩) = s.envelopeHeader ra := by
  rw [State.envelopeHeader, ← parseHeader_take (s.load (s.buf ra))]
  exact congrArg parseHeader (Memory.take_read _ _ h).symm

theorem length_metadata_le (b : Bytes) (ss hs ms tagLen : Nat) :
    (splitEnvelope b ss hs ms tagLen).metadata.length ≤ ms := by
  have := length_slice_le b (32 + ss + hs) (32 + ss + hs + ms)
  rwa [Nat.add_sub_cancel_left] at this

/-- The metadata destination, as the command computes it (R262, checks 7 and 8). -/
theorem dest_eq_metadataOut (s : State) (ra rc : Reg) :
    s.dest rc (if s.num (Reg.next rc) ≠ 0 then (s.envelopeHeader ra).metadataSize.toNat else 0) =
      s.metadataOut ra rc := by
  simp only [State.dest, State.metadataOut, ite_not]

theorem metadataOut_len_of_ne_zero {s : State} {ra rc : Reg} (h : (s.metadataOut ra rc).len ≠ 0) :
    (s.metadataOut ra rc).len = (s.envelopeHeader ra).metadataSize.toNat := by
  simp only [State.metadataOut] at h ⊢
  split
  next hz => exact absurd (if_pos hz) h
  next => rfl

/-- Copying the metadata out changes BUF alone, and there at most the metadata destination. -/
theorem copyMetadata_cases (s : State) (ra rc : Reg) {v : Bytes}
    (hv : v.length ≤ (s.envelopeHeader ra).metadataSize.toNat) :
    ∃ m, (if (s.metadataOut ra rc).len ≠ 0 then s.store (s.metadataOut ra rc).addr v else s) = { s with mem := m } ∧
      ∀ a, (s.metadataOut ra rc).contains a = false → m.readByte a = s.mem.readByte a := by
  by_cases h : (s.metadataOut ra rc).len ≠ 0
  · refine ⟨_, if_pos h, fun a ha => Memory.readByte_write_outside _ _ ?_⟩
    have hlen := metadataOut_len_of_ne_zero h
    simp only [Range.contains, Bool.and_eq_false_iff, decide_eq_false_iff_not] at ha
    omega
  · exact ⟨s.mem, if_neg h, fun _ _ => rfl⟩

/-- The fault of a tag or padding that does not agree, with the metadata destination written or not. -/
theorem raise_integrity_retiresOrFaults {rd ra rb rc : Reg} {s : State} {m : Memory}
    (h : ∀ a, (s.metadataOut ra rc).contains a = false → m.readByte a = s.mem.readByte a) :
    RetiresOrFaults (.evDec rd ra rb rc) s
      (raise .integrity (encode (.evDec rd ra rb rc)) { s with mem := m }) := by
  refine ⟨_, rfl, .inr ⟨.integrity, rfl, ?_, ?_⟩⟩
  · rintro (hne | hdec)
    · exact absurd rfl hne
    · exact absurd rfl (hdec rd ra rb rc)
  · rintro _ _ _ _ ⟨⟩
    exact h

theorem execEvDec_retiresOrFaults (rd ra rb rc : Reg) (s : State) :
    RetiresOrFaults (.evDec rd ra rb rc) s (execEvDec rd ra rb rc s) := by
  unfold execEvDec
  refine checked_retiresOrFaults fun hpass => ?_
  have hargs := firstFault_eq_none.1 hpass _ (.tail _ (.head _))
  have hlen : 16 ≤ (s.buf ra).len := by
    simp only [needArgument, Bool.and_eq_true, decide_eq_true_eq] at hargs
    exact hargs.2
  simp only [parseHeader_load hlen, dest_eq_metadataOut]
  split
  next => exact raise_retiresOrFaults _
  next alg _ =>
    refine checked_retiresOrFaults fun _ => ?_
    obtain ⟨m, hcopy, hframe⟩ := copyMetadata_cases s ra rc (length_metadata_le (s.load (s.buf ra))
      (s.envelopeHeader ra).saltSize.toNat (s.envelopeHeader ra).hashSaltSize.toNat _ alg.hLen)
    rw [hcopy]
    split
    next => exact raise_integrity_retiresOrFaults hframe
    next pt _ =>
      have hcopied : KeepsControl s { s with mem := m } := rfl
      have hstored := hcopied.store (s.num rd) pt
      exact retire_retiresOrFaults (((hstored.setReg _ _).ite hstored).setReg _ _)

/-! ## All commands -/

theorem exec_retiresOrFaults (i : Instr) (s : State) : RetiresOrFaults i s (exec i s) := by
  cases i with
  | nop | setlo | sethi | mov | csrr | wipe | scWipe | b2Wipe | kdWipe => exact retire_retiresOrFaults rfl
  | scKey | scNonce | scBlock | scXor | scKs | b2Init | b2Update | b2Final =>
    exact checked_retire_retiresOrFaults rfl
  | csrw csr ra => exact execCsrw_retiresOrFaults csr ra s
  | hmMac rd ra rb imm => exact execHmMac_retiresOrFaults rd ra rb imm s
  | kdInit ra rb rc imm => exact execKdInit_retiresOrFaults ra rb rc imm s
  | kdGet rd ra => exact execKdGet_retiresOrFaults rd ra s
  | evEnc rd ra rb rc => exact execEvEnc_retiresOrFaults rd ra rb rc s
  | evDec rd ra rb rc => exact execEvDec_retiresOrFaults rd ra rb rc s

/-- Settles O13: `RetiresOrFaults` of every command is the statement, read with its names unfolded. -/
theorem commandRetiresOrFaults : Obligations.CommandRetiresOrFaults := exec_retiresOrFaults

end Sys2Proof.Machine
end

section
/-! PROOF. The quarter rounds of ChaCha and Salsa, word by word (41_stream_cipher.md R121, R123). -/

namespace Sys2Proof.Machine

open Sys2Proof

/-- A vector of words with word `i` written, read at any word. -/
theorem getElem_set_word (w : Vector Word 16) (i j : Fin 16) (v : Word) :
    (w.set i v)[j] = if j = i then v else w[j] := by
  simp only [Fin.getElem_fin, Vector.getElem_set, Fin.ext_iff, eq_comm]

/-- Half of a ChaCha quarter round: the four add-xor-rotate operations with the distances `m` and `n`. -/
def chachaHalf (m n : Nat) (w : Vector Word 16) (a b c d : Fin 16) : Vector Word 16 :=
  let w := w.set a (w[a] + w[b])
  let w := w.set d ((w[d] ^^^ w[a]).rotateLeft m)
  let w := w.set c (w[c] + w[d])
  w.set b ((w[b] ^^^ w[c]).rotateLeft n)

theorem chachaQuarter_eq_halves (w : Vector Word 16) (a b c d : Fin 16) :
    chachaQuarter w a b c d = chachaHalf 8 7 (chachaHalf 16 12 w a b c d) a b c d := rfl

section
variable {a b c d : Fin 16}

theorem ne_of_nodup_four (h : [a, b, c, d].Nodup) :
    a ≠ b ∧ a ≠ c ∧ a ≠ d ∧ b ≠ a ∧ b ≠ c ∧ b ≠ d ∧ c ≠ a ∧ c ≠ b ∧ c ≠ d ∧ d ≠ a ∧ d ≠ b ∧ d ≠ c := by
  simp only [List.nodup_cons, List.mem_cons, not_or] at h
  obtain ⟨⟨hab, hac, had, -⟩, ⟨hbc, hbd, -⟩, ⟨hcd, -⟩, -⟩ := h
  exact ⟨hab, hac, had, Ne.symm hab, hbc, hbd, Ne.symm hac, Ne.symm hbc, hcd, Ne.symm had, Ne.symm hbd,
    Ne.symm hcd⟩

theorem getElem_chachaHalf (h : [a, b, c, d].Nodup) (m n : Nat) (w : Vector Word 16) (j : Fin 16) :
    let a1 := w[a] + w[b]
    let d1 := (w[d] ^^^ a1).rotateLeft m
    let c1 := w[c] + d1
    let b1 := (w[b] ^^^ c1).rotateLeft n
    (chachaHalf m n w a b c d)[j] =
      if j = a then a1 else if j = b then b1 else if j = c then c1 else if j = d then d1 else w[j] := by
  simp only [chachaHalf, getElem_set_word, ne_of_nodup_four h, if_true, if_false]
  -- The four places are distinct, so the order in which they are asked for does not matter.
  split_ifs <;> simp_all

theorem getElem_chachaQuarter (h : [a, b, c, d].Nodup) (w : Vector Word 16) (j : Fin 16) :
    let a1 := w[a] + w[b]
    let d1 := (w[d] ^^^ a1).rotateLeft 16
    let c1 := w[c] + d1
    let b1 := (w[b] ^^^ c1).rotateLeft 12
    let a2 := a1 + b1
    let d2 := (d1 ^^^ a2).rotateLeft 8
    let c2 := c1 + d2
    let b2 := (b1 ^^^ c2).rotateLeft 7
    (chachaQuarter w a b c d)[j] =
      if j = a then a2 else if j = b then b2 else if j = c then c2 else if j = d then d2 else w[j] := by
  intro a1 d1 c1 b1 a2 d2 c2 b2
  have hfirst := getElem_chachaHalf h 16 12 w
  rw [chachaQuarter_eq_halves, getElem_chachaHalf h]
  generalize chachaHalf 16 12 w a b c d = v at hfirst ⊢
  have ha : v[a] = a1 := by simp only [hfirst, if_true, a1]
  have hb : v[b] = b1 := by simp only [hfirst, ne_of_nodup_four h, if_true, if_false, a1, b1, c1, d1]
  have hc : v[c] = c1 := by simp only [hfirst, ne_of_nodup_four h, if_true, if_false, a1, c1, d1]
  have hd : v[d] = d1 := by simp only [hfirst, ne_of_nodup_four h, if_true, if_false, a1, d1]
  rw [ha, hb, hc, hd, hfirst]
  split_ifs <;> rfl

theorem getElem_salsaQuarter (h : [a, b, c, d].Nodup) (w : Vector Word 16) (j : Fin 16) :
    let b1 := w[b] ^^^ (w[a] + w[d]).rotateLeft 7
    let c1 := w[c] ^^^ (b1 + w[a]).rotateLeft 9
    let d1 := w[d] ^^^ (c1 + b1).rotateLeft 13
    let a1 := w[a] ^^^ (d1 + c1).rotateLeft 18
    (salsaQuarter w a b c d)[j] =
      if j = a then a1 else if j = b then b1 else if j = c then c1 else if j = d then d1 else w[j] := by
  simp only [salsaQuarter, getElem_set_word, ne_of_nodup_four h, if_true, if_false]
  split_ifs <;> simp_all

end

/-- Settles O37: a rotation by a literal distance computes to the two shifts of R11. -/
theorem quarterRoundWords : Obligations.QuarterRoundWords := by
  unfold Obligations.QuarterRoundWords
  intro w a b c d h rotl
  exact ⟨getElem_chachaQuarter h w, getElem_salsaQuarter h w⟩

end Sys2Proof.Machine
end

section
/-! PROOF. The decoder and the encoder are inverse (30_encoding.md R81, R87): what the runs of queued words need. -/

namespace Sys2Proof

/-! ## The word of a command decodes to that command -/

/-- The word of a command has the fixed bits of its row (R87). -/
theorem encode_fixedBits (i : Instr) : encode i &&& i.op.mask = i.op.fixedBits := by
  open Laws.EncodeFixedBits in
  cases i with
  | nop => exact nop
  | setlo rd imm => exact setlo rd imm
  | sethi rd imm => exact sethi rd imm
  | mov rd ra => exact mov rd ra
  | csrr rd csr => exact csrr rd csr
  | csrw csr ra => exact csrw csr ra
  | wipe => exact wipe
  | scKey ra => exact scKey ra
  | scNonce ra rb => exact scNonce ra rb
  | scBlock rd => exact scBlock rd
  | scXor rd ra => exact scXor rd ra
  | scKs rd ra => exact scKs rd ra
  | scWipe => exact scWipe
  | b2Init ra rb rc imm => exact b2Init ra rb rc imm
  | b2Update ra => exact b2Update ra
  | b2Final rd => exact b2Final rd
  | b2Wipe => exact b2Wipe
  | hmMac rd ra rb imm => exact hmMac rd ra rb imm
  | kdInit ra rb rc imm => exact kdInit ra rb rc imm
  | kdGet rd ra => exact kdGet rd ra
  | kdWipe => exact kdWipe
  | evEnc rd ra rb rc => exact evEnc rd ra rb rc
  | evDec rd ra rb rc => exact evDec rd ra rb rc

@[simp] theorem Op.ofCode_code (o : Op) : Op.ofCode o.code = some o := by cases o <;> rfl

theorem Op.eq_code_of_ofCode {c : BitVec 8} {o : Op} (h : Op.ofCode c = some o) : c = o.code := by
  unfold Op.ofCode at h
  split at h <;> cases h <;> rfl

@[simp] theorem Csr.ofNumber_number (c : Csr) : Csr.ofNumber c.number = some c := by cases c <;> rfl

theorem Csr.eq_number_of_ofNumber {n : BitVec 12} {c : Csr} (h : Csr.ofNumber n = some c) : n = c.number := by
  unfold Csr.ofNumber at h
  split at h <;> cases h <;> rfl

/-- A word with the fixed bits of a row has its opcode. -/
theorem opField_of_fixedBits {w : Word} {o : Op} (h : w &&& o.mask = o.fixedBits) : opField w = o.code := by
  have hop := congrArg opField h
  simp only [opField, BitVec.extractLsb'_and] at hop ⊢
  have hmask : o.mask.extractLsb' 24 8 = BitVec.allOnes 8 := by cases o <;> rfl
  have hfixed : o.fixedBits.extractLsb' 24 8 = o.code := by cases o <;> rfl
  rwa [hmask, hfixed, BitVec.and_allOnes] at hop

section
variable (o : Op) (ra rb rc rd : Reg) (imm8 : Byte) (imm16 : Half) (n : BitVec 12)

/-- The fields of a word of format R (R81). -/
theorem fields_formatR :
    raField (formatR o ra rb rc rd imm8) = ra ∧ rbField (formatR o ra rb rc rd imm8) = rb ∧
      rcField (formatR o ra rb rc rd imm8) = rc ∧ rdField (formatR o ra rb rc rd imm8) = rd ∧
      imm8Field (formatR o ra rb rc rd imm8) = imm8 := by
  refine ⟨?_, ?_, ?_, ?_, ?_⟩ <;> refine BitVec.eq_of_getLsbD_eq fun k hk => ?_ <;>
    simp only [raField, rbField, rcField, rdField, imm8Field, formatR, BitVec.getLsbD_extractLsb',
      BitVec.getLsbD_append] <;> interval_cases k <;> simp

/-- The fields of a word of format I (R81). -/
theorem fields_formatI : raField (formatI o rd imm16) = rd ∧ imm16Field (formatI o rd imm16) = imm16 := by
  constructor <;> refine BitVec.eq_of_getLsbD_eq fun k hk => ?_ <;>
    simp only [raField, imm16Field, formatI, BitVec.getLsbD_extractLsb', BitVec.getLsbD_append] <;>
    interval_cases k <;> simp

/-- The fields of a word of format C (R81). -/
theorem fields_formatC : raField (formatC o ra n) = ra ∧ csrField (formatC o ra n) = n := by
  constructor <;> refine BitVec.eq_of_getLsbD_eq fun k hk => ?_ <;>
    simp only [raField, csrField, formatC, BitVec.getLsbD_extractLsb', BitVec.getLsbD_append] <;>
    interval_cases k <;> simp

end

/-- The operands of a command are read back from its word (R81, R87). -/
theorem readFields_encode (i : Instr) : readFields i.op (encode i) = .ok i := by
  cases i <;> simp [Instr.op, readFields, encode, fields_formatR, fields_formatI, fields_formatC]

/-- The word of a well-formed command decodes to it. -/
theorem decode_encode {i : Instr} (h : i.wf = true) : decode (encode i) = .ok i := by
  obtain ⟨hpairs, hcsr⟩ : i.pairsOk = true ∧ i.csrOk = true := by simpa [Instr.wf] using h
  have hfixed := encode_fixedBits i
  simp [decode, opField_of_fixedBits hfixed, hfixed, readFields_encode, hpairs, hcsr]

/-! ## A word that decodes is the word of its command -/

/-- What a word that decodes went through: its row, the fixed bits, the operands, and the checks of R88. -/
theorem decode_eq_ok {w : Word} {i : Instr} (h : decode w = .ok i) :
    ∃ o : Op, w &&& o.mask = o.fixedBits ∧ readFields o w = .ok i ∧ i.wf = true := by
  unfold decode at h
  split at h
  next => cases h
  next o _ =>
    split at h
    next => cases h
    next hfixed =>
      split at h
      next => cases h
      next j hread =>
        split at h
        next => cases h
        next hpairs =>
          split at h
          next => cases h
          next hcsr =>
            cases h
            exact ⟨o, not_not.1 hfixed, hread, by simp_all [Instr.wf]⟩

section
variable {w : Word} {o : Op}

/-- A word is put together from its opcode and the fields of format R (R81). -/
theorem formatR_of_fields {ra rb rc rd : Reg} {imm : Byte} (h : opField w = o.code) (hra : ra = raField w)
    (hrb : rb = rbField w) (hrc : rc = rcField w) (hrd : rd = rdField w) (himm : imm = imm8Field w) :
    formatR o ra rb rc rd imm = w := by
  rw [formatR, ← h, hra, hrb, hrc, hrd, himm]
  refine BitVec.eq_of_getLsbD_eq fun k hk => ?_
  simp only [opField, raField, rbField, rcField, rdField, imm8Field, BitVec.getLsbD_append,
    BitVec.getLsbD_extractLsb']
  interval_cases k <;> simp

/-- A word whose bits 19 to 16 are 0 is put together from its opcode and the fields of format I (R81). -/
theorem formatI_of_fields (h : opField w = o.code) (hz : 0#4 = w.extractLsb' 16 4) :
    formatI o (raField w) (imm16Field w) = w := by
  rw [formatI, ← h, hz]
  refine BitVec.eq_of_getLsbD_eq fun k hk => ?_
  simp only [opField, raField, imm16Field, BitVec.getLsbD_append, BitVec.getLsbD_extractLsb']
  interval_cases k <;> simp

/-- A word whose bits 19 to 12 are 0 is put together from its opcode and the fields of format C (R81). -/
theorem formatC_of_fields (h : opField w = o.code) (hz : 0#8 = w.extractLsb' 12 8) :
    formatC o (raField w) (csrField w) = w := by
  rw [formatC, ← h, hz]
  refine BitVec.eq_of_getLsbD_eq fun k hk => ?_
  simp only [opField, raField, csrField, BitVec.getLsbD_append, BitVec.getLsbD_extractLsb']
  interval_cases k <;> simp

/-- Bits that a row's mask fixes are those of the fixed bits. -/
theorem extract_of_fixedBits (h : w &&& o.mask = o.fixedBits) (start len : Nat)
    (hmask : o.mask.extractLsb' start len = BitVec.allOnes len) :
    o.fixedBits.extractLsb' start len = w.extractLsb' start len := by
  rw [← h, BitVec.extractLsb'_and, hmask, BitVec.and_allOnes]

end

/-- A word whose operands were read as those of a command is the word of that command (R81, R87). -/
theorem encode_of_readFields {w : Word} {o : Op} {i : Instr} (h : w &&& o.mask = o.fixedBits)
    (hread : readFields o w = .ok i) : encode i = w := by
  have hop := opField_of_fixedBits h
  have hbits := extract_of_fixedBits h
  cases o with
  | nop | wipe | scWipe | b2Wipe | kdWipe =>
    cases hread
    exact h.symm.trans BitVec.and_allOnes
  | setlo | sethi =>
    cases hread
    exact formatI_of_fields hop (hbits 16 4 rfl)
  | csrr | csrw =>
    simp only [readFields] at hread
    split at hread
    next c hc =>
      cases hread
      rw [encode, ← Csr.eq_number_of_ofNumber hc]
      exact formatC_of_fields hop (hbits 12 8 rfl)
    next => cases hread
  | mov | scXor | scKs | kdGet =>
    cases hread
    exact formatR_of_fields hop rfl (hbits 16 4 rfl) (hbits 12 4 rfl) rfl (hbits 0 8 rfl)
  | scKey | b2Update =>
    cases hread
    exact formatR_of_fields hop rfl (hbits 16 4 rfl) (hbits 12 4 rfl) (hbits 8 4 rfl) (hbits 0 8 rfl)
  | scNonce =>
    cases hread
    exact formatR_of_fields hop rfl rfl (hbits 12 4 rfl) (hbits 8 4 rfl) (hbits 0 8 rfl)
  | scBlock | b2Final =>
    cases hread
    exact formatR_of_fields hop (hbits 20 4 rfl) (hbits 16 4 rfl) (hbits 12 4 rfl) rfl (hbits 0 8 rfl)
  | b2Init | kdInit =>
    cases hread
    exact formatR_of_fields hop rfl rfl rfl (hbits 8 4 rfl) rfl
  | hmMac =>
    cases hread
    exact formatR_of_fields hop rfl rfl (hbits 12 4 rfl) rfl rfl
  | evEnc | evDec =>
    cases hread
    exact formatR_of_fields hop rfl rfl rfl rfl (hbits 0 8 rfl)

/-- A word that decodes is the word of its command. -/
theorem encode_of_decode {w : Word} {i : Instr} (h : decode w = .ok i) : encode i = w := by
  obtain ⟨_, hfixed, hread, -⟩ := decode_eq_ok h
  exact encode_of_readFields hfixed hread

end Sys2Proof
end

section
/-! PROOF. All that a command can do: what it passes to fault entry, and what it makes of the state before `cp`
moves on (10_state.md R13, R24). -/

namespace Sys2Proof.Machine

open Sys2Proof

/-- What `EV.DEC` copies to its metadata destination: nothing when that destination is empty (R262). -/
def State.copiedMetadata (s : State) (ra rc : Reg) (alg : HashAlg) : Bytes :=
  if (s.metadataOut ra rc).len ≠ 0 then (s.envelopeBody ra alg).metadata else []

/-- The state after `EV.DEC` has copied the metadata out, tag not yet checked (R262). -/
def State.withMetadata (s : State) (ra rc : Reg) (alg : HashAlg) : State :=
  s.store (s.metadataOut ra rc).addr (s.copiedMetadata ra rc alg)

/-- The plaintext `EV.DEC` finds, none when tag or padding do not agree (R262, R264). -/
def State.opened (s : State) (ra rb : Reg) (alg : HashAlg) : Option Bytes :=
  openEnvelope alg (s.envelopeHeader ra).iterations.toNat (s.load (s.buf rb)) (s.envelopeBody ra alg)

/-- The envelope `EV.ENC` writes (R256). -/
def State.sealed (s : State) (ra rb rc : Reg) (alg : HashAlg) : Bytes :=
  let r := drawSalts s s.evSaltsz.toNat s.evHsaltsz.toNat
  sealEnvelope ⟨alg, s.evIter, s.load (s.buf rb), s.load (s.buf ra), s.load (s.buf rc), r.1, r.2.1, r.2.2.1⟩

/-- The destination of `EV.ENC` (R256). -/
def State.envelopeOut (s : State) (rd ra rc : Reg) (alg : HashAlg) : Range :=
  s.dest rd (envelopeLen s.evSaltsz.toNat s.evHsaltsz.toNat (s.buf rc).len alg.hLen (cipherLen (s.buf ra).len))

/-- `Effect s i u`: the command `i` passes its checks in the state `s` and makes `u` of it, before `cp` moves on. What
the checks found stands before the result; the pair check, which the decoder has made (R88), is named for `EV.DEC`
alone. -/
inductive Effect (s : State) : Instr → State → Prop
  | nop : Effect s .nop s
  | setlo (rd : Reg) (imm : Half) : Effect s (.setlo rd imm) (s.setReg rd (imm.setWidth 32))
  | sethi (rd : Reg) (imm : Half) :
      Effect s (.sethi rd imm) (s.setReg rd (imm ++ (s.reg rd).extractLsb' 0 16))
  | mov (rd ra : Reg) : Effect s (.mov rd ra) (s.setReg rd (s.reg ra))
  | csrr (rd : Reg) (csr : Csr) : Effect s (.csrr rd csr) (s.setReg rd (csrValue true s csr))
  | csrw {csr : Csr} {ra : Reg} {u : State} (stored : csrStore s (s.reg ra) csr = some u) : Effect s (.csrw csr ra) u
  | wipe : Effect s .wipe (wipeKd (wipeB2 (wipeSc s)))
  | scKey {ra : Reg} (length : (s.buf ra).len = 16 ∨ (s.buf ra).len = 32) (admitted : s.admits (s.buf ra) = true) :
      Effect s (.scKey ra) { s with sc := ⟨keyedState s.scCfg.variant (s.load (s.buf ra)), true, false⟩ }
  | scNonce {ra rb : Reg} (keyed : s.sc.keyed = true)
      (length : nonceLengthOk s.scCfg.variant (s.buf ra).len = true) (admitted : s.admits (s.buf ra) = true) :
      Effect s (.scNonce ra rb)
        { s with sc := { s.sc with
            cs := loadNonce s.scCfg.variant (s.load (s.buf ra)) (s.reg rb) s.sc.cs, nonced := true } }
  | scBlock {rd : Reg} (ready : s.scReady = true) (admitted : s.admits (s.dest rd 64) = true) :
      Effect s (.scBlock rd) ((advanceSc s 64).store (s.num rd) (keystreamBytes s 64))
  | scXor {rd ra : Reg} (ready : s.scReady = true)
      (admitted : s.admits (s.buf ra) = true ∧ s.admits (s.dest rd (s.buf ra).len) = true)
      (apart : s.dest rd (s.buf ra).len = s.buf ra ∨ (s.dest rd (s.buf ra).len).overlaps (s.buf ra) = false) :
      Effect s (.scXor rd ra) ((advanceSc s (s.buf ra).len).store (s.num rd)
        (xorBytes (s.load (s.buf ra)) (keystreamBytes s (s.buf ra).len)))
  | scKs {rd ra : Reg} (ready : s.scReady = true) (admitted : s.admits (s.dest rd (s.num ra)) = true) :
      Effect s (.scKs rd ra) ((advanceSc s (s.num ra)).store (s.num rd) (keystreamBytes s (s.num ra)))
  | scWipe : Effect s .scWipe (wipeSc s)
  | b2Init {ra rb rc : Reg} {imm : Byte} (outlen : 1 ≤ imm.toNat ∧ imm.toNat ≤ b2OutMax)
      (keyLength : (s.buf ra).len ≤ b2KeyMax) (saltLength : (s.buf rb).len = 0 ∨ (s.buf rb).len = 16)
      (persLength : (s.buf rc).len = 0 ∨ (s.buf rc).len = 16)
      (admitted : s.admits (s.buf ra) = true ∧ s.admits (s.buf rb) = true ∧ s.admits (s.buf rc) = true) :
      Effect s (.b2Init ra rb rc imm)
        { s with b2 := blakeInit imm (s.load (s.buf ra)) (s.load (s.buf rb)) (s.load (s.buf rc)) }
  | b2Update {ra : Reg} (ready : s.b2.ready = true) (admitted : s.admits (s.buf ra) = true) :
      Effect s (.b2Update ra) { s with b2 := blakeAbsorb s.b2 (s.load (s.buf ra)) }
  | b2Final {rd : Reg} (ready : s.b2.ready = true) (admitted : s.admits (s.dest rd s.b2.outlen) = true) :
      Effect s (.b2Final rd)
        ({ s with b2 := blakeDone (blakeLast s.b2) }.store (s.num rd) (blakeDigest (blakeLast s.b2)))
  | b2Wipe : Effect s .b2Wipe (wipeB2 s)
  | hmMac {rd ra rb : Reg} {imm : Byte} {alg : HashAlg} (supported : hashAlgOf imm.toNat = some alg)
      (admitted : s.admits (s.buf ra) = true ∧ s.admits (s.buf rb) = true ∧ s.admits (s.dest rd alg.hLen) = true)
      (apart : (s.dest rd alg.hLen).overlaps (s.buf ra) = false ∧ (s.dest rd alg.hLen).overlaps (s.buf rb) = false) :
      Effect s (.hmMac rd ra rb imm) (s.store (s.num rd) (hmac alg (s.load (s.buf ra)) (s.load (s.buf rb))))
  | kdInit {ra rb rc : Reg} {imm : Byte} {alg : HashAlg} (supported : hashAlgOf imm.toNat = some alg)
      (iterations : 0 < (s.reg rc).toInt) (saltLength : 8 ≤ (s.buf rb).len ∧ (s.buf rb).len ≤ kdSaltMax)
      (admitted : s.admits (s.buf ra) = true ∧ s.admits (s.buf rb) = true) :
      Effect s (.kdInit ra rb rc imm)
        { s with kd := ⟨some (kdStart alg (s.load (s.buf ra)) (s.load (s.buf rb)) (s.reg rc).toNat), false⟩ }
  | kdGet {rd ra : Reg} {k : KdInstance} (undisposed : s.kd.disposed = false) (active : s.kd.inst = some k)
      (index : k.blk.toNat + kdNeed k (s.num ra) ≤ 0xFFFFFFFF) (admitted : s.admits (s.dest rd (s.num ra)) = true) :
      Effect s (.kdGet rd ra)
        ({ s with kd := { s.kd with inst := some (kdTake k (kdNeed k (s.num ra)) (s.num ra)).2 } }.store (s.num rd)
          (kdTake k (kdNeed k (s.num ra)) (s.num ra)).1)
  | kdWipe : Effect s .kdWipe (wipeKd s)
  | evEnc {rd ra rb rc : Reg} {alg : HashAlg} (supported : hashAlgOf s.evAlg.toNat = some alg)
      (key : (s.buf rb).len ≠ 0) (iterations : 0 < s.evIter.toInt) (saltSize : 8 ≤ s.evSaltsz.toInt)
      (hashSaltSize : 8 ≤ s.evHsaltsz.toInt) (metadata : (s.buf rc).len ≤ 0x7FFFFFFF)
      (inputs : s.admits (s.buf ra) = true ∧ s.admits (s.buf rb) = true ∧ s.admits (s.buf rc) = true)
      (admitted : s.admits (s.envelopeOut rd ra rc alg) = true)
      (apart : (s.envelopeOut rd ra rc alg).overlaps (s.buf ra) = false ∧
        (s.envelopeOut rd ra rc alg).overlaps (s.buf rb) = false ∧
        (s.envelopeOut rd ra rc alg).overlaps (s.buf rc) = false) :
      Effect s (.evEnc rd ra rb rc)
        (({ s with rngPos := s.rngPos + s.evSaltsz.toNat + s.evHsaltsz.toNat + 16 }.store
          (s.envelopeOut rd ra rc alg).addr (s.sealed ra rb rc alg)).setReg (Reg.next rd)
            (BitVec.ofNat 32 (s.envelopeOut rd ra rc alg).len))
  | evDec {rd ra rb rc : Reg} {alg : HashAlg} {pt : Bytes} (accepts : s.decAccepts rd ra rb rc alg)
      (opens : s.opened ra rb alg = some pt) :
      Effect s (.evDec rd ra rb rc)
        ((if s.num (Reg.next rc) ≠ 0 then
            ((s.withMetadata ra rc alg).store (s.num rd) pt).setReg (Reg.next rc) (s.envelopeHeader ra).metadataSize
          else (s.withMetadata ra rc alg).store (s.num rd) pt).setReg (Reg.next rd) (BitVec.ofNat 32 pt.length))

/-- `FaultsFrom s i u`: the state `u` in which the command `i` from `s` takes its fault. It is `s`, but for the
copied metadata of an `EV.DEC` whose tag or padding does not agree (R13, R262). -/
inductive FaultsFrom (s : State) : Instr → State → Prop
  | same (i : Instr) : FaultsFrom s i s
  | evDec {rd ra rb rc : Reg} {alg : HashAlg} (accepts : s.decAccepts rd ra rb rc alg)
      (fails : s.opened ra rb alg = none) : FaultsFrom s (.evDec rd ra rb rc) (s.withMetadata ra rc alg)

/-- The command ends in one of its two ways: a fault, or its effect and `cp` moved on. -/
def CommandEnds (s : State) (i : Instr) (r : Result) : Prop :=
  (∃ f u, FaultsFrom s i u ∧ r = raise f (encode i) u) ∨ ∃ u, Effect s i u ∧ r = retire u

section
variable {s u : State} {i : Instr} {cs : List Check} {k : Unit → Result}

theorem commandEnds_retire (h : Effect s i u) : CommandEnds s i (retire u) := .inr ⟨u, h, rfl⟩

theorem commandEnds_raise (f : Trap) : CommandEnds s i (raise f (encode i) s) := .inl ⟨f, s, .same i, rfl⟩

theorem commandEnds_checked (h : (∀ c ∈ cs, c.ok = true) → CommandEnds s i (k ())) :
    CommandEnds s i (checked (encode i) s cs k) := by
  obtain ⟨hpass, hk⟩ | ⟨f, -, hf⟩ := checked_cases (encode i) s cs k
  · rw [hk]
    exact h (firstFault_eq_none.1 hpass)
  · rw [hf]
    exact commandEnds_raise f

end

theorem execScKey_ends (ra : Reg) (s : State) : CommandEnds s (.scKey ra) (execScKey ra s) := by
  unfold execScKey
  refine commandEnds_checked fun hpass => ?_
  simp only [needArgument, needAddress, List.mem_cons, List.not_mem_nil, or_false, forall_eq_or_imp, Bool.or_eq_true,
    beq_iff_eq, forall_eq] at hpass
  obtain ⟨-, hlen, hadm⟩ := hpass
  exact commandEnds_retire (.scKey hlen hadm)

theorem execScNonce_ends (ra rb : Reg) (s : State) : CommandEnds s (.scNonce ra rb) (execScNonce ra rb s) := by
  unfold execScNonce
  refine commandEnds_checked fun hpass => ?_
  simp only [needState, needArgument, needAddress, List.mem_cons, List.not_mem_nil, or_false, forall_eq_or_imp,
    forall_eq] at hpass
  obtain ⟨-, hkeyed, hlen, hadm⟩ := hpass
  exact commandEnds_retire (.scNonce hkeyed hlen hadm)

theorem execScBlock_ends (rd : Reg) (s : State) : CommandEnds s (.scBlock rd) (execScBlock rd s) := by
  unfold execScBlock
  refine commandEnds_checked fun hpass => ?_
  simp only [needState, needAddress, List.mem_cons, List.not_mem_nil, or_false, forall_eq_or_imp, forall_eq] at hpass
  obtain ⟨hready, hadm⟩ := hpass
  exact commandEnds_retire (.scBlock hready hadm)

theorem execScXor_ends (rd ra : Reg) (s : State) : CommandEnds s (.scXor rd ra) (execScXor rd ra s) := by
  unfold execScXor
  refine commandEnds_checked fun hpass => ?_
  simp only [needState, needAddress, List.mem_cons, List.not_mem_nil, or_false, forall_eq_or_imp, Bool.and_eq_true,
    forall_eq, Bool.or_eq_true, decide_eq_true_eq, Bool.not_eq_eq_eq_not, Bool.not_true] at hpass
  obtain ⟨-, hready, hadm, hapart⟩ := hpass
  exact commandEnds_retire (.scXor hready hadm hapart)

theorem execScKs_ends (rd ra : Reg) (s : State) : CommandEnds s (.scKs rd ra) (execScKs rd ra s) := by
  unfold execScKs
  refine commandEnds_checked fun hpass => ?_
  simp only [needState, needAddress, List.mem_cons, List.not_mem_nil, or_false, forall_eq_or_imp, forall_eq] at hpass
  obtain ⟨hready, hadm⟩ := hpass
  exact commandEnds_retire (.scKs hready hadm)

theorem execB2Init_ends (ra rb rc : Reg) (imm : Byte) (s : State) :
    CommandEnds s (.b2Init ra rb rc imm) (execB2Init ra rb rc imm s) := by
  unfold execB2Init
  refine commandEnds_checked fun hpass => ?_
  simp only [needArgument, needAddress, List.mem_cons, List.not_mem_nil, or_false, forall_eq_or_imp,
    Bool.and_eq_true, decide_eq_true_eq, Bool.or_eq_true, beq_iff_eq, forall_eq] at hpass
  obtain ⟨-, ⟨⟨⟨hout, hkey⟩, hsalt⟩, hpers⟩, ⟨hadmK, hadmS⟩, hadmP⟩ := hpass
  exact commandEnds_retire (.b2Init hout hkey hsalt hpers ⟨hadmK, hadmS, hadmP⟩)

theorem execB2Update_ends (ra : Reg) (s : State) : CommandEnds s (.b2Update ra) (execB2Update ra s) := by
  unfold execB2Update
  refine commandEnds_checked fun hpass => ?_
  simp only [needState, needAddress, List.mem_cons, List.not_mem_nil, or_false, forall_eq_or_imp, forall_eq] at hpass
  obtain ⟨-, hready, hadm⟩ := hpass
  exact commandEnds_retire (.b2Update hready hadm)

theorem execB2Final_ends (rd : Reg) (s : State) : CommandEnds s (.b2Final rd) (execB2Final rd s) := by
  unfold execB2Final
  refine commandEnds_checked fun hpass => ?_
  simp only [needState, needAddress, List.mem_cons, List.not_mem_nil, or_false, forall_eq_or_imp, forall_eq] at hpass
  obtain ⟨hready, hadm⟩ := hpass
  exact commandEnds_retire (.b2Final hready hadm)

theorem execCsrw_ends (csr : Csr) (ra : Reg) (s : State) : CommandEnds s (.csrw csr ra) (execCsrw csr ra s) := by
  unfold execCsrw
  refine commandEnds_checked fun _ => ?_
  split
  next => exact commandEnds_raise _
  next u hu => exact commandEnds_retire (.csrw hu)

theorem execHmMac_ends (rd ra rb : Reg) (imm : Byte) (s : State) :
    CommandEnds s (.hmMac rd ra rb imm) (execHmMac rd ra rb imm s) := by
  unfold execHmMac
  refine commandEnds_checked fun _ => ?_
  dsimp only
  split
  next => exact commandEnds_raise _
  next alg halg =>
    refine commandEnds_checked fun hpass => ?_
    simp only [needAddress, List.mem_cons, List.not_mem_nil, or_false, forall_eq_or_imp, Bool.and_eq_true, forall_eq,
      Bool.not_eq_eq_eq_not, Bool.not_true] at hpass
    obtain ⟨⟨⟨hadmK, hadmM⟩, hadmO⟩, hapart⟩ := hpass
    exact commandEnds_retire (.hmMac halg ⟨hadmK, hadmM, hadmO⟩ hapart)

theorem execKdInit_ends (ra rb rc : Reg) (imm : Byte) (s : State) :
    CommandEnds s (.kdInit ra rb rc imm) (execKdInit ra rb rc imm s) := by
  unfold execKdInit
  refine commandEnds_checked fun _ => ?_
  split
  next => exact commandEnds_raise _
  next alg halg =>
    refine commandEnds_checked fun hpass => ?_
    simp only [needArgument, needAddress, List.mem_cons, List.not_mem_nil, or_false, forall_eq_or_imp,
      Bool.and_eq_true, decide_eq_true_eq, forall_eq] at hpass
    obtain ⟨⟨⟨hiter, hlow⟩, hhigh⟩, hadm⟩ := hpass
    exact commandEnds_retire (.kdInit halg hiter ⟨hlow, hhigh⟩ hadm)

theorem execKdGet_ends (rd ra : Reg) (s : State) : CommandEnds s (.kdGet rd ra) (execKdGet rd ra s) := by
  unfold execKdGet
  refine commandEnds_checked fun hundisposed => ?_
  dsimp only
  split
  next => exact commandEnds_raise _
  next k hk =>
    refine commandEnds_checked fun hpass => ?_
    simp only [needState, List.mem_cons, List.not_mem_nil, or_false, forall_eq, Bool.not_eq_eq_eq_not, Bool.not_true]
      at hundisposed
    simp only [needArgument, needAddress, List.mem_cons, List.not_mem_nil, or_false, forall_eq_or_imp,
      decide_eq_true_eq, forall_eq] at hpass
    obtain ⟨hindex, hadm⟩ := hpass
    exact commandEnds_retire (.kdGet hundisposed hk hindex hadm)

theorem execEvEnc_ends (rd ra rb rc : Reg) (s : State) :
    CommandEnds s (.evEnc rd ra rb rc) (execEvEnc rd ra rb rc s) := by
  unfold execEvEnc
  refine commandEnds_checked fun _ => ?_
  dsimp only
  split
  next => exact commandEnds_raise _
  next alg halg =>
    refine commandEnds_checked fun hpass => ?_
    simp only [needArgument, ne_eq, decide_not, needAddress, List.mem_cons, List.not_mem_nil, or_false,
      forall_eq_or_imp, Bool.and_eq_true, Bool.not_eq_eq_eq_not, Bool.not_true, decide_eq_false_iff_not,
      decide_eq_true_eq, forall_eq] at hpass
    obtain ⟨⟨⟨⟨⟨hkey, hiter⟩, hsalt⟩, hhash⟩, hmd⟩, ⟨⟨⟨hadmD, hadmK⟩, hadmM⟩, hadmO⟩,
      ⟨hapartD, hapartK⟩, hapartM⟩ := hpass
    exact commandEnds_retire
      (.evEnc halg hkey hiter hsalt hhash hmd ⟨hadmD, hadmK, hadmM⟩ hadmO ⟨hapartD, hapartK, hapartM⟩)

/-! ## EV.DEC -/

theorem pairsOk_evDec {rd ra rb rc : Reg} :
    (Instr.evDec rd ra rb rc).pairsOk = true ↔ rd ≠ 15 ∧ ra ≠ 15 ∧ rb ≠ 15 ∧ rc ≠ 15 := by
  simp only [Instr.pairsOk, Instr.pairFields, List.all_cons, List.all_nil, Reg.pairOk, Bool.and_eq_true, bne_iff_ne]
  tauto

/-- The conditional copy of the metadata is `withMetadata`: storing no bytes changes nothing. -/
theorem copy_eq_withMetadata (s : State) (ra rc : Reg) (alg : HashAlg) :
    (if (s.metadataOut ra rc).len ≠ 0 then s.store (s.metadataOut ra rc).addr (s.envelopeBody ra alg).metadata
      else s) = s.withMetadata ra rc alg := by
  unfold State.withMetadata State.copiedMetadata
  split <;> rfl

/-- The length of an envelope without its ciphertext, as the command computes it (R262, check 6). -/
theorem envelopeLen_eq_need (h : EnvelopeHeader) (alg : HashAlg) :
    envelopeLen h.saltSize.toNat h.hashSaltSize.toNat h.metadataSize.toNat alg.hLen 0 = h.need alg := rfl

/-- The plaintext destination, as the command computes it (R262, checks 6 and 8). -/
theorem dest_eq_plaintextOut (s : State) (rd ra : Reg) (alg : HashAlg) :
    s.dest rd ((s.buf ra).len - (s.envelopeHeader ra).need alg) = s.plaintextOut rd ra alg := rfl

/-- The parts of the envelope, as the command splits it (R250, R262). -/
theorem splitEnvelope_eq_envelopeBody (s : State) (ra : Reg) (alg : HashAlg) :
    splitEnvelope (s.load (s.buf ra)) (s.envelopeHeader ra).saltSize.toNat (s.envelopeHeader ra).hashSaltSize.toNat
      (s.envelopeHeader ra).metadataSize.toNat alg.hLen = s.envelopeBody ra alg := rfl

theorem execEvDec_ends (rd ra rb rc : Reg) (s : State) :
    CommandEnds s (.evDec rd ra rb rc) (execEvDec rd ra rb rc s) := by
  unfold execEvDec
  refine commandEnds_checked fun hin => ?_
  simp only [pairCheck, needArgument, ne_eq, decide_not, needAddress, List.mem_cons, List.not_mem_nil, or_false,
    forall_eq_or_imp, pairsOk_evDec, BitVec.ofNat_eq_ofNat, Bool.and_eq_true, Bool.not_eq_eq_eq_not, Bool.not_true,
    decide_eq_false_iff_not, decide_eq_true_eq, forall_eq] at hin
  obtain ⟨hpairs, ⟨hkey, hlen⟩, hinputs⟩ := hin
  simp only [parseHeader_load hlen, dest_eq_metadataOut, envelopeLen_eq_need, dest_eq_plaintextOut]
  split
  next => exact commandEnds_raise _
  next alg halg =>
    refine commandEnds_checked fun hpass => ?_
    simp only [needSupported, BitVec.ofNat_eq_ofNat, needArgument, needAddress, List.mem_cons, List.not_mem_nil,
      or_false, forall_eq_or_imp, decide_eq_true_eq, Bool.and_eq_true, Bool.or_eq_true, forall_eq,
      Bool.not_eq_eq_eq_not, Bool.not_true] at hpass
    obtain ⟨hversion, ⟨⟨⟨hms, hiter⟩, hss⟩, hhs⟩, hneed, hcap, houts,
      ⟨⟨⟨hmdPt, hmdEnv⟩, hmdKey⟩, hptEnv⟩, hptKey⟩ := hpass
    have haccepts : s.decAccepts rd ra rb rc alg :=
      ⟨hpairs, ⟨hkey, hlen, hinputs⟩, ⟨hversion, halg⟩, ⟨⟨hms, hiter, hss, hhs⟩, hneed, hcap⟩, houts,
        hmdPt, hmdEnv, hmdKey, hptEnv, hptKey⟩
    simp only [splitEnvelope_eq_envelopeBody, copy_eq_withMetadata]
    split
    next hopen => exact .inl ⟨.integrity, _, .evDec haccepts hopen, rfl⟩
    next pt hopen => exact commandEnds_retire (.evDec haccepts hopen)

/-! ## All commands -/

/-- All that a command can do (R13, R24, R281). -/
theorem exec_ends (i : Instr) (s : State) : CommandEnds s i (exec i s) := by
  cases i with
  | nop => exact commandEnds_retire .nop
  | setlo rd imm => exact commandEnds_retire (.setlo rd imm)
  | sethi rd imm => exact commandEnds_retire (.sethi rd imm)
  | mov rd ra => exact commandEnds_retire (.mov rd ra)
  | csrr rd csr => exact commandEnds_retire (.csrr rd csr)
  | csrw csr ra => exact execCsrw_ends csr ra s
  | wipe => exact commandEnds_retire .wipe
  | scKey ra => exact execScKey_ends ra s
  | scNonce ra rb => exact execScNonce_ends ra rb s
  | scBlock rd => exact execScBlock_ends rd s
  | scXor rd ra => exact execScXor_ends rd ra s
  | scKs rd ra => exact execScKs_ends rd ra s
  | scWipe => exact commandEnds_retire .scWipe
  | b2Init ra rb rc imm => exact execB2Init_ends ra rb rc imm s
  | b2Update ra => exact execB2Update_ends ra s
  | b2Final rd => exact execB2Final_ends rd s
  | b2Wipe => exact commandEnds_retire .b2Wipe
  | hmMac rd ra rb imm => exact execHmMac_ends rd ra rb imm s
  | kdInit ra rb rc imm => exact execKdInit_ends ra rb rc imm s
  | kdGet rd ra => exact execKdGet_ends rd ra s
  | kdWipe => exact commandEnds_retire .kdWipe
  | evEnc rd ra rb rc => exact execEvEnc_ends rd ra rb rc s
  | evDec rd ra rb rc => exact execEvDec_ends rd ra rb rc s

end Sys2Proof.Machine
end

section
/-! PROOF. How long the byte strings of the units are: the bounds that keep every store inside its admitted
range, and the lengths that the KD unit holds to. -/

namespace Sys2Proof.Machine

open Sys2Proof

/-! ## Numbers as byte strings -/

@[simp] theorem length_zeros (n : Nat) : (zeros n).length = n := List.length_replicate

@[simp] theorem length_toLe (n v : Nat) : (toLe n v).length = n := by
  induction n generalizing v with
  | zero => rfl
  | succ n ih => simp [toLe, ih]

@[simp] theorem length_toBe (n v : Nat) : (toBe n v).length = n := by simp [toBe]

@[simp] theorem length_toBe32 (v : Word) : (toBe32 v).length = 4 := length_toBe 4 _

@[simp] theorem length_toBe64 (v : DWord) : (toBe64 v).length = 8 := length_toBe 8 _

@[simp] theorem length_xorBytes (a b : Bytes) : (xorBytes a b).length = min a.length b.length :=
  List.length_zipWith

/-! ## Hashes, tags and derived blocks -/

theorem HashAlg.hLen_le_blockLen (alg : HashAlg) : alg.hLen ≤ alg.blockLen := by cases alg <;> decide

@[simp] theorem length_sha2Words {width : Nat} (p : Sha2Kind width) (init : Sha2State width) (msg : Bytes) :
    (sha2Words p init msg).length = 8 := rfl

theorem length_flatMap_const {α : Type} (l : List α) (f : α → Bytes) {n : Nat} (h : ∀ a, (f a).length = n) :
    (l.flatMap f).length = n * l.length := by
  induction l with
  | nil => rfl
  | cons a l ih => rw [List.flatMap_cons, List.length_append, ih, h, List.length_cons, Nat.mul_succ, Nat.add_comm]

/-- The output lengths of R180. -/
@[simp] theorem length_hashOf (alg : HashAlg) (msg : Bytes) : (hashOf alg msg).length = alg.hLen := by
  cases alg with
  | sha1 => exact length_flatMap_const _ _ length_toBe32
  | sha256 => exact length_flatMap_const _ _ length_toBe32
  | sha384 => exact length_flatMap_const _ _ length_toBe64
  | sha512 => exact length_flatMap_const _ _ length_toBe64

@[simp] theorem length_hmacBlock (alg : HashAlg) (k0 msg : Bytes) : (hmacBlock alg k0 msg).length = alg.hLen :=
  length_hashOf alg _

@[simp] theorem length_hmac (alg : HashAlg) (key msg : Bytes) : (hmac alg key msg).length = alg.hLen :=
  length_hashOf alg _

/-- A key block has `B` bytes (R197). -/
@[simp] theorem length_keyBlock (alg : HashAlg) (key : Bytes) : (keyBlock alg key).length = alg.blockLen := by
  have hlong := alg.hLen_le_blockLen
  simp only [keyBlock, List.length_append, length_zeros]
  split
  · rw [length_hashOf]
    omega
  · omega

theorem length_deriveRounds (alg : HashAlg) (k0 : Bytes) (n : Nat) (u : Bytes) {t : Bytes} (ht : t.length = alg.hLen) :
    (deriveRounds alg k0 n u t).length = alg.hLen := by
  induction n generalizing u t with
  | zero => exact ht
  | succ n ih => exact ih _ (by simp [ht])

/-- A derived block has `hLen` bytes (R210). -/
@[simp] theorem length_deriveBlock (alg : HashAlg) (k0 salt : Bytes) (iter : Nat) (c : Word) :
    (deriveBlock alg k0 salt iter c).length = alg.hLen :=
  length_deriveRounds alg k0 _ _ (length_hmacBlock alg _ _)

/-- `KD.GET` hands out no more bytes than it was asked for (R213). -/
theorem length_kdTake_le (k : KdInstance) (need n : Nat) : (kdTake k need n).1.length ≤ n := by
  induction need generalizing k n with
  | zero =>
    simp only [kdTake, List.length_take]
    omega
  | succ need ih =>
    have hrest := ih (kdRefill { k with pos := k.pos + min n (kdAvail k) }) (n - min n (kdAvail k))
    simp only [kdTake, List.length_append, List.length_take]
    omega

/-! ## AES and CBC -/

theorem length_aesEnc_le (key blk : Bytes) : (aesEnc key blk).length ≤ 16 := by
  simp [aesEnc, shiftRows]

theorem length_aesDec_le (key blk : Bytes) : (aesDec key blk).length ≤ 16 := by
  simp [aesDec, invSubBytes, invShiftRows]

@[simp] theorem length_blocksOf (size count : Nat) (b : Bytes) : (blocksOf size count b).length = count := by
  induction count generalizing b with
  | zero => rfl
  | succ n ih => simp [blocksOf, ih]

theorem length_cbcChain_le (key prev : Bytes) (ps : List Bytes) : (cbcChain key prev ps).length ≤ 16 * ps.length := by
  induction ps generalizing prev with
  | nil => simp [cbcChain]
  | cons p ps ih =>
    have hblock := length_aesEnc_le key (xorBytes p prev)
    have hrest := ih (aesEnc key (xorBytes p prev))
    simp only [cbcChain, List.length_append, List.length_cons]
    omega

theorem length_cbcUnchain_le (key prev : Bytes) (cs : List Bytes) :
    (cbcUnchain key prev cs).length ≤ 16 * cs.length := by
  induction cs generalizing prev with
  | nil => simp [cbcUnchain]
  | cons c cs ih =>
    have hblock := length_aesDec_le key c
    have hrest := ih c
    simp only [cbcUnchain, List.length_append, length_xorBytes, List.length_cons]
    omega

/-- The ciphertext fits the length that `EV.ENC` reckons with (R236, R256). -/
theorem length_cbcEncrypt_le (key iv data : Bytes) : (cbcEncrypt key iv data).length ≤ cipherLen data.length := by
  have hchain := length_cbcChain_le key iv (blocksOf 16 ((pkcsPad data).length / 16) (pkcsPad data))
  have hpad : (pkcsPad data).length = cipherLen data.length := by
    simp only [pkcsPad, List.length_append, List.length_replicate, cipherLen]
    omega
  rw [length_blocksOf, hpad] at hchain
  simp only [cbcEncrypt, hpad]
  exact hchain.trans (Nat.mul_div_le _ _)

theorem length_pkcsUnpad_le {buf pt : Bytes} (h : pkcsUnpad buf = some pt) : pt.length ≤ buf.length := by
  simp only [pkcsUnpad] at h
  split at h
  next => cases h
  next =>
    split at h
    next =>
      cases h
      exact List.length_take_le' _ _
    next => cases h

/-- A plaintext is no longer than its ciphertext (R236, R237). -/
theorem length_cbcDecrypt_le {key iv ct pt : Bytes} (h : cbcDecrypt key iv ct = some pt) : pt.length ≤ ct.length := by
  simp only [cbcDecrypt] at h
  split at h
  next => cases h
  next =>
    have hchain := length_cbcUnchain_le key iv (blocksOf 16 (ct.length / 16) ct)
    rw [length_blocksOf] at hchain
    exact (length_pkcsUnpad_le h).trans (hchain.trans (Nat.mul_div_le _ _))

/-! ## The envelope -/

@[simp] theorem length_headerBytes (h : EnvelopeHeader) : (headerBytes h).length = 16 := by
  simp [headerBytes, toLe16, toLe32]

/-- An envelope fits the length that `EV.ENC` reckons with (R250, R256). -/
theorem length_sealEnvelope_le (q : SealInput) :
    (sealEnvelope q).length ≤ 16 + q.salt.length + q.hashSalt.length + q.iv.length + q.metadata.length + q.alg.hLen
      + cipherLen q.data.length := by
  have hct := length_cbcEncrypt_le (deriveKey32 q.alg q.key q.salt q.iter.toNat) q.iv q.data
  simp only [sealEnvelope, envelopeBytes, List.length_append, length_headerBytes, length_hmac]
  omega

theorem length_sealed_le (s : State) (rd ra rb rc : Reg) (alg : HashAlg) :
    (s.sealed ra rb rc alg).length ≤ (s.envelopeOut rd ra rc alg).len := by
  refine (length_sealEnvelope_le _).trans ?_
  simp only [drawSalts_eq, length_rngBytes, State.length_load, State.envelopeOut, State.dest, envelopeLen]
  omega

theorem length_copiedMetadata_le (s : State) (ra rc : Reg) (alg : HashAlg) :
    (s.copiedMetadata ra rc alg).length ≤ (s.metadataOut ra rc).len := by
  unfold State.copiedMetadata
  split
  next h =>
    rw [metadataOut_len_of_ne_zero h]
    exact length_metadata_le _ _ _ _ _
  next => exact Nat.zero_le _

/-- The plaintext fits its destination (R262, checks 6 and 8). -/
theorem length_opened_le {s : State} {ra rb : Reg} {alg : HashAlg} {pt : Bytes} (rd : Reg)
    (h : s.opened ra rb alg = some pt) : pt.length ≤ (s.plaintextOut rd ra alg).len := by
  unfold State.opened openEnvelope at h
  dsimp only at h
  split at h
  next =>
    refine (length_cbcDecrypt_le h).trans (le_of_eq ?_)
    simp only [State.envelopeBody, splitEnvelope, List.length_drop, State.length_load, State.plaintextOut,
      EnvelopeHeader.need]
  next => cases h

end Sys2Proof.Machine
end

section
/-! PROOF. The invariant of the machine holds at reset and every step keeps it (10_state.md R25, R26, R43, R45, R50;
20_memory.md R62; 60_exceptions.md R285). -/

namespace Sys2Proof.Machine

open Sys2Proof

/-! ## The B2 unit -/

/-- A hash in progress under the invariant: the two flags are 0 and the output length is not. -/
structure B2Unit.Hashing (b : B2Unit) : Prop where
  offset : b.c ≤ 128
  padding : ∀ i : Fin 128, b.c ≤ i.val → b.bbuf[i] = 0
  outlenPos : b.outlen ≠ 0
  outlen : b.outlen ≤ 64
  flagHigh : b.f1 = 0
  flagLow : b.f0 = 0

theorem B2Unit.Hashing.inv {b : B2Unit} (h : b.Hashing) : b.Inv where
  offset := h.offset
  padding := h.padding
  outlen := h.outlen
  flagHigh := h.flagHigh
  flagLow := .inl h.flagLow
  idle := fun hz => absurd hz h.outlenPos

/-- A unit that may absorb is hashing (R159, R160). -/
theorem B2Unit.Inv.hashing {b : B2Unit} (h : b.Inv) (hready : b.ready = true) : b.Hashing := by
  simp only [B2Unit.ready, B2Unit.active, B2Unit.final, Bool.and_eq_true, Bool.not_eq_true', decide_eq_true_eq,
    decide_eq_false_iff_not, not_not] at hready
  exact ⟨h.offset, h.padding, hready.1, h.outlen, h.flagHigh, hready.2⟩

theorem b2Zero_inv : B2Unit.zero.Inv where
  offset := Nat.zero_le _
  padding := fun i _ => by simp [B2Unit.zero]
  outlen := Nat.zero_le _
  flagHigh := rfl
  flagLow := .inl rfl
  idle := fun _ => rfl

theorem blakeFlush_hashing {b : B2Unit} (h : b.Hashing) : (blakeFlush b).Hashing where
  offset := Nat.zero_le _
  padding := fun i _ => by simp [blakeFlush]
  outlenPos := h.outlenPos
  outlen := h.outlen
  flagHigh := h.flagHigh
  flagLow := h.flagLow

/-- A buffer with room takes a byte at its offset, and what lies above stays 0 (R158). -/
theorem hashing_push {b : B2Unit} (h : b.Hashing) (hroom : b.c < 128) (d : Byte) :
    B2Unit.Hashing { b with bbuf := b.bbuf.setIfInBounds b.c d, c := b.c + 1 } where
  offset := hroom
  padding := fun i hi => by
    have hne : b.c ≠ i.val := by
      have : b.c + 1 ≤ i.val := hi
      omega
    have hi' : b.c ≤ i.val := Nat.le_of_succ_le hi
    simpa [Vector.getElem_setIfInBounds, hne] using h.padding i hi'
  outlenPos := h.outlenPos
  outlen := h.outlen
  flagHigh := h.flagHigh
  flagLow := h.flagLow

theorem blakeAbsorbByte_hashing {b : B2Unit} (h : b.Hashing) (d : Byte) : (blakeAbsorbByte b d).Hashing := by
  unfold blakeAbsorbByte
  split
  next => exact hashing_push (blakeFlush_hashing h) (by decide : (0 : Nat) < 128) d
  next hne => exact hashing_push h (Nat.lt_of_le_of_ne h.offset hne) d

theorem blakeAbsorb_hashing {b : B2Unit} (h : b.Hashing) (data : Bytes) : (blakeAbsorb b data).Hashing := by
  induction data generalizing b with
  | nil => exact h
  | cons d data ih => exact ih (blakeAbsorbByte_hashing h d)

theorem blakeInit_hashing {outlen : Byte} (h : 1 ≤ outlen.toNat ∧ outlen.toNat ≤ b2OutMax)
    (key salt pers : Bytes) : (blakeInit outlen key salt pers).Hashing := by
  have hstart : (blakeStart outlen key salt pers).Hashing :=
    { b2Zero_inv with outlenPos := Nat.ne_of_gt h.1, outlen := h.2, flagLow := rfl }
  unfold blakeInit
  dsimp only
  split
  · exact blakeAbsorb_hashing hstart _
  · exact hstart

/-- The last compression sets the flag and keeps the other flag and the output length (R160). -/
theorem blakeLast_flags (b : B2Unit) :
    (blakeLast b).f0 = BitVec.allOnes 64 ∧ (blakeLast b).f1 = b.f1 ∧ (blakeLast b).outlen = b.outlen := by
  unfold blakeLast
  dsimp only
  split <;> exact ⟨rfl, rfl, rfl⟩

/-- A finalized unit is zero but for the flag and the output length (R160). -/
theorem blakeDone_inv {b : B2Unit} (h : b.Hashing) : (blakeDone (blakeLast b)).Inv := by
  obtain ⟨hf0, hf1, hout⟩ := blakeLast_flags b
  have hdone : blakeDone (blakeLast b) = { B2Unit.zero with f0 := BitVec.allOnes 64, outlen := b.outlen } := by
    rw [blakeDone, hf0, hf1, hout, h.flagHigh]
    rfl
  rw [hdone]
  exact { b2Zero_inv with
    outlen := h.outlen, flagLow := .inr rfl, idle := fun hz => absurd hz h.outlenPos }

theorem length_blakeDigest_le (b : B2Unit) : (blakeDigest (blakeLast b)).length ≤ b.outlen := by
  rw [← (blakeLast_flags b).2.2]
  exact List.length_take_le _ _

/-! ## The KD unit -/

/-- What `KD.INIT` starts with (R212). -/
theorem kdStart_inv (alg : HashAlg) (pwd : Bytes) {salt : Bytes} {iter : Word}
    (hsalt : 8 ≤ salt.length ∧ salt.length ≤ kdSaltMax) (hiter : 0 < iter.toInt) :
    (kdStart alg pwd salt iter.toNat).Inv where
  keyLength := length_keyBlock alg pwd
  saltLength := hsalt
  iterRange := by
    rw [BitVec.toInt_eq_toNat_cond] at hiter
    have := iter.isLt
    change 1 ≤ iter.toNat ∧ iter.toNat < 2 ^ 31
    split at hiter <;> omega
  posRange := Nat.le_refl _
  bufferLength := length_zeros _
  fresh := fun _ => rfl
  buffered := fun h => absurd rfl h

section
variable {k : KdInstance}

/-- Handing out what is left of the last block, or less, moves the offset alone (R213). -/
theorem KdInstance.Inv.advance (h : k.Inv) (n : Nat) :
    KdInstance.Inv { k with pos := k.pos + min n (kdAvail k) } :=
  have hpos := h.posRange
  { h with
    posRange := by
      simp only [kdAvail]
      omega
    fresh := fun hz => by
      have hfull := h.fresh hz
      simp only [kdAvail]
      omega }

/-- The index of the next block, where it does not wrap to 0 (R213). -/
theorem toNat_blk_kdRefill (hindex : k.blk.toNat + 1 < 2 ^ 32) : (kdRefill k).blk.toNat = k.blk.toNat + 1 := by
  have hadd : (kdRefill k).blk.toNat = (k.blk.toNat + 1) % 2 ^ 32 := BitVec.toNat_add k.blk 1
  rw [hadd, Nat.mod_eq_of_lt hindex]

theorem KdInstance.Inv.refill (h : k.Inv) (hindex : k.blk.toNat + 1 < 2 ^ 32) : (kdRefill k).Inv :=
  { h with
    posRange := Nat.zero_le _
    bufferLength := length_deriveBlock _ _ _ _ _
    fresh := fun hz => by
      have hnext := toNat_blk_kdRefill hindex
      rw [hz] at hnext
      exact absurd hnext (Nat.succ_ne_zero _).symm
    buffered := fun _ => rfl }

end

/-- `KD.GET` keeps the KD unit as it should be, while its block index does not pass 2^32 - 1 (R213). -/
theorem kdTake_inv {k : KdInstance} (h : k.Inv) (need n : Nat) (hindex : k.blk.toNat + need ≤ 0xFFFFFFFF) :
    (kdTake k need n).2.Inv := by
  induction need generalizing k n with
  | zero => exact h.advance n
  | succ need ih =>
    have hnext : k.blk.toNat + 1 < 2 ^ 32 := by omega
    refine ih ((h.advance n).refill hnext) _ ?_
    rw [toNat_blk_kdRefill (k := { k with pos := k.pos + min n (kdAvail k) }) hnext]
    change k.blk.toNat + 1 + need ≤ _
    omega

/-! ## What the updates of the state keep -/

theorem scZero_unkeyed : ScUnit.zero.nonced = true → ScUnit.zero.keyed = true := fun h => h

namespace State.Inv

variable {s : State}

/-- An update of the SC unit that leaves it keyed. -/
theorem withSc (h : s.Inv) {u : ScUnit} (hkeyed : u.keyed = true) : State.Inv { s with sc := u } :=
  { h with
    noncedKeyed := fun _ => hkeyed
    unkeyedZero := fun hz => absurd (hz.symm.trans hkeyed) Bool.false_ne_true }

theorem wipeSc (h : s.Inv) : (wipeSc s).Inv := { h with noncedKeyed := scZero_unkeyed, unkeyedZero := fun _ => rfl }

theorem withB2 (h : s.Inv) {u : B2Unit} (hu : u.Inv) : State.Inv { s with b2 := u } := { h with b2Inv := hu }

/-- An update of the KD unit to one that is not disposed. -/
theorem withKd (h : s.Inv) {k : KdInstance} (hk : k.Inv) {disposed : Bool} (hd : disposed = false) :
    State.Inv { s with kd := ⟨some k, disposed⟩ } :=
  { h with
    kdInv := fun _ hj => Option.some.inj hj ▸ hk
    kdDisposed := fun hd' => absurd (hd.symm.trans hd') Bool.false_ne_true }

theorem wipeKd (h : s.Inv) : (wipeKd s).Inv :=
  { h with
    kdInv := fun _ hk => nomatch hk
    kdDisposed := fun _ => rfl }

/-- A store inside an admitted range (R62). -/
theorem store (h : s.Inv) {r : Range} {v : Bytes} (hadm : s.admits r = true) (hlen : v.length ≤ r.len) :
    (s.store r.addr v).Inv :=
  { h with
    memWf := State.store_wf h.memWf _ _
    memWithin := Memory.write_within h.memWithin <| by
      rcases Range.admitted_iff.1 hadm with hz | hin
      · exact .inl (List.length_eq_zero_iff.1 (by omega))
      · exact .inr (by omega) }

theorem setReg (h : s.Inv) (r : Reg) (v : Word) : (s.setReg r v).Inv := { h with }

/-- The next command index (R24). -/
theorem withCp (h : s.Inv) (c : Word) : State.Inv { s with cp := c } := { h with }

theorem withRngPos (h : s.Inv) (n : Nat) : State.Inv { s with rngPos := n } := { h with }

theorem withMoves (h : s.Inv) (ms : List HostMove) : State.Inv { s with moves := ms } := { h with }

theorem trapEntry (h : s.Inv) (f : Trap) (w : Word) : (trapEntry f w s).Inv :=
  { h with
    queueDepth := Nat.zero_le _
    haltedEmpty := fun _ => rfl }

theorem csrStore (h : s.Inv) {v : Word} {csr : Csr} {u : State} (hu : csrStore s v csr = some u) : u.Inv := by
  cases csr with
  | scCfg =>
    obtain ⟨c, -, rfl⟩ := Option.map_eq_some_iff.1 hu
    exact State.Inv.wipeSc { h with }
  | evAlg | evSaltsz | evHsaltsz =>
    obtain ⟨c, -, rfl⟩ := Option.map_eq_some_iff.1 hu
    exact { h with }
  | evIter =>
    obtain rfl := Option.some.inj hu
    exact { h with }
  | id | status | err | errcp | errcmd | cp => cases hu

theorem advanceSc (h : s.Inv) (hready : s.scReady = true) (n : Nat) : (advanceSc s n).Inv :=
  h.withSc (Bool.and_eq_true_iff.1 hready).1

theorem withMetadata (h : s.Inv) {rd ra rb rc : Reg} {alg : HashAlg} (hacc : s.decAccepts rd ra rb rc alg) :
    (s.withMetadata ra rc alg).Inv := by
  obtain ⟨-, -, -, -, ⟨hadm, -⟩, -⟩ := hacc
  exact h.store hadm (length_copiedMetadata_le s ra rc alg)

end State.Inv

/-! ## Every command -/

theorem Effect.inv {s u : State} {i : Instr} (he : Effect s i u) (h : s.Inv) : u.Inv := by
  cases he with
  | nop => exact h
  | setlo | sethi | mov | csrr => exact h.setReg _ _
  | csrw stored => exact h.csrStore stored
  | wipe => exact (h.wipeSc.withB2 b2Zero_inv).wipeKd
  | scKey => exact h.withSc rfl
  | scNonce keyed => exact h.withSc keyed
  | scBlock ready admitted => exact (h.advanceSc ready _).store admitted (List.length_take_le _ _)
  | scXor ready admitted =>
    refine (h.advanceSc ready _).store admitted.2 ?_
    rw [length_xorBytes, State.length_load]
    exact Nat.min_le_left _ _
  | scKs ready admitted => exact (h.advanceSc ready _).store admitted (List.length_take_le _ _)
  | scWipe => exact h.wipeSc
  | b2Init outlen => exact h.withB2 (blakeInit_hashing outlen _ _ _).inv
  | b2Update ready => exact h.withB2 (blakeAbsorb_hashing (h.b2Inv.hashing ready) _).inv
  | b2Final ready admitted =>
    exact (h.withB2 (blakeDone_inv (h.b2Inv.hashing ready))).store admitted (length_blakeDigest_le _)
  | b2Wipe => exact h.withB2 b2Zero_inv
  | hmMac _ admitted => exact h.store admitted.2.2 (length_hmac _ _ _).le
  | kdInit _ iterations saltLength =>
    exact h.withKd (kdStart_inv _ _ (by rwa [State.length_load]) iterations) rfl
  | @kdGet rd ra k undisposed active index admitted =>
    have hk := kdTake_inv (h.kdInv k active) _ (s.num ra) index
    exact (h.withKd hk undisposed).store admitted (length_kdTake_le _ _ _)
  | kdWipe => exact h.wipeKd
  | @evEnc rd ra rb rc alg _ _ _ _ _ _ _ admitted =>
    exact ((h.withRngPos (s.rngPos + _ + _ + 16)).store admitted (length_sealed_le s rd ra rb rc alg)).setReg _ _
  | @evDec rd ra rb rc alg pt accepts opens =>
    have hmd := h.withMetadata accepts
    obtain ⟨-, -, -, -, ⟨-, hadm⟩, -⟩ := accepts
    have hpt := hmd.store (r := s.plaintextOut rd ra alg) hadm (length_opened_le rd opens)
    split
    · exact (hpt.setReg _ _).setReg _ _
    · exact hpt.setReg _ _

theorem FaultsFrom.inv {s u : State} {i : Instr} (hf : FaultsFrom s i u) (h : s.Inv) : u.Inv := by
  cases hf with
  | same => exact h
  | evDec accepts => exact h.withMetadata accepts

theorem exec_inv {i : Instr} {s t : State} (h : s.Inv) (ht : exec i s = .next t) : t.Inv := by
  rcases exec_ends i s with ⟨f, u, hu, he⟩ | ⟨u, hu, he⟩ <;> rw [he] at ht <;> cases ht
  · exact (hu.inv h).trapEntry f _
  · exact (hu.inv h).withCp _

/-! ## Every step -/

theorem runWord_inv {w : Word} {s t : State} (h : s.Inv) (ht : runWord w s = .next t) : t.Inv := by
  rcases runWord_cases w s with ⟨i, -, he⟩ | ⟨e, -, he⟩ <;> rw [he] at ht
  · exact exec_inv h ht
  · cases ht
    exact h.trapEntry _ _

theorem sequencerStep_inv {s t : State} (h : s.Inv) (ht : sequencerStep s = .next t) : t.Inv := by
  rcases sequencerStep_cases s with ⟨-, he⟩ | ⟨w, q, hrun, hq, he⟩ <;> rw [he] at ht
  · cases ht
    exact h
  · have hdepth := h.queueDepth
    rw [hq, List.length_cons] at hdepth
    refine runWord_inv ?_ ht
    exact { h with
      queueDepth := Nat.le_of_succ_le hdepth
      haltedEmpty := fun hhalt => absurd (hrun.symm.trans hhalt) Bool.false_ne_true }

/-- The state after hard reset is as it should be, under any legal parameters (R50, R320). -/
theorem hardReset_inv {s : State} (h : s.cfg.legal = true) : (hardReset s).Inv where
  memWf := rfl
  memWithin := rfl
  cfgLegal := h
  queueDepth := Nat.zero_le _
  haltedEmpty := fun _ => rfl
  noncedKeyed := scZero_unkeyed
  unkeyedZero := fun _ => rfl
  b2Inv := b2Zero_inv
  kdInv := fun _ hk => nomatch hk
  kdDisposed := fun _ => rfl

theorem hostMove_inv {m : HostMove} {s t : State} (h : s.Inv) (ht : hostMove m s = .next t) : t.Inv := by
  rcases hostMove_cases ht with
    ⟨w, -, hready, rfl⟩ | ⟨a, b, -, -, ha, rfl⟩ | ⟨-, rfl⟩ | ⟨-, -, rfl⟩ | ⟨-, rfl⟩ | ⟨-, hs⟩
  · simp only [State.portReady, Bool.and_eq_true, decide_eq_true_eq, Bool.not_eq_true'] at hready
    obtain ⟨hroom, hrun⟩ := hready
    exact { h with
      queueDepth := by simpa using hroom
      haltedEmpty := fun hhalt => absurd (hrun.symm.trans hhalt) Bool.false_ne_true }
  · exact { h with
      memWf := Memory.writeByte_wf h.memWf a b
      memWithin := Memory.writeByte_within h.memWithin ha b }
  · exact { h with haltedEmpty := fun hhalt => Bool.noConfusion hhalt }
  · exact { hardReset_inv h.cfgLegal with
      memWf := h.memWf
      memWithin := h.memWithin }
  · exact hardReset_inv h.cfgLegal
  · exact sequencerStep_inv h hs

/-- Settles O18: the state at reset is its own hard reset. -/
theorem resetInv : Obligations.ResetInv := hardReset_inv (s := State.reset) (by decide)

/-- Settles O19: by the first host move, or the command the sequencer takes. -/
theorem stepKeepsInv : Obligations.StepKeepsInv := by
  intro s t h ht
  rcases step_cases s with ⟨-, he⟩ | ⟨m, ms, -, he⟩ <;> rw [he] at ht
  · exact sequencerStep_inv h ht
  · exact hostMove_inv (h.withMoves ms) ht

end Sys2Proof.Machine
end

section
/-! PROOF. What a command reads: two states that agree in all but the queue and the contents of the units end a
command alike, when it releases nothing of a unit (10_state.md R25, R41, R43, R45; 60_exceptions.md R296). -/

namespace Sys2Proof.Machine

open Sys2Proof

/-! ## States that agree outside the queue and the units -/

/-- The two states differ at most in the queue and the units. -/
def SameOperands (s t : State) : Prop := t = { s with queue := t.queue, sc := t.sc, b2 := t.b2, kd := t.kd }

namespace SameOperands

variable {s t : State}

theorem reg (h : SameOperands s t) (r : Reg) : t.reg r = s.reg r := by rw [h]; rfl
theorem num (h : SameOperands s t) (r : Reg) : t.num r = s.num r := by rw [h]; rfl
theorem buf (h : SameOperands s t) (r : Reg) : t.buf r = s.buf r := by rw [h]; rfl
theorem dest (h : SameOperands s t) (r : Reg) (n : Nat) : t.dest r n = s.dest r n := by rw [h]; rfl
theorem load (h : SameOperands s t) (r : Range) : t.load r = s.load r := by rw [h]; rfl
theorem admits (h : SameOperands s t) (r : Range) : t.admits r = s.admits r := by rw [h]; rfl
theorem variant (h : SameOperands s t) : t.scCfg.variant = s.scCfg.variant := by rw [h]
theorem evAlg (h : SameOperands s t) : t.evAlg = s.evAlg := by rw [h]
theorem evIter (h : SameOperands s t) : t.evIter = s.evIter := by rw [h]
theorem evSaltsz (h : SameOperands s t) : t.evSaltsz = s.evSaltsz := by rw [h]
theorem evHsaltsz (h : SameOperands s t) : t.evHsaltsz = s.evHsaltsz := by rw [h]

theorem drawn (h : SameOperands s t) (ss hs : Nat) :
    (drawSalts t ss hs).1 = (drawSalts s ss hs).1 ∧ (drawSalts t ss hs).2.1 = (drawSalts s ss hs).2.1 ∧
      (drawSalts t ss hs).2.2.1 = (drawSalts s ss hs).2.2.1 := by
  rw [h]
  exact ⟨rfl, rfl, rfl⟩

end SameOperands

/-- A relation of states that a command cannot leave: related states read the same wherever no secret of a unit is
read, and every update that a command makes of both keeps them related. -/
structure Congruence (R : State → State → Prop) : Prop where
  operands {s t : State} : R s t → SameOperands s t
  csrValue {s t : State} : R s t → ∀ csr, csrValue true t csr = csrValue true s csr
  keyed {s t : State} : R s t → t.sc.keyed = s.sc.keyed
  ready {s t : State} : R s t → t.b2.ready = s.b2.ready
  trapEntry {s t : State} : R s t → ∀ f w, R (trapEntry f w s) (trapEntry f w t)
  retire {s t : State} : R s t → R { s with cp := s.cp + 1 } { t with cp := t.cp + 1 }
  setReg {s t : State} : R s t → ∀ r v, R (s.setReg r v) (t.setReg r v)
  store {s t : State} : R s t → ∀ a v, R (s.store a v) (t.store a v)
  draw {s t : State} : R s t → ∀ ss hs, R (drawSalts s ss hs).2.2.2 (drawSalts t ss hs).2.2.2
  withScCfg {s t : State} : R s t → ∀ c, R { s with scCfg := c } { t with scCfg := c }
  withEvAlg {s t : State} : R s t → ∀ v, R { s with evAlg := v } { t with evAlg := v }
  withEvIter {s t : State} : R s t → ∀ v, R { s with evIter := v } { t with evIter := v }
  withEvSaltsz {s t : State} : R s t → ∀ v, R { s with evSaltsz := v } { t with evSaltsz := v }
  withEvHsaltsz {s t : State} : R s t → ∀ v, R { s with evHsaltsz := v } { t with evHsaltsz := v }
  withSc {s t : State} : R s t → ∀ u, R { s with sc := u } { t with sc := u }
  withB2 {s t : State} : R s t → ∀ u, R { s with b2 := u } { t with b2 := u }
  withKd {s t : State} : R s t → ∀ u, R { s with kd := u } { t with kd := u }
  loadNonce {s t : State} : R s t → ∀ v n c,
    R { s with sc := { s.sc with cs := loadNonce v n c s.sc.cs, nonced := true } }
      { t with sc := { t.sc with cs := loadNonce v n c t.sc.cs, nonced := true } }
  absorb {s t : State} : R s t → ∀ d,
    R { s with b2 := blakeAbsorb s.b2 d } { t with b2 := blakeAbsorb t.b2 d }

/-- Both results are next states, and these are related. -/
def EndAlike (R : State → State → Prop) (r r' : Result) : Prop :=
  ∃ s' t', r = .next s' ∧ r' = .next t' ∧ R s' t'

/-! ## Commands that release nothing -/

theorem map_alike {R : State → State → Prop} {α : Type} (o : Option α) {f g : α → State}
    (hfg : ∀ c, R (f c) (g c)) :
    (o.map f = none ∧ o.map g = none) ∨ ∃ s' t', o.map f = some s' ∧ o.map g = some t' ∧ R s' t' := by
  cases o with
  | none => exact .inl ⟨rfl, rfl⟩
  | some c => exact .inr ⟨_, _, rfl, rfl, hfg c⟩

theorem ite_alike {R : State → State → Prop} {c : Prop} [Decidable c] {u u' v v' : State} (hu : R u u')
    (hv : R v v') : R (if c then u else v) (if c then u' else v') := by
  split
  · exact hu
  · exact hv

section
variable {R : State → State → Prop} {s t : State} (hR : Congruence R) (h : R s t)
include hR h

theorem endAlike_retire : EndAlike R (retire s) (retire t) := ⟨_, _, rfl, rfl, hR.retire h⟩

theorem endAlike_raise (f : Trap) (w : Word) : EndAlike R (raise f w s) (raise f w t) :=
  ⟨_, _, rfl, rfl, hR.trapEntry h f w⟩

theorem endAlike_checked (w : Word) {cs : List Check} {k k' : Unit → Result}
    (hk : (∀ c ∈ cs, c.ok = true) → EndAlike R (k ()) (k' ())) :
    EndAlike R (checked w s cs k) (checked w t cs k') := by
  unfold checked
  cases hcs : firstFault cs with
  | none => exact hk (firstFault_eq_none.1 hcs)
  | some f => exact endAlike_raise hR h f w

/-- Commands that only retire once their checks hold. -/
theorem endAlike_checked_retire {w : Word} {cs : List Check} {u u' : State} (hu : R u u') :
    EndAlike R (checked w s cs fun _ => retire u) (checked w t cs fun _ => retire u') :=
  endAlike_checked hR h w fun _ => endAlike_retire hR hu

/-- A value is legal for a CSR in both states or in neither (R105). -/
theorem csrStore_alike (v : Word) (csr : Csr) :
    (csrStore s v csr = none ∧ csrStore t v csr = none) ∨
      ∃ s' t', csrStore s v csr = some s' ∧ csrStore t v csr = some t' ∧ R s' t' := by
  cases csr with
  | scCfg => exact map_alike _ fun c => hR.withSc (hR.withScCfg h c) _
  | evAlg => exact map_alike _ fun c => hR.withEvAlg h c
  | evSaltsz => exact map_alike _ fun c => hR.withEvSaltsz h c
  | evHsaltsz => exact map_alike _ fun c => hR.withEvHsaltsz h c
  | evIter => exact .inr ⟨_, _, rfl, rfl, hR.withEvIter h v⟩
  | id | status | err | errcp | errcmd | cp => exact .inl ⟨rfl, rfl⟩

theorem endAlike_csrw (csr : Csr) (ra : Reg) : EndAlike R (execCsrw csr ra s) (execCsrw csr ra t) := by
  unfold execCsrw
  refine endAlike_checked hR h _ fun _ => ?_
  rw [(hR.operands h).reg]
  rcases csrStore_alike hR h (s.reg ra) csr with ⟨hs, ht⟩ | ⟨s', t', hs, ht, hst⟩ <;> rw [hs, ht]
  · exact endAlike_raise hR h _ _
  · exact endAlike_retire hR hst

theorem endAlike_hmMac (rd ra rb : Reg) (imm : Byte) :
    EndAlike R (execHmMac rd ra rb imm s) (execHmMac rd ra rb imm t) := by
  have hop := hR.operands h
  unfold execHmMac
  simp only [hop.buf, hop.dest, hop.admits, hop.load]
  refine endAlike_checked hR h _ fun _ => ?_
  cases hashAlgOf imm.toNat with
  | none => exact endAlike_raise hR h _ _
  | some alg => exact endAlike_checked_retire hR h (hR.store h _ _)

theorem endAlike_kdInit (ra rb rc : Reg) (imm : Byte) :
    EndAlike R (execKdInit ra rb rc imm s) (execKdInit ra rb rc imm t) := by
  have hop := hR.operands h
  unfold execKdInit
  simp only [hop.reg, hop.buf, hop.admits, hop.load]
  refine endAlike_checked hR h _ fun _ => ?_
  cases hashAlgOf imm.toNat with
  | none => exact endAlike_raise hR h _ _
  | some alg => exact endAlike_checked_retire hR h (hR.withKd h _)

theorem endAlike_evEnc (rd ra rb rc : Reg) : EndAlike R (execEvEnc rd ra rb rc s) (execEvEnc rd ra rb rc t) := by
  have hop := hR.operands h
  unfold execEvEnc
  simp only [hop.buf, hop.dest, hop.admits, hop.load, hop.evAlg, hop.evIter, hop.evSaltsz, hop.evHsaltsz, hop.drawn]
  refine endAlike_checked hR h _ fun _ => ?_
  cases hashAlgOf s.evAlg.toNat with
  | none => exact endAlike_raise hR h _ _
  | some alg =>
    refine endAlike_checked hR h _ fun _ => ?_
    exact endAlike_retire hR (hR.setReg (hR.store (hR.draw h _ _) _ _) _ _)

theorem endAlike_evDec (rd ra rb rc : Reg) : EndAlike R (execEvDec rd ra rb rc s) (execEvDec rd ra rb rc t) := by
  have hop := hR.operands h
  unfold execEvDec
  simp only [hop.num, hop.buf, hop.dest, hop.admits, hop.load]
  refine endAlike_checked hR h _ fun _ => ?_
  generalize parseHeader _ = header
  cases hashAlgOf header.algId.toNat with
  | none => exact endAlike_raise hR h _ _
  | some alg =>
    refine endAlike_checked hR h _ fun _ => ?_
    generalize splitEnvelope _ _ _ _ _ = body
    generalize s.dest rc _ = out
    have hcopied := ite_alike (c := out.len ≠ 0) (hR.store h out.addr body.metadata) h
    cases openEnvelope alg header.iterations.toNat (s.load (s.buf rb)) body with
    | none => exact endAlike_raise hR hcopied _ _
    | some pt =>
      have hstored := hR.store hcopied (s.num rd) pt
      exact endAlike_retire hR (hR.setReg (ite_alike (hR.setReg hstored _ _) hstored) _ _)

/-- Related states end every command alike that releases nothing of a unit (R296). -/
theorem exec_endAlike {i : Instr} (hi : i.releases = false) : EndAlike R (exec i s) (exec i t) := by
  have hop := hR.operands h
  cases i with
  | nop => exact endAlike_retire hR h
  | setlo rd imm => exact endAlike_retire hR (hR.setReg h _ _)
  | sethi rd imm =>
    change EndAlike R _ (execSethi rd imm t)
    unfold execSethi
    rw [hop.reg]
    exact endAlike_retire hR (hR.setReg h _ _)
  | mov rd ra =>
    change EndAlike R _ (execMov rd ra t)
    unfold execMov
    rw [hop.reg]
    exact endAlike_retire hR (hR.setReg h _ _)
  | csrr rd csr =>
    change EndAlike R _ (execCsrr rd csr t)
    unfold execCsrr
    rw [hR.csrValue h]
    exact endAlike_retire hR (hR.setReg h _ _)
  | csrw csr ra => exact endAlike_csrw hR h csr ra
  | wipe => exact endAlike_retire hR (hR.withKd (hR.withB2 (hR.withSc h _) _) _)
  | scKey ra =>
    change EndAlike R (execScKey ra s) (execScKey ra t)
    unfold execScKey
    simp only [hop.buf, hop.admits, hop.load, hop.variant]
    exact endAlike_checked_retire hR h (hR.withSc h _)
  | scNonce ra rb =>
    change EndAlike R (execScNonce ra rb s) (execScNonce ra rb t)
    have hkeyed := congrArg needState (hR.keyed h)
    unfold execScNonce
    simp only [hop.reg, hop.buf, hop.admits, hop.load, hop.variant, hkeyed]
    exact endAlike_checked_retire hR h (hR.loadNonce h _ _ _)
  | scWipe => exact endAlike_retire hR (hR.withSc h _)
  | b2Init ra rb rc imm =>
    change EndAlike R (execB2Init ra rb rc imm s) (execB2Init ra rb rc imm t)
    unfold execB2Init
    simp only [hop.buf, hop.admits, hop.load]
    exact endAlike_checked_retire hR h (hR.withB2 h _)
  | b2Update ra =>
    change EndAlike R (execB2Update ra s) (execB2Update ra t)
    unfold execB2Update
    simp only [hop.buf, hop.admits, hop.load, hR.ready h]
    exact endAlike_checked_retire hR h (hR.absorb h _)
  | b2Wipe => exact endAlike_retire hR (hR.withB2 h _)
  | hmMac rd ra rb imm => exact endAlike_hmMac hR h rd ra rb imm
  | kdInit ra rb rc imm => exact endAlike_kdInit hR h ra rb rc imm
  | kdWipe => exact endAlike_retire hR (hR.withKd h _)
  | evEnc rd ra rb rc => exact endAlike_evEnc hR h rd ra rb rc
  | evDec rd ra rb rc => exact endAlike_evDec hR h rd ra rb rc
  | scBlock | scXor | scKs | b2Final | kdGet => exact Bool.noConfusion hi

end

/-! ## Two states that differ in the queue -/

/-- The state with nothing queued. -/
def State.dropQueue (s : State) : State := { s with queue := [] }

theorem dropQueue_congruence : Congruence fun s t => t = s.dropQueue where
  operands := by rintro s _ rfl; rfl
  csrValue := by rintro s _ rfl csr; cases csr <;> rfl
  keyed := by rintro s _ rfl; rfl
  ready := by rintro s _ rfl; rfl
  trapEntry := by rintro s _ rfl f w; rfl
  retire := by rintro s _ rfl; rfl
  setReg := by rintro s _ rfl r v; rfl
  store := by rintro s _ rfl a v; rfl
  draw := by rintro s _ rfl ss hs; rfl
  withScCfg := by rintro s _ rfl c; rfl
  withEvAlg := by rintro s _ rfl v; rfl
  withEvIter := by rintro s _ rfl v; rfl
  withEvSaltsz := by rintro s _ rfl v; rfl
  withEvHsaltsz := by rintro s _ rfl v; rfl
  withSc := by rintro s _ rfl u; rfl
  withB2 := by rintro s _ rfl u; rfl
  withKd := by rintro s _ rfl u; rfl
  loadNonce := by rintro s _ rfl v n c; rfl
  absorb := by rintro s _ rfl d; rfl

theorem execKdGet_dropQueue (rd ra : Reg) (s : State) :
    EndAlike (fun s t => t = s.dropQueue) (execKdGet rd ra s) (execKdGet rd ra s.dropQueue) := by
  have hR := dropQueue_congruence
  have hkd : s.dropQueue.kd = s.kd := rfl
  unfold execKdGet
  refine endAlike_checked hR rfl _ fun _ => ?_
  dsimp only
  rw [hkd]
  cases s.kd.inst with
  | none => exact endAlike_raise hR rfl _ _
  | some k => exact endAlike_checked_retire hR rfl rfl

/-- A command works the same whatever waits behind it (R25); only fault entry touches the queue (R285). -/
theorem exec_dropQueue (i : Instr) (s : State) :
    EndAlike (fun s t => t = s.dropQueue) (exec i s) (exec i s.dropQueue) := by
  have hR := dropQueue_congruence
  cases hi : i.releases with
  | false => exact exec_endAlike hR rfl hi
  | true =>
    unfold exec
    cases i with
    | scBlock | scXor | scKs | b2Final => exact endAlike_checked_retire hR rfl rfl
    | kdGet rd ra => exact execKdGet_dropQueue rd ra s
    | _ => exact Bool.noConfusion hi

/-! ## Two states that differ in the secrets of the units -/

/-- Absorbing changes neither the output length nor the final flag (R158). -/
theorem blakeAbsorb_kept (b : B2Unit) (data : Bytes) :
    (blakeAbsorb b data).outlen = b.outlen ∧ (blakeAbsorb b data).f0 = b.f0 := by
  induction data generalizing b with
  | nil => exact ⟨rfl, rfl⟩
  | cons d data ih =>
    have hbyte : (blakeAbsorbByte b d).outlen = b.outlen ∧ (blakeAbsorbByte b d).f0 = b.f0 := by
      unfold blakeAbsorbByte
      split <;> exact ⟨rfl, rfl⟩
    obtain ⟨hout, hflag⟩ := ih (blakeAbsorbByte b d)
    exact ⟨hout.trans hbyte.1, hflag.trans hbyte.2⟩

theorem B2Unit.active_blakeAbsorb (b : B2Unit) (data : Bytes) : (blakeAbsorb b data).active = b.active := by
  rw [B2Unit.active, (blakeAbsorb_kept b data).1]
  rfl

theorem B2Unit.final_blakeAbsorb (b : B2Unit) (data : Bytes) : (blakeAbsorb b data).final = b.final := by
  rw [B2Unit.final, (blakeAbsorb_kept b data).2]
  rfl

namespace State.SameView

variable {s t : State}

theorem queue (h : s.SameView t) : t.queue = s.queue := by rw [h.rest]

theorem halted (h : s.SameView t) : t.halted = s.halted := by rw [h.rest]; rfl

theorem busy (h : s.SameView t) : t.busy = s.busy := by rw [State.busy, h.queue, h.halted]; rfl

theorem b2Active (h : s.SameView t) : t.b2.active = s.b2.active := by rw [B2Unit.active, h.outlen]; rfl

theorem b2Ready (h : s.SameView t) : t.b2.ready = s.b2.ready := by rw [B2Unit.ready, h.b2Active, h.final]; rfl

/-- STATUS shows no secret of a unit, nor does any other CSR (R34). -/
theorem csrValue (h : s.SameView t) (busy : Bool) (csr : Csr) : csrValue busy t csr = csrValue busy s csr := by
  cases csr with
  | status =>
    change statusWord busy t = statusWord busy s
    rw [statusWord, h.halted, h.keyed, h.nonced, h.b2Active, h.final, h.active, h.disposed]
    rfl
  | _ => rw [h.rest]; rfl

end State.SameView

theorem sameView_congruence : Congruence State.SameView where
  operands h := by
    rw [SameOperands, h.queue]
    exact h.rest
  csrValue h := h.csrValue true
  keyed h := h.keyed
  ready h := h.b2Ready
  trapEntry h f w := { h with rest := congrArg (trapEntry f w) h.rest }
  retire h := { h with rest := congrArg (fun u => { u with cp := u.cp + 1 }) h.rest }
  setReg h r v := { h with rest := congrArg (State.setReg · r v) h.rest }
  store h a v := { h with rest := congrArg (State.store · a v) h.rest }
  draw h ss hs := { h with rest := congrArg (fun u => (drawSalts u ss hs).2.2.2) h.rest }
  withScCfg h c := { h with rest := congrArg (fun u => { u with scCfg := c }) h.rest }
  withEvAlg h v := { h with rest := congrArg (fun u => { u with evAlg := v }) h.rest }
  withEvIter h v := { h with rest := congrArg (fun u => { u with evIter := v }) h.rest }
  withEvSaltsz h v := { h with rest := congrArg (fun u => { u with evSaltsz := v }) h.rest }
  withEvHsaltsz h v := { h with rest := congrArg (fun u => { u with evHsaltsz := v }) h.rest }
  withSc h u := { h with rest := congrArg (fun v => { v with sc := u }) h.rest, keyed := rfl, nonced := rfl }
  withB2 h u := { h with rest := congrArg (fun v => { v with b2 := u }) h.rest, outlen := rfl, final := rfl }
  withKd h u := { h with rest := congrArg (fun v => { v with kd := u }) h.rest, active := rfl, disposed := rfl }
  loadNonce {s t} h v n c :=
    { h with
      rest := congrArg
        (fun u => { u with sc := { t.sc with cs := loadNonce v n c t.sc.cs, nonced := true } }) h.rest
      nonced := rfl }
  absorb {s t} h d :=
    { h with
      rest := congrArg (fun u => { u with b2 := blakeAbsorb t.b2 d }) h.rest
      outlen := by rw [(blakeAbsorb_kept _ _).1, (blakeAbsorb_kept _ _).1, h.outlen]
      final := by rw [B2Unit.final_blakeAbsorb, B2Unit.final_blakeAbsorb, h.final] }

/-- Settles O21: `SameView` is a congruence for the commands that release nothing, and the ports read no secret. -/
theorem secretsHaveNoReadPath : Obligations.SecretsHaveNoReadPath := by
  intro s t h
  have hop := sameView_congruence.operands h
  refine ⟨fun r => (hop.reg r).symm, fun n => ?_, fun a => ?_, fun i hi => exec_endAlike sameView_congruence h hi⟩
  · have hcsr : csrValue t.busy t = csrValue s.busy s := funext fun csr => by rw [h.busy, h.csrValue]
    rw [csrPort, csrPort, hcsr]
  · rw [bufPort, bufPort, h.busy, h.rest]

end Sys2Proof.Machine
end

section
/-! PROOF. The sequencer: one step, the fault registers, a queued program and the command pointer (10_state.md R24,
R25, R35, R36; 60_exceptions.md R284, R285, R287, R288). -/

namespace Sys2Proof.Machine

open Sys2Proof

/-! ## One step -/

theorem halted_eq_false_iff {s : State} : s.halted = false ↔ s.err = none := by
  rw [State.halted, Option.isSome_eq_false_iff, Option.isNone_iff_eq_none]

/-- A core that is not halted runs its oldest word (R25). -/
theorem sequencerStep_cons {s : State} {w : Word} {q : List Word} (herr : s.err = none) (hq : s.queue = w :: q) :
    sequencerStep s = runWord w { s with queue := q } := by
  simp only [sequencerStep, halted_eq_false_iff.2 herr, hq, Bool.false_eq_true, if_false]

/-- A halted core takes no command, and one with nothing queued stays idle (R285, R308). -/
theorem sequencerStep_idle {s : State} (h : s.halted = true ∨ s.queue = []) : sequencerStep s = .next s := by
  rcases sequencerStep_cases s with ⟨-, he⟩ | ⟨w, q, hrun, hq, -⟩
  · exact he
  · simp [hrun, hq] at h

theorem runWord_of_decode {w : Word} {i : Instr} (h : decode w = .ok i) (s : State) : runWord w s = exec i s := by
  rw [runWord, h]

theorem step_of_moves_nil {s : State} (h : s.moves = []) : step s = sequencerStep s := by
  rw [step, h]

theorem step_of_moves_cons {s : State} {m : HostMove} {ms : List HostMove} (h : s.moves = m :: ms) :
    step s = hostMove m { s with moves := ms } := by
  rw [step, h]

theorem decode_of_decodeTableWord {nbits n : Nat} {i : Instr} (h : decodeTableWord nbits n = some i) :
    decode (BitVec.ofNat 32 (n % 2 ^ nbits)) = .ok i := by
  unfold decodeTableWord at h
  cases hdec : decode (BitVec.ofNat 32 (n % 2 ^ nbits)) with
  | error e => simp [hdec, Except.toOption] at h
  | ok j =>
    rw [hdec] at h
    cases h
    rfl

/-- Settles O7: each clause is one branch of `step` or of `sequencerStep`. -/
theorem stepRunsDecoded : Obligations.StepRunsDecoded := by
  refine ⟨fun s w q i hm herr hq hdec => ?_, fun s w q i ms hm herr hq hdec => ?_, fun s w q hm herr hq => ?_,
    fun s hm h => ?_, fun s m ms hm => step_of_moves_cons hm, fun s nbits n i h => ?_⟩
  · rw [step_of_moves_nil hm, sequencerStep_cons herr hq, runWord_of_decode hdec]
  · rw [step_of_moves_cons hm]
    exact (sequencerStep_cons (s := { s with moves := ms }) herr hq).trans (runWord_of_decode hdec _)
  · rw [step_of_moves_nil hm, sequencerStep_cons herr hq]
  · rw [step_of_moves_nil hm, sequencerStep_idle h]
  · rw [step_of_moves_nil rfl, sequencerStep_cons (s := s.withFetchWord nbits n) rfl rfl]
    exact runWord_of_decode (decode_of_decodeTableWord h) _

/-! ## The fault registers -/

/-- The two ways a command ends, by what they do to the fault registers, the queue and `cp` (R24, R284). -/
theorem exec_faultRegisters {i : Instr} {s t : State} (h : exec i s = .next t) :
    Retired s t ∨ ∃ f : Trap, t.err = some f ∧ t.errcp = s.cp ∧ t.errcmd = encode i ∧ t.queue = [] ∧
      t.cp = s.cp ∧ t.x = s.x ∧ t.moves = s.moves := by
  obtain ⟨t', ht', hends⟩ := commandRetiresOrFaults i s
  cases h.symm.trans ht'
  refine hends.imp_right fun ⟨f, hf, _⟩ => ⟨f, ?_⟩
  rw [hf]
  exact ⟨rfl, rfl, rfl, rfl, rfl, rfl, rfl⟩

/-- Every command answers a next state (R302). -/
theorem exec_next (i : Instr) (s : State) : ∃ t, exec i s = .next t := by
  obtain ⟨t, ht, -⟩ := commandRetiresOrFaults i s
  exact ⟨t, ht⟩

/-- What a word does to the fault registers: nothing, or fault entry with its own index and itself as the
command (R284). -/
theorem runWord_faultRegisters {w : Word} {s t : State} (h : runWord w s = .next t) :
    (t.err = s.err ∧ t.errcp = s.errcp ∧ t.errcmd = s.errcmd) ∨
      ∃ f : Trap, t.err = some f ∧ t.errcp = s.cp ∧ t.errcmd = w ∧ t.queue = [] ∧ t.cp = s.cp := by
  rcases runWord_cases w s with ⟨i, hdec, he⟩ | ⟨e, -, he⟩ <;> rw [he] at h
  · rcases exec_faultRegisters h with ⟨-, herr, hcp, hcmd, -⟩ | ⟨f, herr, hcp, hcmd, hq, hkeep, -⟩
    · exact .inl ⟨herr, hcp, hcmd⟩
    · exact .inr ⟨f, herr, hcp, hcmd.trans (encode_of_decode hdec), hq, hkeep⟩
  · cases h
    exact .inr ⟨.illegalCommand, rfl, rfl, rfl, rfl, rfl⟩

theorem sequencerStep_faultRegisters {s t : State} (h : sequencerStep s = .next t) :
    (t.err = s.err ∧ t.errcp = s.errcp ∧ t.errcmd = s.errcmd) ∨
      ∃ (w : Word) (q : List Word) (f : Trap), s.err = none ∧ s.queue = w :: q ∧ t.err = some f ∧
        t.errcp = s.cp ∧ t.errcmd = w ∧ t.queue = [] ∧ t.cp = s.cp := by
  rcases sequencerStep_cases s with ⟨-, he⟩ | ⟨w, q, hrun, hq, he⟩ <;> rw [he] at h
  · cases h
    exact .inl ⟨rfl, rfl, rfl⟩
  · rcases runWord_faultRegisters h with hsame | ⟨f, hfault⟩
    · exact .inl hsame
    · exact .inr ⟨w, q, f, halted_eq_false_iff.1 hrun, hq, hfault⟩

/-- Settles O12: the sequencer faults or leaves the registers, and of the host's moves only CLRERR and the resets
touch them. -/
theorem faultRegistersChangeOnly : Obligations.FaultRegistersChangeOnly := by
  intro s t ht
  rcases step_cases s with ⟨-, he⟩ | ⟨m, ms, hm, he⟩ <;> rw [he] at ht
  · exact (sequencerStep_faultRegisters ht).imp_right .inl
  · rcases hostMove_cases ht with
      ⟨w, -, -, rfl⟩ | ⟨a, b, -, -, -, rfl⟩ | ⟨rfl, rfl⟩ | ⟨rfl, -, rfl⟩ | ⟨rfl, rfl⟩ | ⟨-, hs⟩
    · exact .inl ⟨rfl, rfl, rfl⟩
    · exact .inl ⟨rfl, rfl, rfl⟩
    · exact .inr (.inr (.inl ⟨ms, hm, rfl⟩))
    · exact .inr (.inr (.inr ⟨ms, .inl hm, rfl, rfl, rfl⟩))
    · exact .inr (.inr (.inr ⟨ms, .inr hm, rfl, rfl, rfl⟩))
    · exact (sequencerStep_faultRegisters hs).imp_right .inl

/-! ## Runs of commands -/

theorem runCommands_cons {i : Instr} {is : List Instr} {s t : State} (h : exec i s = .next t) :
    runCommands (i :: is) s = if t.halted then .next t else runCommands is t := by
  rw [runCommands, h]

/-- A run of commands that ends without a halt has retired every one of them (R24). -/
theorem runCommands_cp {is : List Instr} {s t : State} (h : runCommands is s = .next t) (ht : t.halted = false) :
    t.cp = s.cp + BitVec.ofNat 32 is.length := by
  induction is generalizing s with
  | nil =>
    cases h
    simp
  | cons i is ih =>
    obtain ⟨u, hu⟩ := exec_next i s
    rw [runCommands_cons hu] at h
    split at h
    next hhalt =>
      cases h
      exact absurd (ht.symm.trans hhalt) Bool.false_ne_true
    next hrun =>
      rcases exec_faultRegisters hu with ⟨hcp, -⟩ | ⟨f, herr, -⟩
      · rw [ih h, hcp, List.length_cons, BitVec.add_assoc, Nat.add_comm, BitVec.ofNat_add]
        rfl
      · simp [State.halted, herr] at hrun

/-- `CSRR` answers the value of the CSR in its register (R104). -/
theorem exec_csrr_reg (rd : Reg) (csr : Csr) (s : State) :
    ∃ t, exec (.csrr rd csr) s = .next t ∧ t.reg rd = csrValue true s csr :=
  ⟨_, rfl, (State.reg_setReg s rd rd _).trans (if_pos rfl)⟩

/-- Settles O16: every command of a run that does not halt retires, so `cp` is the index of the `CSRR`. -/
theorem commandPointerCounts : Obligations.CommandPointerCounts := by
  refine ⟨fun busy s => rfl, fun is s t rd hcp _ hrun ht => ?_⟩
  obtain ⟨u, hu, hreg⟩ := exec_csrr_reg rd .cp t
  refine ⟨u, hu, hreg.trans ((runCommands_cp hrun ht).trans ?_)⟩
  rw [hcp]
  exact BitVec.zero_add _

/-! ## A queued program -/

theorem run_succ {M : Host.Core} {n : Nat} {s t : M.State} (h : M.step s = .next t) :
    M.run (n + 1) s = M.run n t := by
  rw [Host.Core.run, h]

/-- A halted core that no host moves stays as it is for ever (R285). -/
theorem run_halted {s : State} (hm : s.moves = []) (hhalt : s.halted = true) (n : Nat) :
    Host.Core.run Sys2Proof.core n s = .next s := by
  induction n with
  | zero => rfl
  | succ n ih =>
    have hstep : step s = .next s := (step_of_moves_nil hm).trans (sequencerStep_idle (.inl hhalt))
    rw [run_succ (M := Sys2Proof.core) hstep, ih]

/-- Settles O8: one step for each command, by induction on the program; a fault leaves nothing queued. -/
theorem queueRunsProgram : Obligations.QueueRunsProgram := by
  intro is
  induction is with
  | nil =>
    intro s _ _ _ hq
    exact congrArg Host.Outcome.next (congrArg (fun q => { s with queue := q }) hq)
  | cons i is ih =>
    intro s hm herr hwf hq
    obtain ⟨hi, his⟩ := List.forall_mem_cons.1 hwf
    obtain ⟨t, _, ht, hdrop, rfl⟩ := exec_dropQueue i { s with queue := is.map encode }
    have hstep : step s = .next t := by
      rw [step_of_moves_nil hm, sequencerStep_cons herr hq, runWord_of_decode (decode_encode hi), ht]
    rw [List.length_cons, run_succ (M := Sys2Proof.core) hstep, runCommands_cons (s := { s with queue := [] }) hdrop]
    rcases exec_faultRegisters ht with hret | ⟨f, hf, -, -, hempty, -, -, hmoves⟩
    · obtain ⟨-, herr', -, -, hq', -, -, hm'⟩ := hret
      rw [if_neg (by simp [State.halted, State.dropQueue, herr', herr])]
      exact ih t (hm'.trans hm) (herr'.trans herr) his hq'
    · have hhalt : t.halted = true := by simp [State.halted, hf]
      have hsame : t.dropQueue = t := congrArg (fun q => { t with queue := q }) hempty.symm
      rw [run_halted (hmoves.trans hm) hhalt, hsame, if_pos hhalt]
      rfl

end Sys2Proof.Machine
end

section
/-! PROOF. Registers, CSRs, STATUS, the host's moves and the reset values (10_state.md R21, R31, R34, R50;
60_exceptions.md R303; 70_reset_and_hazards.md R320, R321). -/

namespace Sys2Proof.Machine

open Sys2Proof

/-! ## Which registers a command writes -/

theorem csrStore_x {s u : State} {v : Word} {csr : Csr} (h : csrStore s v csr = some u) : u.x = s.x := by
  cases csr with
  | scCfg | evAlg | evSaltsz | evHsaltsz =>
    obtain ⟨_, -, rfl⟩ := Option.map_eq_some_iff.1 h
    rfl
  | evIter =>
    obtain rfl := Option.some.inj h
    rfl
  | id | status | err | errcp | errcmd | cp => cases h

theorem State.reg_setReg_of_ne {s : State} {r q : Reg} (h : q ≠ r) (v : Word) : (s.setReg r v).reg q = s.reg q :=
  (State.reg_setReg s r q v).trans (if_neg h)

/-- A command that passes its checks leaves every register it is not said to write (R21). -/
theorem Effect.reg_eq {s u : State} {i : Instr} (he : Effect s i u) {r : Reg} (hr : r ∉ i.writes) :
    u.reg r = s.reg r := by
  cases he with
  | setlo | sethi | mov | csrr | evEnc => exact State.reg_setReg_of_ne (List.ne_of_not_mem_cons hr) _
  | csrw stored => exact congrArg (fun x => x.get r.toFin) (csrStore_x stored)
  | evDec =>
    obtain ⟨hmd, hpt⟩ := not_or.1 (mt List.mem_pair.2 hr)
    rw [State.reg_setReg_of_ne hpt]
    split
    · exact State.reg_setReg_of_ne hmd _
    · rfl
  | _ => rfl

theorem FaultsFrom.x_eq {s u : State} {i : Instr} (hf : FaultsFrom s i u) : u.x = s.x := by
  cases hf <;> rfl

theorem exec_reg_eq {i : Instr} {s t : State} (h : exec i s = .next t) {r : Reg} (hr : r ∉ i.writes) :
    t.reg r = s.reg r := by
  rcases exec_ends i s with ⟨f, u, hu, he⟩ | ⟨u, hu, he⟩ <;> rw [he] at h <;> cases h
  · exact congrArg (fun x => x.get r.toFin) hu.x_eq
  · exact hu.reg_eq hr

/-- Settles O15: by the effect of each command, and by fault entry and the host's moves touching no register. -/
theorem registersWritten : Obligations.RegistersWritten := by
  refine ⟨fun i s t ht => ⟨fun r hne => ?_, fun hrun hhalt => ?_⟩, fun m s t hm ht => ?_⟩
  · by_contra hr
    exact hne (exec_reg_eq ht hr)
  · rcases exec_faultRegisters ht with ⟨-, herr, -⟩ | ⟨f, -, -, -, -, -, hx, -⟩
    · rw [State.halted, herr] at hhalt
      exact absurd (hrun.symm.trans hhalt) Bool.false_ne_true
    · exact hx
  · rcases hostMove_cases ht with
      ⟨w, -, -, rfl⟩ | ⟨a, b, -, -, -, rfl⟩ | ⟨-, rfl⟩ | ⟨rfl, -⟩ | ⟨rfl, -⟩ | ⟨rfl, -⟩
    · rfl
    · rfl
    · rfl
    all_goals simp at hm

/-! ## Reading a CSR back -/

/-- A word of `SC_CFG` as its three fields (R37). -/
theorem scCfg_fields (v : Word) :
    v.extractLsb' 3 29 ++ v.extractLsb' 1 2 ++ BitVec.ofBool (v.getLsbD 0) = v := by
  refine BitVec.eq_of_getLsbD_eq fun k hk => ?_
  simp only [BitVec.getLsbD_append, BitVec.getLsbD_extractLsb']
  interval_cases k <;> simp

/-- A legal word of `SC_CFG` is the word of its setting (R37). -/
theorem scCfgWord_of_scCfgOf {v : Word} {c : ScCfg} (h : scCfgOf v = some c) : scCfgWord c = v := by
  unfold scCfgOf at h
  split at h
  next => cases h
  next hreserved =>
    have hv := scCfg_fields v
    rw [not_not.1 hreserved] at hv
    dsimp only at h
    split at h <;> cases h
    all_goals
      rename_i hr
      rw [hr] at hv
      rw [← hv]
      cases v.getLsbD 0 <;> rfl

/-- A legal value of a CSR of 16 bits is its low half (R30). -/
theorem setWidth_of_half16 {v : Word} {c : Half} (h : half16 v = some c) : c.setWidth 32 = v := by
  unfold half16 at h
  split at h
  next hz =>
    cases h
    have hhigh := congrArg BitVec.toNat hz
    rw [BitVec.extractLsb'_toNat, Nat.shiftRight_eq_div_pow] at hhigh
    refine BitVec.eq_of_toNat_eq ?_
    have hv := v.isLt
    simp only [BitVec.ofNat_eq_ofNat, BitVec.toNat_ofNat, Nat.zero_mod, BitVec.toNat_setWidth] at hhigh ⊢
    omega
  next => cases h

/-- A stored value is the value of its CSR (R31). -/
theorem csrValue_csrStore {s u : State} {v : Word} {csr : Csr} (h : csrStore s v csr = some u)
    (busy : Bool) (c : Word) : csrValue busy { u with cp := c } csr = v := by
  cases csr with
  | scCfg =>
    obtain ⟨_, hc, rfl⟩ := Option.map_eq_some_iff.1 h
    exact scCfgWord_of_scCfgOf hc
  | evAlg | evSaltsz | evHsaltsz =>
    obtain ⟨_, hc, rfl⟩ := Option.map_eq_some_iff.1 h
    exact setWidth_of_half16 hc
  | evIter =>
    obtain rfl := Option.some.inj h
    rfl
  | id | status | err | errcp | errcmd | cp => cases h

/-- Settles O23: a `CSRW` that moves `cp` on took no fault, so it stored its value. -/
theorem csrReadsBackWrite : Obligations.CsrReadsBackWrite := by
  intro csr ra rd s t ht hcp
  obtain ⟨u, hu, hreg⟩ := exec_csrr_reg rd csr t
  refine ⟨u, hu, hreg.trans ?_⟩
  rcases exec_ends (.csrw csr ra) s with ⟨f, v, hv, he⟩ | ⟨v, hv, he⟩ <;> rw [he] at ht <;> cases ht
  · cases hv
    simp at hcp
  · cases hv with
    | csrw stored => exact csrValue_csrStore stored true _

/-! ## STATUS -/

theorem flagBit_true (i : Nat) : flagBit true i = BitVec.ofNat 32 (2 ^ i) := by
  rw [flagBit, if_pos rfl, Nat.one_shiftLeft]
  rfl

/-- A word with one bit has that bit alone. -/
theorem getLsbD_flagBit (b : Bool) {i : Nat} (hi : i < 32) (k : Nat) :
    (flagBit b i).getLsbD k = (b && decide (k = i)) := by
  cases b with
  | false => exact BitVec.getLsbD_zero
  | true =>
    rw [flagBit_true, BitVec.getLsbD_ofNat, Nat.testBit_two_pow, Bool.eq_iff_iff]
    simp only [Bool.and_eq_true, decide_eq_true_eq, true_and]
    omega

theorem errWord_ne_zero_iff (e : Option Trap) : errWord e ≠ 0 ↔ e.isSome = true := by
  cases e with
  | none => decide
  | some f => cases f <;> decide

theorem getLsbD_statusWord (busy : Bool) (s : State) (k : Nat) :
    (statusWord busy s).getLsbD k =
      ((busy && decide (k = 0)) || (s.halted && decide (k = 1)) || (s.sc.keyed && decide (k = 8))
        || (s.sc.nonced && decide (k = 9)) || (s.b2.active && decide (k = 12)) || (s.b2.final && decide (k = 13))
        || (s.kd.active && decide (k = 16)) || (s.kd.disposed && decide (k = 17))) := by
  simp [statusWord, getLsbD_flagBit]

/-- Settles O22: every flag has its own bit. -/
theorem statusBits : Obligations.StatusBits := by
  refine ⟨fun busy s k hk => ?_, fun rd s hrun => ?_, fun s hempty => ?_⟩
  · rw [getLsbD_statusWord]
    have hhalt : s.halted = decide (errWord s.err ≠ 0) := by
      rw [Bool.eq_iff_iff, decide_eq_true_eq, errWord_ne_zero_iff, State.halted]
    interval_cases k <;> simp [hhalt, B2Unit.active, B2Unit.final, KdUnit.active]
  · obtain ⟨t, ht, hreg⟩ := exec_csrr_reg rd .status s
    refine ⟨t, ht, ?_, ?_⟩ <;> rw [hreg]
    · exact (getLsbD_statusWord true s 0).trans (by simp)
    · exact (getLsbD_statusWord true s 1).trans (by simp [hrun])
  · have hbusy : s.busy = !s.queue.isEmpty := by
      rw [State.busy]
      cases hh : s.halted with
      | false => simp
      | true => simp [hempty hh]
    change some (statusWord s.busy s) = _
    rw [hbusy]

/-! ## The host -/

theorem portReady_iff {s : State} : s.portReady = true ↔ s.queue.length < s.cfg.cmdqDepth ∧ s.halted = false := by
  simp [State.portReady]

/-- Settles O10: each clause is one branch of `hostMove` or of a port. -/
theorem hostMovesAsAllowed : Obligations.HostMovesAsAllowed := by
  intro s w a b
  refine ⟨fun hroom hrun => ?_, fun hnot => ?_, fun hfree ha hwf => ?_, fun hfree ha => ?_, fun hbusy => ?_, rfl,
    fun hfree => ?_, rfl, rfl, fun r => rfl, fun n => rfl⟩
  · exact if_pos (portReady_iff.2 ⟨hroom, hrun⟩)
  · refine if_neg fun hready => ?_
    obtain ⟨hroom, hrun⟩ := portReady_iff.1 hready
    rcases hnot with hfull | hhalt
    · omega
    · exact absurd (hrun.symm.trans hhalt) Bool.false_ne_true
  · refine ⟨by simp [bufPort, hfree, ha], s.mem.writeByte a b, by simp [hostMove, hfree, ha], ?_⟩
    exact Memory.write_stored hwf a [b]
  · have hout : ¬ a < s.cfg.bufBytes := by omega
    exact ⟨by simp [hostMove, hfree, hout], by simp [bufPort, ha]⟩
  · exact ⟨by simp [hostMove, hbusy], by simp [bufPort, hbusy], by simp [hostMove, hbusy]⟩
  · simp [hostMove, hfree, softReset]

/-! ## Reset -/

/-- The column of the table for the CSRs (R30, R50). -/
theorem csrValue_reset (csr : Csr) : csrValue false State.reset csr = if csr = .id then 0x47530001 else 0 := by
  cases csr <;> decide

/-- No CSR shows a field that hard reset keeps. -/
theorem csrValue_hardReset (s : State) (csr : Csr) :
    csrValue (hardReset s).busy (hardReset s) csr = csrValue false State.reset csr := by
  cases csr <;> rfl

/-- Settles O11: every field of the hard reset is the one of `State.reset`, and that is the table. -/
theorem resetValues : Obligations.ResetValues := by
  refine ⟨fun s => ?_, fun s hfree => by simp [hostMove, hfree, softReset], rfl⟩
  refine ⟨fun r => ?_, rfl, rfl, rfl, rfl, fun csr => ?_, fun i => ?_, rfl, rfl, fun i => ?_, rfl, rfl, rfl, rfl,
    fun i => ?_, rfl, rfl, rfl, rfl, fun a => rfl, rfl, rfl, rfl, rfl⟩
  · simp [State.reg, State.reset]
  · exact (csrValue_hardReset s csr).trans (csrValue_reset csr)
  · simp [State.reset, ScUnit.zero]
  · simp [State.reset, B2Unit.zero]
  · simp [State.reset, B2Unit.zero]

end Sys2Proof.Machine
end

section
/-! PROOF. SC.XOR: the keystream byte by byte, the faults in order and every byte written (20_memory.md R63;
41_stream_cipher.md R129, R133). -/

namespace Sys2Proof

/-! ## Words of the stream cipher -/

/-- The two unused fields `rb` and `rc` of a word of format R are eight bits that must be zero (R81, R87). -/
theorem formatR_rd_ra (o : Op) (ra rd : Reg) (imm : Byte) :
    formatR o ra 0 0 rd imm = o.code ++ ra ++ 0#8 ++ rd ++ imm := by
  refine BitVec.eq_of_getLsbD_eq fun k hk => ?_
  simp only [formatR, BitVec.getLsbD_append]
  interval_cases k <;> simp

/-- The word of a command with a pair field of 15 does not decode (R88, case 3). -/
theorem decode_encode_of_pairsOk_false {i : Instr} (h : i.pairsOk = false) :
    decode (encode i) = .error .pairField15 := by
  have hfixed := encode_fixedBits i
  simp [decode, opField_of_fixedBits hfixed, hfixed, readFields_encode, h]

end Sys2Proof

namespace Sys2Proof.Machine

open Sys2Proof

theorem runWord_encode_of_pairsOk_false {i : Instr} (h : i.pairsOk = false) (s : State) :
    runWord (encode i) s = raise .illegalCommand (encode i) s := by
  rw [runWord, decode_encode_of_pairsOk_false h]

/-! ## The keystream byte by byte -/

@[simp] theorem length_keystreamBlock (c : ScCfg) (cs : Vector Word 16) : (keystreamBlock c cs).length = 64 := by
  have h := length_flatMap_const
    (Vector.zipWith (· + ·) (doubleRounds c.variant (c.rounds.count / 2) cs) cs).toList toLe32
    (fun v => length_toLe 4 v.toNat)
  rw [List.flatMap_def, Vector.length_toList] at h
  exact h

@[simp] theorem length_keystream (c : ScCfg) (n : Nat) (cs : Vector Word 16) :
    (keystream c n cs).length = 64 * n := by
  induction n generalizing cs with
  | zero => rfl
  | succ n ih =>
    rw [keystream, List.length_append, length_keystreamBlock, ih]
    omega

/-- Byte `k` of the keystream is byte `k mod 64` of the block after `k / 64` counter steps (R129). -/
theorem getD_keystream (c : ScCfg) {n k : Nat} (h : k < 64 * n) (cs : Vector Word 16) :
    (keystream c n cs).getD k 0 = (keystreamBlock c ((counterStep c.variant)^[k / 64] cs)).getD (k % 64) 0 := by
  induction n generalizing k cs with
  | zero => omega
  | succ n ih =>
    rw [keystream]
    by_cases hk : k < 64
    · rw [List.getD_append _ _ _ _ (by simpa using hk), Nat.div_eq_of_lt hk, Nat.mod_eq_of_lt hk]
      rfl
    · obtain ⟨j, rfl⟩ := Nat.exists_eq_add_of_le' (Nat.le_of_not_lt hk)
      rw [List.getD_append_right _ _ _ _ (by simp), length_keystreamBlock, Nat.add_sub_cancel, ih (by omega),
        Nat.add_mod_right, Nat.add_div_right j (by decide), Function.iterate_succ_apply]

theorem advance_eq_iterate (v : Variant) (n : Nat) (cs : Vector Word 16) :
    advance v n cs = (counterStep v)^[n] cs := by
  induction n generalizing cs with
  | zero => rfl
  | succ n ih => rw [advance, ih, Function.iterate_succ_apply]

/-- The blocks a command of `n` bytes generates hold at least `n` bytes (R133). -/
theorem le_blocksFor (n : Nat) : n ≤ 64 * blocksFor n := by
  rw [blocksFor, ceilDiv]
  omega

@[simp] theorem length_keystreamBytes (s : State) (n : Nat) : (keystreamBytes s n).length = n := by
  rw [keystreamBytes, List.length_take, length_keystream, min_eq_left (le_blocksFor n)]

/-- The bytes a command takes from the keystream are its first ones, in order (R133). -/
theorem getD_keystreamBytes (s : State) {n k : Nat} (h : k < n) :
    (keystreamBytes s n).getD k 0 = keystreamByte s k := by
  have hblocks := le_blocksFor n
  rw [keystreamByte, ← getD_keystream s.scCfg (n := blocksFor n) (by omega), keystreamBytes, List.getD_eq_getElem?_getD,
    List.getElem?_take_of_lt h, ← List.getD_eq_getElem?_getD]

/-- The counter moves on by the blocks begun (R128, R133). -/
theorem advance_blocksFor (s : State) (n : Nat) :
    advance s.scCfg.variant (blocksFor n) s.sc.cs = cipherStateAfter s n :=
  advance_eq_iterate _ _ _

theorem getD_xorBytes {a b : Bytes} {k : Nat} (ha : k < a.length) (hb : k < b.length) :
    (xorBytes a b).getD k 0 = a.getD k 0 ^^^ b.getD k 0 := by
  have hk : k < (xorBytes a b).length := by
    rw [length_xorBytes]
    omega
  rw [List.getD_eq_getElem _ _ hk, List.getD_eq_getElem _ _ ha, List.getD_eq_getElem _ _ hb]
  exact List.getElem_zipWith

theorem State.getD_load (s : State) {r : Range} {k : Nat} (h : k < r.len) :
    (s.load r).getD k 0 = s.mem.readByte (r.addr + k) :=
  Memory.getD_read _ _ _ _ h

/-! ## SC.XOR -/

section
variable {s : State} {rd ra : Reg}

theorem scReady_iff : s.scReady = true ↔ s.sc.keyed = true ∧ s.sc.nonced = true := by
  simp [State.scReady]

theorem pairsOk_scXor : (Instr.scXor rd ra).pairsOk = true ↔ ra ≠ 15 := by
  simp [Instr.pairsOk, Instr.pairFields, Reg.pairOk]

/-- The output is the input exactly when both start at the same address (R63, R133). -/
theorem dest_eq_buf_iff : s.dest rd (s.buf ra).len = s.buf ra ↔ s.reg rd = s.reg ra := by
  simp [State.dest, State.buf, State.num, BitVec.toNat_inj]

/-- The string `SC.XOR` stores: the input bytes exclusive-ored with the keystream (R133). -/
def State.xored (s : State) (ra : Reg) : Bytes :=
  xorBytes (s.load (s.buf ra)) (keystreamBytes s (s.buf ra).len)

@[simp] theorem length_xored : (s.xored ra).length = (s.buf ra).len := by
  simp [State.xored, State.length_load]

theorem getD_xored {k : Nat} (h : k < (s.buf ra).len) :
    (s.xored ra).getD k 0 = s.mem.readByte (s.num ra + k) ^^^ keystreamByte s k := by
  rw [State.xored, getD_xorBytes (by simpa [State.length_load] using h) (by simpa using h), State.getD_load s h,
    getD_keystreamBytes s h]
  rfl

/-- All that `SC.XOR` does once its pair is legal: its checks in their order, then its effect (R63, R133). -/
theorem exec_scXor_eq (hra : ra ≠ 15) :
    exec (.scXor rd ra) s =
      if s.sc.keyed = true ∧ s.sc.nonced = true then
        if s.admits (s.buf ra) = true ∧ s.admits (s.dest rd (s.buf ra).len) = true then
          if s.reg rd = s.reg ra ∨ (s.dest rd (s.buf ra).len).overlaps (s.buf ra) = false then
            retire ((advanceSc s (s.buf ra).len).store (s.num rd) (s.xored ra))
          else raise .address (encode (.scXor rd ra)) s
        else raise .address (encode (.scXor rd ra)) s
      else raise .state (encode (.scXor rd ra)) s := by
  change execScXor rd ra s = _
  simp only [execScXor, checked_cons, checked_nil, pairCheck, needState, needAddress, pairsOk_scXor.2 hra, scReady_iff,
    Bool.and_eq_true, Bool.or_eq_true, decide_eq_true_eq, Bool.not_eq_true', dest_eq_buf_iff, if_true]
  rfl

/-- What `SC.XOR` leaves in BUF: at the output the exclusive or, and every other byte as it was (R61, R133). -/
theorem readByte_write_xored (hwf : s.mem.wf = true) (a : Nat) :
    (s.mem.write (s.num rd) (s.xored ra)).readByte a =
      if s.num rd ≤ a ∧ a < s.num rd + (s.buf ra).len then
        s.mem.readByte (s.num ra + (a - s.num rd)) ^^^ keystreamByte s (a - s.num rd)
      else s.mem.readByte a := by
  rw [Memory.write_stored hwf, length_xored]
  split
  next h => exact getD_xored (by omega)
  next => rfl

end

/-- Settles O32: each clause is one branch of `exec_scXor_eq`, and BUF afterwards is `readByte_write_xored`. -/
theorem scXorWrites : Obligations.ScXorWrites := by
  intro rd ra s
  refine ⟨formatR_rd_ra .scXor ra rd 0, fun hra => ?_, fun hra hsc => ?_, fun hra hkey hnonce hadm => ?_,
    fun hra hkey hnonce hin hout hne hlap => ?_, fun hra hkey hnonce hin hout hapart hwf => ?_⟩
  · refine runWord_encode_of_pairsOk_false ?_ s
    rw [← Bool.not_eq_true, pairsOk_scXor, not_not]
    exact hra
  · rw [exec_scXor_eq hra, if_neg]
    rintro ⟨hkey, hnonce⟩
    simp [hkey, hnonce] at hsc
  · rw [exec_scXor_eq hra, if_pos ⟨hkey, hnonce⟩, if_neg]
    rintro ⟨hin, hout⟩
    simp [hin, hout] at hadm
  · rw [exec_scXor_eq hra, if_pos ⟨hkey, hnonce⟩, if_pos ⟨hin, hout⟩, if_neg]
    simp [hne, hlap]
  · rw [exec_scXor_eq hra, if_pos ⟨hkey, hnonce⟩, if_pos ⟨hin, hout⟩, if_pos hapart, retire_eq]
    refine ⟨_, rfl, rfl, ?_, readByte_write_xored hwf⟩
    simp only [store_sc, advanceSc_sc, advance_blocksFor]

end Sys2Proof.Machine
end

section
/-! PROOF. The words of the opcode table: the round trip of decoder and encoder, which row a word belongs to, and the
check that refuses a word of none (30_encoding.md R87 to R89, R93). -/

namespace Sys2Proof

/-- Settles O1: the operands are read back, and a well-formed command passes the checks. -/
theorem decodeOfEncode : Obligations.DecodeOfEncode := fun _ => decode_encode

/-- Settles O2: the decoder checks well-formedness, and every bit of the word is fixed or in a field read. -/
theorem encodeOfDecode : Obligations.EncodeOfDecode := by
  intro w i h
  obtain ⟨_, -, -, hwf⟩ := decode_eq_ok h
  exact ⟨hwf, encode_of_decode h⟩

/-! ## What is read from a word with the fixed bits of a row -/

theorem Instr.wf_iff {i : Instr} : i.wf = true ↔ i.pairsOk = true ∧ i.csrOk = true := by
  simp [Instr.wf]

theorem Instr.pairsOk_iff {i : Instr} : i.pairsOk = true ↔ ∀ r ∈ i.pairFields, r ≠ 15 := by
  simp [Instr.pairsOk, Reg.pairOk]

/-- All that reading the operands of a row can do: a command of that row, with the row's pair fields, or, in the two
rows of format C, a CSR number that is not implemented (R88, cases 3 and 4). -/
theorem readFields_cases (o : Op) (w : Word) :
    (∃ i, readFields o w = .ok i ∧ i.op = o ∧ i.pairFields = o.pairPlaces.map (· w)) ∨
      ((o = .csrr ∨ o = .csrw) ∧ Csr.ofNumber (csrField w) = none ∧ readFields o w = .error .csrUnimplemented) := by
  cases o with
  | csrr =>
    cases hcsr : Csr.ofNumber (csrField w) with
    | some c => exact .inl ⟨.csrr (raField w) c, by simp [readFields, hcsr], rfl, rfl⟩
    | none => exact .inr ⟨.inl rfl, rfl, by simp [readFields, hcsr]⟩
  | csrw =>
    cases hcsr : Csr.ofNumber (csrField w) with
    | some c => exact .inl ⟨.csrw c (raField w), by simp [readFields, hcsr], rfl, rfl⟩
    | none => exact .inr ⟨.inr rfl, rfl, by simp [readFields, hcsr]⟩
  | _ => exact .inl ⟨_, rfl, rfl, rfl⟩

section
variable {w : Word} {o : Op} {i : Instr}

theorem op_of_readFields (h : readFields o w = .ok i) : i.op = o := by
  rcases readFields_cases o w with ⟨j, hj, hop, -⟩ | ⟨-, -, he⟩
  · cases h.symm.trans hj
    exact hop
  · cases h.symm.trans he

/-- The pair check of a command is the pair check of its word (R88, case 3). -/
theorem pairsOk_iff_of_readFields (h : readFields o w = .ok i) :
    i.pairsOk = true ↔ ∀ field ∈ o.pairPlaces, field w ≠ 15 := by
  rcases readFields_cases o w with ⟨j, hj, -, hfields⟩ | ⟨-, -, he⟩
  · cases h.symm.trans hj
    simp [Instr.pairsOk_iff, hfields]
  · cases h.symm.trans he

/-- The only command read from a word that names no legal CSR is a `CSRW` of a read-only one (R88, case 4). -/
theorem csrOk_eq_false_iff_of_readFields (h : readFields o w = .ok i) :
    i.csrOk = false ↔ o = .csrw ∧ ∃ c, Csr.ofNumber (csrField w) = some c ∧ c.writable = false := by
  cases o with
  | csrw =>
    simp only [readFields] at h
    split at h <;> cases h
    simp [Instr.csrOk, *]
  | csrr =>
    simp only [readFields] at h
    split at h <;> cases h
    simp [Instr.csrOk]
  | _ =>
    cases h
    simp [Instr.csrOk]

/-- A CSR number is legal for a row exactly when the row's operands can be read and the command may name that CSR
(R88, case 4). -/
theorem Op.csrLegal_iff : o.csrLegal w ↔ ∃ i, readFields o w = .ok i ∧ i.csrOk = true := by
  cases o with
  | csrr | csrw =>
    cases hcsr : Csr.ofNumber (csrField w) <;> simp [Op.csrLegal, readFields, hcsr, Instr.csrOk]
  | _ => simp [Op.csrLegal, readFields, Instr.csrOk]

/-! ## The decoder on a word with the fixed bits of a row -/

theorem decode_of_readFields_error {e : DecodeError} (h : w &&& o.mask = o.fixedBits)
    (hread : readFields o w = .error e) : decode w = .error e := by
  simp [decode, opField_of_fixedBits h, h, hread]

theorem decode_of_readFields_ok (h : w &&& o.mask = o.fixedBits) (hread : readFields o w = .ok i) :
    decode w =
      if i.pairsOk = true then if i.csrOk = true then .ok i else .error .csrReadOnly else .error .pairField15 := by
  cases hpairs : i.pairsOk <;> cases hcsr : i.csrOk <;>
    simp [decode, opField_of_fixedBits h, h, hread, hpairs, hcsr]

/-- A word decodes to a command of a row exactly when it is the row's (R87, R88). -/
theorem exists_decode_iff_owns : (∃ i, decode w = .ok i ∧ i.op = o) ↔ o.owns w := by
  constructor
  · rintro ⟨i, hdec, rfl⟩
    obtain ⟨o, hfixed, hread, hwf⟩ := decode_eq_ok hdec
    obtain ⟨hpairs, hcsr⟩ := Instr.wf_iff.1 hwf
    rw [op_of_readFields hread]
    exact ⟨hfixed, (pairsOk_iff_of_readFields hread).1 hpairs, Op.csrLegal_iff.2 ⟨i, hread, hcsr⟩⟩
  · rintro ⟨hfixed, hpairs, hlegal⟩
    obtain ⟨i, hread, hcsr⟩ := Op.csrLegal_iff.1 hlegal
    refine ⟨i, ?_, op_of_readFields hread⟩
    rw [decode_of_readFields_ok hfixed hread, if_pos ((pairsOk_iff_of_readFields hread).2 hpairs), if_pos hcsr]

end

/-- Settles O3. -/
theorem wordIsCommandOfRow : Obligations.WordIsCommandOfRow := fun _ _ => exists_decode_iff_owns

/-- Settles O4: a word that decodes belongs to the row of its command, so a word of no row is refused. -/
theorem illegalWordFaults : Obligations.IllegalWordFaults := by
  refine fun w s => ⟨fun hnone => ?_, fun o howns => ?_⟩
  · rcases Machine.runWord_cases w s with ⟨i, hdec, -⟩ | ⟨_, -, hrun⟩
    · exact absurd (exists_decode_iff_owns.1 ⟨i, hdec, rfl⟩) (hnone i.op)
    · rw [hrun, Machine.raise_eq]
  · obtain ⟨i, hdec, hop⟩ := exists_decode_iff_owns.2 howns
    exact ⟨i, hop, hdec, Machine.runWord_of_decode hdec s⟩

/-! ## The check that refuses a word -/

/-- `Refused w e`: the word fails the check that `e` names, having passed those that come before it in R89. -/
inductive Refused (w : Word) : DecodeError → Prop
  /-- R88, case 1. -/
  | unknownOpcode (hop : ∀ o : Op, opField w ≠ o.code) : Refused w .unknownOpcode
  /-- R88, case 2. -/
  | mustBeZero {o : Op} (hop : opField w = o.code) (hbits : w &&& o.mask ≠ o.fixedBits) : Refused w .mustBeZero
  /-- R88, case 3. -/
  | pairField15 {o : Op} (hfixed : w &&& o.mask = o.fixedBits) {field : Word → Reg} (hplace : field ∈ o.pairPlaces)
      (h15 : field w = 15) : Refused w .pairField15
  /-- R88, case 4. -/
  | csrUnimplemented {o : Op} (hformat : o = .csrr ∨ o = .csrw) (hfixed : w &&& o.mask = o.fixedBits)
      (hcsr : Csr.ofNumber (csrField w) = none) : Refused w .csrUnimplemented
  /-- R88, case 4. -/
  | csrReadOnly (hfixed : w &&& Op.csrw.mask = Op.csrw.fixedBits) {csr : Csr}
      (hcsr : Csr.ofNumber (csrField w) = some csr) (hro : csr.writable = false) : Refused w .csrReadOnly

/-- The decoder's first two checks find the row of a word, or refuse it (R89). -/
theorem decode_row_cases (w : Word) :
    (∃ o : Op, w &&& o.mask = o.fixedBits) ∨ ∃ e, Refused w e ∧ decode w = .error e := by
  cases hrow : Op.ofCode (opField w) with
  | none =>
    refine .inr ⟨_, .unknownOpcode fun o ho => ?_, by simp [decode, hrow]⟩
    rw [ho, Op.ofCode_code] at hrow
    cases hrow
  | some o =>
    by_cases hbits : w &&& o.mask = o.fixedBits
    · exact .inl ⟨o, hbits⟩
    · exact .inr ⟨_, .mustBeZero (Op.eq_code_of_ofCode hrow) hbits, by simp [decode, hrow, hbits]⟩

/-- A word that the decoder refuses fails the check named. -/
theorem refused_of_decode {w : Word} {e : DecodeError} (h : decode w = .error e) : Refused w e := by
  rcases decode_row_cases w with ⟨o, hfixed⟩ | ⟨e', href, hdec⟩
  · rcases readFields_cases o w with ⟨i, hread, -, -⟩ | ⟨hformat, hcsr, hread⟩
    · rw [decode_of_readFields_ok hfixed hread] at h
      split at h
      next =>
        split at h <;> cases h
        next hcsr =>
          obtain ⟨rfl, c, hc, hro⟩ := (csrOk_eq_false_iff_of_readFields hread).1 (Bool.eq_false_iff.2 hcsr)
          exact .csrReadOnly hfixed hc hro
      next hpairs =>
        cases h
        rw [pairsOk_iff_of_readFields hread] at hpairs
        push Not at hpairs
        obtain ⟨field, hplace, h15⟩ := hpairs
        exact .pairField15 hfixed hplace h15
    · cases h.symm.trans (decode_of_readFields_error hfixed hread)
      exact .csrUnimplemented hformat hfixed hcsr
  · cases h.symm.trans hdec
    exact href

/-- The decoder refuses a word by the name of the check it fails. -/
theorem decode_of_refused {w : Word} {e : DecodeError} (h : Refused w e) : decode w = .error e := by
  cases h with
  | unknownOpcode hop =>
    cases hrow : Op.ofCode (opField w) with
    | none => simp [decode, hrow]
    | some o => exact absurd (Op.eq_code_of_ofCode hrow) (hop o)
  | mustBeZero hop hbits => simp [decode, hop, hbits]
  | @pairField15 o hfixed field hplace h15 =>
    rcases readFields_cases o w with ⟨i, hread, -, -⟩ | ⟨rfl | rfl, -, -⟩
    · rw [decode_of_readFields_ok hfixed hread, if_neg]
      exact fun hpairs => (pairsOk_iff_of_readFields hread).1 hpairs field hplace h15
    all_goals cases hplace
  | @csrUnimplemented o hformat hfixed hcsr =>
    refine decode_of_readFields_error hfixed ?_
    rcases hformat with rfl | rfl <;> simp [readFields, hcsr]
  | @csrReadOnly hfixed csr hcsr hro =>
    have hread : readFields .csrw w = .ok (.csrw csr (raField w)) := by simp [readFields, hcsr]
    rw [decode_of_readFields_ok hfixed hread]
    simp [Instr.pairsOk, Instr.pairFields, Instr.csrOk, hro]

theorem decode_eq_error_iff {w : Word} {e : DecodeError} : decode w = .error e ↔ Refused w e :=
  ⟨refused_of_decode, decode_of_refused⟩

/-- Settles O5: each clause is one constructor of `Refused`. -/
theorem decodeCheckOrder : Obligations.DecodeCheckOrder := by
  intro w
  simp only [decode_eq_error_iff]
  refine ⟨⟨fun h => ?_, .unknownOpcode⟩, ⟨fun h => ?_, fun ⟨_, hop, hbits⟩ => .mustBeZero hop hbits⟩,
    ⟨fun h => ?_, fun ⟨_, hfixed, _, hplace, h15⟩ => .pairField15 hfixed hplace h15⟩,
    ⟨fun h => ?_, fun ⟨_, hformat, hfixed, hcsr⟩ => .csrUnimplemented hformat hfixed hcsr⟩,
    ⟨fun h => ?_, fun ⟨hfixed, _, hcsr, hro⟩ => .csrReadOnly hfixed hcsr hro⟩⟩
  · cases h with | unknownOpcode hop => exact hop
  · cases h with | mustBeZero hop hbits => exact ⟨_, hop, hbits⟩
  · cases h with | pairField15 hfixed hplace h15 => exact ⟨_, hfixed, _, hplace, h15⟩
  · cases h with | csrUnimplemented hformat hfixed hcsr => exact ⟨_, hformat, hfixed, hcsr⟩
  · cases h with | csrReadOnly hfixed hcsr hro => exact ⟨hfixed, _, hcsr, hro⟩

/-! ## Worked encodings -/

/-- A word written out is decoded by encoding the command it stands for. -/
theorem decode_of_encode_eq {w : Word} {i : Instr} (hwf : i.wf = true) (h : encode i = w) : decode w = .ok i :=
  h ▸ decode_encode hwf

/-- A word that fails a check decodes to no command. -/
theorem Refused.decode_toOption {w : Word} {e : DecodeError} (h : Refused w e) : (decode w).toOption = none := by
  rw [decode_of_refused h]
  rfl

/-- Settles O6: the legal words are those of their commands; the illegal ones fail the must-be-zero bits of NOP, the
pair field of SC.KEY and the opcode. -/
theorem workedEncodings : Obligations.WorkedEncodings := by
  refine ⟨?_, ?_, ?_, ?_, ?_, ?_, ?_, ?_, ?_, ?_, ?_, ?_, ?_, ?_, ?_, ?_, ?_, ?_, ?_, ?nop, ?pair, ?opcode⟩
  case nop => exact (Refused.mustBeZero (o := .nop) rfl (by decide)).decode_toOption
  case pair => exact (Refused.pairField15 (o := .scKey) rfl (.head _) rfl).decode_toOption
  case opcode => exact (Refused.unknownOpcode fun o => by cases o <;> decide).decode_toOption
  all_goals exact decode_of_encode_eq rfl rfl

end Sys2Proof
end

section
/-! PROOF. The pseudo-commands LI and KD.DERIVE (30_encoding.md R92; 40_control_commands.md R101, R102; 44_pbkdf2.md
R212 to R215). -/

namespace Sys2Proof.Machine

open Sys2Proof

/-- A command that does not halt the core hands its state to the commands after it (R92). -/
theorem runCommands_cons_of_next {i : Instr} {is : List Instr} {s t : State} (h : exec i s = .next t)
    (hrun : t.halted = false) : runCommands (i :: is) s = runCommands is t := by
  rw [runCommands_cons h, if_neg (Bool.eq_false_iff.1 hrun)]

/-! ## LI -/

theorem State.setReg_setReg (s : State) (r : Reg) (u v : Word) : (s.setReg r u).setReg r v = s.setReg r v := by
  simp [State.setReg]

/-- SETLO leaves 0 above its constant (R101). -/
theorem setWidth_half (h : Half) : h.setWidth 32 = (0 : Half) ++ h := BitVec.setWidth_eq_append (by decide)

/-- `SETLO` (R101). -/
theorem exec_setlo_eq (rd : Reg) (imm : Half) (s : State) :
    exec (.setlo rd imm) s = .next { s.setReg rd ((0 : Half) ++ imm) with cp := s.cp + 1 } := by
  rw [← setWidth_half]
  rfl

/-- `SETHI` after `SETLO` (R101, R102). -/
theorem exec_sethi_setReg (rd : Reg) (lo hi : Half) (s : State) :
    exec (.sethi rd hi) (s.setReg rd ((0 : Half) ++ lo)) = .next { s.setReg rd (hi ++ lo) with cp := s.cp + 1 } := by
  change retire ((s.setReg rd _).setReg rd (hi ++ ((s.setReg rd _).reg rd).extractLsb' 0 16)) = _
  rw [State.setReg_setReg, State.reg_setReg, if_pos rfl, BitVec.extractLsb'_append_eq_right]
  rfl

/-- All that LI does: SETLO clears the high half of its register, and SETHI sets it when it is not 0 (R92). -/
theorem runCommands_loadImmediate (rd : Reg) (imm : Word) {s : State} (hrun : s.halted = false) :
    runCommands (loadImmediate rd imm) s =
      .next { s.setReg rd imm with cp := s.cp + (if imm.extractLsb' 16 16 = 0 then 1 else 2) } := by
  have himm : imm.extractLsb' 16 16 ++ imm.extractLsb' 0 16 = imm := BitVec.extractLsb'_append_extractLsb'
  by_cases hhigh : imm.extractLsb' 16 16 = 0
  · rw [loadImmediate, if_pos hhigh, if_pos hhigh, runCommands_cons_of_next (exec_setlo_eq _ _ _) hrun, ← hhigh, himm]
    rfl
  · have hcp : s.cp + 1 + 1 = s.cp + 2 := BitVec.add_assoc _ _ _
    have hhi := exec_sethi_setReg rd (imm.extractLsb' 0 16) (imm.extractLsb' 16 16) { s with cp := s.cp + 1 }
    rw [himm] at hhi
    rw [loadImmediate, if_neg hhigh, if_neg hhigh, runCommands_cons_of_next (exec_setlo_eq _ _ _) hrun, ← hcp]
    exact runCommands_cons_of_next hhi hrun

/-- Settles O28. -/
theorem Pseudo.loadImmediate : Obligations.LoadImmediate := fun rd imm s hrun =>
  ⟨_, runCommands_loadImmediate rd imm hrun, rfl, fun q => State.reg_setReg s rd q imm⟩

/-! ## KD.DERIVE -/

theorem HashAlg.hLen_pos (alg : HashAlg) : 0 < alg.hLen := by cases alg <;> decide

theorem hashAlgOf_number (alg : HashAlg) : hashAlgOf alg.number = some alg := by cases alg <;> rfl

/-- The model's division, rounded up, is Mathlib's. -/
theorem ceilDiv_le_iff {n d c : Nat} (hd : 0 < d) : ceilDiv n d ≤ c ↔ n ≤ d * c := ceilDiv_le_iff_le_mul hd

@[simp] theorem length_deriveBlocks (alg : HashAlg) (k0 salt : Bytes) (iter n : Nat) (c : Word) :
    (deriveBlocks alg k0 salt iter n c).length = alg.hLen * n := by
  induction n generalizing c with
  | zero => rfl
  | succ n ih => rw [deriveBlocks, List.length_append, length_deriveBlock, ih, Nat.mul_succ, Nat.add_comm]

/-- PBKDF2 answers as many bytes as it is asked for (R215). -/
@[simp] theorem length_pbkdf2 (alg : HashAlg) (key salt : Bytes) (iter n : Nat) :
    (pbkdf2 alg key salt iter n).length = n := by
  rw [pbkdf2, List.length_take, length_deriveBlocks, min_eq_left ((ceilDiv_le_iff alg.hLen_pos).1 le_rfl)]

section
variable {k : KdInstance}

/-- What is left of the last block is `avail` bytes (R213). -/
theorem length_leftover (h : k.dbuf.length = k.alg.hLen) : (k.dbuf.drop k.pos).length = kdAvail k := by
  rw [List.length_drop, h, kdAvail]

theorem take_leftover (h : k.dbuf.length = k.alg.hLen) (n : Nat) :
    (k.dbuf.drop k.pos).take (min n (kdAvail k)) = (k.dbuf.drop k.pos).take n := by
  rw [List.take_eq_take_iff, length_leftover h, min_assoc, min_self]

/-- `GetBytes` hands out the first bytes of what is left of the last block and the blocks after it (R211, R213). -/
theorem kdTake_eq_take (h : k.dbuf.length = k.alg.hLen) (need n : Nat) :
    (kdTake k need n).1 =
      (k.dbuf.drop k.pos ++ deriveBlocks k.alg k.k0 k.salt k.iter need (k.blk + 1)).take n := by
  induction need generalizing k n with
  | zero => rw [kdTake, deriveBlocks, List.append_nil, take_leftover h]
  | succ need ih =>
    have hrest : (kdTake (kdRefill { k with pos := k.pos + min n (kdAvail k) }) need (n - min n (kdAvail k))).1 =
        (deriveBlocks k.alg k.k0 k.salt k.iter (need + 1) (k.blk + 1)).take (n - min n (kdAvail k)) :=
      ih (length_deriveBlock _ _ _ _ _) _
    rw [kdTake, hrest, take_leftover h, List.take_append, length_leftover h,
      show n - min n (kdAvail k) = n - kdAvail k by omega]

end

section
variable (alg : HashAlg) (pwd salt : Bytes) (iter n : Nat)

/-- A fresh derivation has nothing left over, so a request is served from new blocks alone (R212, R213). -/
theorem kdNeed_kdStart : kdNeed (kdStart alg pwd salt iter) n = ceilDiv n alg.hLen := by
  have havail : kdAvail (kdStart alg pwd salt iter) = 0 := Nat.sub_self _
  rw [kdNeed, havail]
  split
  next hn => exact (Nat.le_zero.1 ((ceilDiv_le_iff alg.hLen_pos).2 hn)).symm
  next => rfl

/-- The first bytes of a fresh derivation are PBKDF2 (R211, R215). -/
theorem kdTake_kdStart : (kdTake (kdStart alg pwd salt iter) (ceilDiv n alg.hLen) n).1 = pbkdf2 alg pwd salt iter n := by
  have hempty : (kdStart alg pwd salt iter).dbuf.drop (kdStart alg pwd salt iter).pos = [] :=
    List.drop_eq_nil_of_le (length_zeros _).le
  rw [kdTake_eq_take (length_zeros _), hempty]
  rfl

end

section
variable {s : State} {rd ra rb rc : Reg} {imm : Byte} {alg : HashAlg}

theorem pairsOk_kdInit : (Instr.kdInit ra rb rc imm).pairsOk = true ↔ ra ≠ 15 ∧ rb ≠ 15 := by
  simp [Instr.pairsOk, Instr.pairFields, Reg.pairOk]

/-- `KD.INIT` on operands that pass its checks (R212). -/
theorem exec_kdInit_of_accepted (hra : ra ≠ 15) (hrb : rb ≠ 15) (himm : imm.toNat = alg.number)
    (hiter : 0 < (s.reg rc).toInt) (hmin : 8 ≤ (s.buf rb).len) (hmax : (s.buf rb).len ≤ kdSaltMax)
    (hpwd : s.admits (s.buf ra) = true) (hsalt : s.admits (s.buf rb) = true) :
    exec (.kdInit ra rb rc imm) s =
      .next { s with
        kd := ⟨some (kdStart alg (s.load (s.buf ra)) (s.load (s.buf rb)) (s.reg rc).toNat), false⟩, cp := s.cp + 1 } := by
  have hpairs : (Instr.kdInit ra rb rc imm).pairsOk = true := pairsOk_kdInit.2 ⟨hra, hrb⟩
  change execKdInit ra rb rc imm s = _
  simp [execKdInit, pairCheck, needArgument, needAddress, hpairs, himm, hashAlgOf_number, hiter, hmin, hmax, hpwd, hsalt,
    retire_eq]

/-- `KD.GET` where the block index has room for the blocks asked for (R213). -/
theorem exec_kdGet_of_accepted {k : KdInstance} (hkd : s.kd = ⟨some k, false⟩)
    (hindex : k.blk.toNat + kdNeed k (s.num ra) ≤ 0xFFFFFFFF) (hdest : s.admits (s.dest rd (s.num ra)) = true) :
    exec (.kdGet rd ra) s =
      .next { s with
        kd := ⟨some (kdTake k (kdNeed k (s.num ra)) (s.num ra)).2, false⟩
        mem := s.mem.write (s.num rd) (kdTake k (kdNeed k (s.num ra)) (s.num ra)).1
        cp := s.cp + 1 } := by
  change execKdGet rd ra s = _
  simp [execKdGet, needState, needArgument, needAddress, hkd, hindex, hdest, retire_eq, State.store]

/-- `KD.GET` on a fresh derivation writes PBKDF2: no register holds a count of bytes past the last block index
(R213, R215). -/
theorem exec_kdGet_kdStart {pwd salt : Bytes} {iter : Nat} (hkd : s.kd = ⟨some (kdStart alg pwd salt iter), false⟩)
    (hdest : s.admits (s.dest rd (s.num ra)) = true) :
    ∃ k, exec (.kdGet rd ra) s =
      .next { s with
        kd := ⟨some k, false⟩, mem := s.mem.write (s.num rd) (pbkdf2 alg pwd salt iter (s.num ra)), cp := s.cp + 1 } := by
  have hblocks : ceilDiv (s.num ra) alg.hLen ≤ s.num ra :=
    (ceilDiv_le_iff alg.hLen_pos).2 (Nat.le_mul_of_pos_left _ alg.hLen_pos)
  have hcount : s.num ra < 2 ^ 32 := (s.reg ra).isLt
  have hfirst : (kdStart alg pwd salt iter).blk.toNat = 0 := rfl
  have hget := exec_kdGet_of_accepted hkd (by rw [kdNeed_kdStart]; omega) hdest
  rw [kdNeed_kdStart, kdTake_kdStart] at hget
  exact ⟨_, hget⟩

end

/-- Settles O50: the fresh derivation hands out the bytes of PBKDF2, and `KD.WIPE` disposes of it. -/
theorem kdDeriveIsPbkdf2 : Obligations.KdDeriveIsPbkdf2 := by
  intro rd rlen rpwd rsalt riter imm alg s hrun hwf hpwd hsalt himm hiter hmin hmax hinPwd hinSalt hout
  have hinit := exec_kdInit_of_accepted hpwd hsalt himm hiter hmin hmax hinPwd hinSalt
  obtain ⟨k, hget⟩ := exec_kdGet_kdStart (s := { s with
    kd := ⟨some (kdStart alg (s.load (s.buf rpwd)) (s.load (s.buf rsalt)) (s.reg riter).toNat), false⟩
    cp := s.cp + 1 }) rfl hout
  have hcp : s.cp + 1 + 1 + 1 = s.cp + 3 := by rw [BitVec.add_assoc, BitVec.add_assoc]; rfl
  refine ⟨{ s with kd := ⟨none, true⟩, mem := s.mem.write _ _, cp := s.cp + 3 }, ?_, rfl, length_pbkdf2 ..,
    Memory.write_stored hwf _ _⟩
  rw [expandPseudo, runCommands_cons_of_next hinit hrun, runCommands_cons_of_next hget hrun, ← hcp]
  exact runCommands_cons_of_next rfl hrun

end Sys2Proof.Machine
end

section
/-! PROOF. The words that the control commands refuse (30_encoding.md R81, R87, R88). -/

namespace Sys2Proof

/-! ## The formats with their must-be-zero bits written out -/

section
variable (op : BitVec 8) (r z4 : Reg) (z8 : Byte) (imm : Half) (n : BitVec 12) (low : BitVec 24)

/-- Format N: the opcode and 24 bits below it (R81). -/
theorem fields_opcode_low :
    opField (op ++ low) = op ∧ BitVec.extractLsb' 0 24 (op ++ low) = low :=
  ⟨BitVec.extractLsb'_append_eq_left, BitVec.extractLsb'_append_eq_right⟩

/-- Format I: the opcode and bits 19 to 16 (R81). -/
theorem fields_opcode_imm16 :
    opField (op ++ r ++ z4 ++ imm) = op ∧ BitVec.extractLsb' 16 4 (op ++ r ++ z4 ++ imm) = z4 := by
  constructor <;> refine BitVec.eq_of_getLsbD_eq fun k hk => ?_ <;>
    simp only [opField, BitVec.getLsbD_extractLsb', BitVec.getLsbD_append] <;> interval_cases k <;> simp

/-- Format C: the opcode and bits 19 to 12 (R81). -/
theorem fields_opcode_csr :
    opField (op ++ r ++ z8 ++ n) = op ∧ BitVec.extractLsb' 12 8 (op ++ r ++ z8 ++ n) = z8 := by
  constructor <;> refine BitVec.eq_of_getLsbD_eq fun k hk => ?_ <;>
    simp only [opField, BitVec.getLsbD_extractLsb', BitVec.getLsbD_append] <;> interval_cases k <;> simp

end

/-- Below the opcode, the fixed bits of a row are 0 (R87). -/
theorem Op.extract_fixedBits (o : Op) {start len : Nat} (h : start + len ≤ 24) :
    o.fixedBits.extractLsb' start len = 0 :=
  (BitVec.extractLsb'_append_eq_of_add_le h).trans BitVec.extractLsb'_zero

theorem opField_formatR (o : Op) (ra rb rc rd : Reg) (imm : Byte) : opField (formatR o ra rb rc rd imm) = o.code := by
  refine BitVec.eq_of_getLsbD_eq fun k hk => ?_
  simp only [opField, formatR, BitVec.getLsbD_extractLsb', BitVec.getLsbD_append]
  interval_cases k <;> simp

/-- Every word of format C whose bits 19 to 12 are 0 has the fixed bits of its row, whatever its CSR number (R87). -/
theorem formatC_fixedBits {o : Op} (h : o = .csrr ∨ o = .csrw) (r : Reg) (n : BitVec 12) :
    formatC o r n &&& o.mask = o.fixedBits := by
  rcases h with rfl | rfl
  all_goals
    simp only [formatC, Op.mask, Op.fixedBits, Op.code]
    refine BitVec.eq_of_getLsbD_eq fun k hk => ?_
    simp only [BitVec.getLsbD_and, BitVec.getLsbD_append]
    interval_cases k <;> simp

/-- The numbers of the CSRs that `CSRW` may write (10_state.md R30). -/
theorem Csr.writable_number_mem {c : Csr} (h : c.writable = true) :
    c.number ∈ ([0x010, 0x040, 0x041, 0x042, 0x043] : List (BitVec 12)) := by
  cases c with
  | scCfg | evAlg | evIter | evSaltsz | evHsaltsz => decide
  | id | status | err | errcp | errcmd | cp => cases h

end Sys2Proof

namespace Sys2Proof.Machine

open Sys2Proof

theorem runWord_of_refused {w : Word} {e : DecodeError} (h : Refused w e) (s : State) :
    runWord w s = raise .illegalCommand w s := by
  rw [runWord, decode_of_refused h]

/-- A word with a set bit in a field below the opcode that the mask of its row fixes is refused (R88, case 2). -/
theorem runWord_of_field_ne {w : Word} {o : Op} (hop : opField w = o.code) (start len : Nat) (hlow : start + len ≤ 24)
    (hmask : o.mask.extractLsb' start len = BitVec.allOnes len) (hz : w.extractLsb' start len ≠ 0) (s : State) :
    runWord w s = raise .illegalCommand w s :=
  runWord_of_refused (.mustBeZero hop fun h =>
    hz ((extract_of_fixedBits h start len hmask).symm.trans (o.extract_fixedBits hlow))) s

/-- A format N word with a bit set below the opcode (R81, R88). -/
theorem runWord_formatN_of_ne {o : Op} (hmask : o.mask = BitVec.allOnes 32) {low : BitVec 24} (h : low ≠ 0)
    (s : State) : runWord (o.code ++ low) s = raise .illegalCommand (o.code ++ low) s := by
  obtain ⟨hop, hlow⟩ := fields_opcode_low o.code low
  exact runWord_of_field_ne hop 0 24 (by decide) (by rw [hmask]; rfl) (hlow.trans_ne h) s

/-- A format I word with a bit set in 19 to 16 (R81, R88). -/
theorem runWord_formatI_of_ne {o : Op} (hmask : o.mask = 0xFF0F0000) (rd : Reg) {z : BitVec 4} (h : z ≠ 0)
    (imm : Half) (s : State) :
    runWord (o.code ++ rd ++ z ++ imm) s = raise .illegalCommand (o.code ++ rd ++ z ++ imm) s := by
  obtain ⟨hop, hz⟩ := fields_opcode_imm16 o.code rd z imm
  exact runWord_of_field_ne hop 16 4 (by decide) (by rw [hmask]; rfl) (hz.trans_ne h) s

/-- A format C word with a bit set in 19 to 12 (R81, R88). -/
theorem runWord_formatC_of_ne {o : Op} (ho : o = .csrr ∨ o = .csrw) (r : Reg) {z : BitVec 8} (h : z ≠ 0)
    (n : BitVec 12) (s : State) :
    runWord (o.code ++ r ++ z ++ n) s = raise .illegalCommand (o.code ++ r ++ z ++ n) s := by
  obtain ⟨hop, hz⟩ := fields_opcode_csr o.code r z n
  have hmask : o.mask.extractLsb' 12 8 = BitVec.allOnes 8 := by rcases ho with rfl | rfl <;> rfl
  exact runWord_of_field_ne hop 12 8 (by decide) hmask (hz.trans_ne h) s

/-- A format C word that names no CSR (R81, R88 case 4). -/
theorem runWord_formatC_of_unimplemented {o : Op} (ho : o = .csrr ∨ o = .csrw) (r : Reg) {n : BitVec 12}
    (h : Csr.ofNumber n = none) (s : State) :
    runWord (formatC o r n) s = raise .illegalCommand (formatC o r n) s :=
  runWord_of_refused (.csrUnimplemented ho (formatC_fixedBits ho r n) (by rwa [(fields_formatC o r n).2])) s

/-- A `CSRW` word that names no writable CSR, unimplemented or read-only (R88, case 4). -/
theorem runWord_csrw_of_not_writable (ra : Reg) {n : BitVec 12}
    (h : n ∉ ([0x010, 0x040, 0x041, 0x042, 0x043] : List (BitVec 12))) (s : State) :
    runWord (formatC .csrw ra n) s = raise .illegalCommand (formatC .csrw ra n) s := by
  cases hcsr : Csr.ofNumber n with
  | none => exact runWord_formatC_of_unimplemented (.inr rfl) ra hcsr s
  | some c =>
    refine runWord_of_refused (.csrReadOnly (csr := c) (formatC_fixedBits (.inr rfl) ra n) ?_ ?_) s
    · rwa [(fields_formatC _ ra n).2]
    · rw [← Bool.not_eq_true]
      exact fun hw => h (Csr.eq_number_of_ofNumber hcsr ▸ Csr.writable_number_mem hw)

end Sys2Proof.Machine
end

section
/-! PROOF. The control commands: what each does to the state, and the words it refuses (10_state.md R31 to R37;
40_control_commands.md R100 to R106). -/

namespace Sys2Proof.Machine

open Sys2Proof

/-! ## NOP and the WIPE commands -/

/-- Settles O24: each command computes to its next state, and its row fixes all 32 bits. -/
theorem operandlessCommands : Obligations.OperandlessCommands := by
  refine fun s => ⟨⟨rfl, rfl⟩, ⟨rfl, rfl⟩, ⟨rfl, rfl⟩, ⟨rfl, rfl⟩, ⟨rfl, rfl⟩, fun op low hop hlow => ?_⟩
  have hrow : ∃ o : Op, o.code = op ∧ o.mask = BitVec.allOnes 32 := by
    simp only [List.mem_cons, List.not_mem_nil, or_false] at hop
    rcases hop with rfl | rfl | rfl | rfl | rfl
    · exact ⟨.nop, rfl, rfl⟩
    · exact ⟨.wipe, rfl, rfl⟩
    · exact ⟨.scWipe, rfl, rfl⟩
    · exact ⟨.b2Wipe, rfl, rfl⟩
    · exact ⟨.kdWipe, rfl, rfl⟩
  obtain ⟨o, rfl, hmask⟩ := hrow
  exact runWord_formatN_of_ne hmask hlow s

/-! ## Commands that write one register -/

/-- A command that retires with one register written changes that register and `cp`, and nothing else (R20, R24). -/
theorem retire_setReg (s : State) (rd : Reg) (v : Word) :
    ∃ t, retire (s.setReg rd v) = .next t ∧ t = { s with x := t.x, cp := s.cp + 1 } ∧
      ∀ q, t.reg q = if q = rd then v else s.reg q :=
  ⟨_, rfl, rfl, fun q => State.reg_setReg s rd q v⟩

/-- `SETHI` puts its constant above the 16 bits it keeps (R102). -/
theorem half_append_low (imm : Half) (v : Word) :
    imm ++ v.extractLsb' 0 16 = (imm.setWidth 32 <<< 16) ||| (v &&& 0xFFFF) := by
  refine BitVec.eq_of_getLsbD_eq fun k hk => ?_
  simp only [BitVec.getLsbD_append, BitVec.getLsbD_extractLsb', BitVec.getLsbD_or, BitVec.getLsbD_and,
    BitVec.getLsbD_shiftLeft, BitVec.getLsbD_setWidth]
  interval_cases k <;> simp

/-- Settles O25: each command writes one register; the must-be-zero bits are fields that the row's mask fixes. -/
theorem registerCommands : Obligations.RegisterCommands := by
  refine fun rd ra imm s => ⟨⟨rfl, retire_setReg s rd _⟩, ⟨rfl, ?sethi⟩, ⟨?mov, retire_setReg s rd _⟩,
    fun op z hop hz => ?immediate, fun rb rc low h => ?fields⟩
  case sethi =>
    rw [← half_append_low]
    exact retire_setReg s rd _
  case mov => exact formatR_rd_ra .mov ra rd 0
  case immediate =>
    simp only [List.mem_cons, List.not_mem_nil, or_false] at hop
    rcases hop with rfl | rfl
    · exact runWord_formatI_of_ne (o := .setlo) rfl rd hz imm s
    · exact runWord_formatI_of_ne (o := .sethi) rfl rd hz imm s
  case fields =>
    have hop := opField_formatR .mov ra rb rc rd low
    obtain ⟨-, hrb, hrc, -, hlow⟩ := fields_formatR .mov ra rb rc rd low
    rcases h with h | h | h
    · exact runWord_of_field_ne hop 16 4 (by decide) rfl (hrb.trans_ne h) s
    · exact runWord_of_field_ne hop 12 4 (by decide) rfl (hrc.trans_ne h) s
    · exact runWord_of_field_ne hop 0 8 (by decide) rfl (hlow.trans_ne h) s

/-! ## CSRR -/

/-- `SC_CFG` as the sum of its two fields (R37). -/
theorem scCfgWord_eq_add (c : ScCfg) : scCfgWord c = c.variant.field + 2 * c.rounds.field := by
  obtain ⟨variant, rounds⟩ := c
  cases variant <;> cases rounds <;> rfl

/-- Settles O26: a `CSRR` writes `csrValue` to its register and nothing else. -/
theorem csrrReads : Obligations.CsrrReads := by
  refine fun rd csr s => ⟨rfl, ?value, fun hrun => ?err, fun z n h => ?illegal⟩
  case value =>
    obtain ⟨t, ht, hframe, hreg⟩ := retire_setReg s rd (csrValue true s csr)
    refine ⟨t, ht, hframe, fun q => (hreg q).trans (if_congr Iff.rfl ?_ rfl)⟩
    cases csr with
    | scCfg => exact scCfgWord_eq_add s.scCfg
    | evAlg | evSaltsz | evHsaltsz => exact setWidth_half _
    | id | status | err | errcp | errcmd | cp | evIter => rfl
  case err =>
    rw [halted_eq_false_iff.1 hrun]
    rfl
  case illegal =>
    by_cases hz : z = 0
    · subst hz
      exact runWord_formatC_of_unimplemented (.inl rfl) rd (h.resolve_left fun hne => hne rfl) s
    · exact runWord_formatC_of_ne (.inl rfl) rd hz n s

/-! ## CSRW -/

/-- The words that `SC_CFG` does not take: a reserved bit set, or `ROUNDS` 3 (R37, R105). -/
theorem scCfgOf_eq_none_iff {v : Word} : scCfgOf v = none ↔ v.extractLsb' 3 29 ≠ 0 ∨ v.extractLsb' 1 2 = 3 := by
  unfold scCfgOf
  by_cases hreserved : v.extractLsb' 3 29 = 0
  · have hrounds : ∀ r : BitVec 2, r = 0 ∨ r = 1 ∨ r = 2 ∨ r = 3 := by decide
    rcases hrounds (v.extractLsb' 1 2) with hr | hr | hr | hr <;> simp [hreserved, hr]
  · exact iff_of_true (if_pos hreserved) (.inl hreserved)

/-- The words that a CSR of 16 bits does not take (R30, R105). -/
theorem half16_eq_none_iff {v : Word} : half16 v = none ↔ v.extractLsb' 16 16 ≠ 0 := by
  by_cases h : v.extractLsb' 16 16 = 0
  · rw [half16, if_pos h]
    exact iff_of_false (Option.some_ne_none _) (not_not.2 h)
  · exact iff_of_true (if_neg h) h

section
variable {csr : Csr} {ra : Reg} {s u : State}

/-- `CSRW` of a value that is legal for its CSR (R105). -/
theorem exec_csrw_of_legal (hw : csr.writable = true) (h : csrStore s (s.reg ra) csr = some u) :
    exec (.csrw csr ra) s = retire u := by
  change execCsrw csr ra s = _
  simp [execCsrw, needLegal, hw, h]

/-- `CSRW` of a value that is not legal for its CSR (R105). -/
theorem exec_csrw_of_illegal (hw : csr.writable = true) (h : csrStore s (s.reg ra) csr = none) :
    exec (.csrw csr ra) s = raise .argument (encode (.csrw csr ra)) s := by
  change execCsrw csr ra s = _
  simp [execCsrw, needLegal, hw, h]

end

/-- Settles O27: a CSR takes a value exactly when its fields parse, and its word is then the value. -/
theorem csrwWrites : Obligations.CsrwWrites := by
  refine fun ra s => ⟨fun _ => rfl, fun hreserved hrounds => ?scLegal, fun h => ?scIllegal, rfl, fun h => ?halfLegal,
    fun h => ?halfIllegal, fun z n h => ?illegal⟩
  case scLegal =>
    obtain ⟨c, hc⟩ := Option.ne_none_iff_exists'.1
      (scCfgOf_eq_none_iff.not.2 (not_or.2 ⟨not_not.2 hreserved, hrounds⟩))
    exact ⟨_, exec_csrw_of_legal rfl (congrArg (Option.map _) hc), rfl,
      (scCfgWord_eq_add c).symm.trans (scCfgWord_of_scCfgOf hc)⟩
  case scIllegal => exact exec_csrw_of_illegal rfl (congrArg (Option.map _) (scCfgOf_eq_none_iff.2 h))
  case halfLegal =>
    obtain ⟨c, hc⟩ := Option.ne_none_iff_exists'.1 (half16_eq_none_iff.not.2 (not_not.2 h))
    have hvalue : 0#16 ++ c = s.reg ra := (setWidth_half c).symm.trans (setWidth_of_half16 hc)
    exact ⟨⟨_, exec_csrw_of_legal rfl (congrArg (Option.map _) hc), rfl, hvalue⟩,
      ⟨_, exec_csrw_of_legal rfl (congrArg (Option.map _) hc), rfl, hvalue⟩,
      ⟨_, exec_csrw_of_legal rfl (congrArg (Option.map _) hc), rfl, hvalue⟩⟩
  case halfIllegal =>
    have hnone := half16_eq_none_iff.2 h
    exact ⟨exec_csrw_of_illegal rfl (congrArg (Option.map _) hnone),
      exec_csrw_of_illegal rfl (congrArg (Option.map _) hnone),
      exec_csrw_of_illegal rfl (congrArg (Option.map _) hnone)⟩
  case illegal =>
    by_cases hz : z = 0
    · subst hz
      exact runWord_csrw_of_not_writable ra (h.resolve_left fun hne => hne rfl) s
    · exact runWord_formatC_of_ne (.inr rfl) ra hz n s

end Sys2Proof.Machine
end

section
/-! PROOF. The byte counter of the B2 unit (42_blake2b.md R157). -/

namespace Sys2Proof.Machine

open Sys2Proof

/-- The low word wraps exactly when the sum falls below the addend (R157). -/
theorem toNat_add_lt_iff (t : DWord) {n : Nat} (h : n < 2 ^ 64) :
    (t + BitVec.ofNat 64 n).toNat < n ↔ 2 ^ 64 ≤ t.toNat + n := by
  have ht := t.isLt
  rw [BitVec.toNat_add, BitVec.toNat_ofNat, Nat.mod_eq_of_lt h]
  omega

/-- Settles O42: the carry goes up exactly when the low word wraps. -/
theorem byteCounterAdds : Obligations.ByteCounterAdds := by
  refine fun b n _ hn => ⟨?_, rfl⟩
  have hcarry := toNat_add_lt_iff b.t0 (n := n) (by omega)
  have hlow := b.t0.isLt
  have hhigh := b.t1.isLt
  have hone : (1 : DWord).toNat = 1 := rfl
  simp only [B2Unit.count, blakeCount]
  split_ifs with hwrap
  · have hover := hcarry.1 hwrap
    simp only [BitVec.toNat_add, BitVec.toNat_ofNat, hone]
    omega
  · have hroom := mt hcarry.2 hwrap
    simp only [BitVec.toNat_add, BitVec.toNat_ofNat]
    omega

end Sys2Proof.Machine
end

section
/-! PROOF. The quarter rounds of one half of a double round commute (41_stream_cipher.md R122, R123, R136). -/

namespace Sys2Proof.Machine

open Sys2Proof

/-- `Touches S f`: the operation `f` on the sixteen words reads and writes the words of `S` alone. -/
structure Touches (S : List (Fin 16)) (f : Vector Word 16 → Vector Word 16) : Prop where
  /-- No other word is written. -/
  frame {w : Vector Word 16} {j : Fin 16} : j ∉ S → (f w)[j] = w[j]
  /-- No other word is read. -/
  reads {w w' : Vector Word 16} : (∀ j ∈ S, w[j] = w'[j]) → ∀ j ∈ S, (f w)[j] = (f w')[j]

/-- Two vectors of words with the same words are equal. -/
theorem words_ext {w w' : Vector Word 16} (h : ∀ j : Fin 16, w[j] = w'[j]) : w = w' :=
  Vector.ext fun k hk => h ⟨k, hk⟩

/-- Operations on disjoint sets of words commute (R136). -/
theorem Touches.comm {S T : List (Fin 16)} {f g : Vector Word 16 → Vector Word 16} (hf : Touches S f)
    (hg : Touches T g) (hST : S.Disjoint T) (w : Vector Word 16) : f (g w) = g (f w) := by
  refine words_ext fun j => ?_
  by_cases hS : j ∈ S
  · rw [hg.frame (hST hS)]
    exact hf.reads (fun i hi => hg.frame (hST hi)) j hS
  · rw [hf.frame hS]
    by_cases hT : j ∈ T
    · exact hg.reads (fun i hi => (hf.frame fun hi' => hST hi' hi).symm) j hT
    · rw [hg.frame hT, hg.frame hT, hf.frame hS]

/-- The places `a`, `b`, `c`, `d` of a quarter round. -/
abbrev Places : Type := Fin 16 × Fin 16 × Fin 16 × Fin 16

def Places.words (j : Places) : List (Fin 16) := [j.1, j.2.1, j.2.2.1, j.2.2.2]

/-- A ChaCha quarter round reads and writes its four words alone (R121). -/
theorem chachaQuarter_touches (i : Places) (h : i.words.Nodup) :
    Touches i.words (chachaQuarter · i.1 i.2.1 i.2.2.1 i.2.2.2) where
  frame {w j} hj := by
    simp only [Places.words, List.mem_cons, List.not_mem_nil, or_false, not_or] at hj
    rw [getElem_chachaQuarter h]
    simp only [hj, if_false]
  reads {w w'} hw j hj := by
    rw [getElem_chachaQuarter h, getElem_chachaQuarter h, hw i.1 (by simp [Places.words]),
      hw i.2.1 (by simp [Places.words]), hw i.2.2.1 (by simp [Places.words]), hw i.2.2.2 (by simp [Places.words]),
      hw j hj]

/-- A Salsa quarter round reads and writes its four words alone (R123). -/
theorem salsaQuarter_touches (i : Places) (h : i.words.Nodup) :
    Touches i.words (salsaQuarter · i.1 i.2.1 i.2.2.1 i.2.2.2) where
  frame {w j} hj := by
    simp only [Places.words, List.mem_cons, List.not_mem_nil, or_false, not_or] at hj
    rw [getElem_salsaQuarter h]
    simp only [hj, if_false]
  reads {w w'} hw j hj := by
    rw [getElem_salsaQuarter h, getElem_salsaQuarter h, hw i.1 (by simp [Places.words]),
      hw i.2.1 (by simp [Places.words]), hw i.2.2.1 (by simp [Places.words]), hw i.2.2.2 (by simp [Places.words]),
      hw j hj]

section
variable {f : Vector Word 16 → Places → Vector Word 16} {l m p q : List Places}

/-- Quarter rounds on distinct words give the same result in any order (R136). -/
theorem foldl_eq_of_distinct (hf : ∀ i : Places, i.words.Nodup → Touches i.words (f · i))
    (hl : (l.flatMap Places.words).Nodup) (hp : p.Perm l) (w : Vector Word 16) : p.foldl f w = l.foldl f w := by
  obtain ⟨hnodup, hapart⟩ := List.nodup_flatMap.1 hl
  have hsymm : Std.Symm (Function.onFun List.Disjoint Places.words) := ⟨fun _ _ h => List.Disjoint.symm h⟩
  refine (hp.symm.foldl_eq' (fun i hi j hj v => ?_) w).symm
  by_cases hij : i = j
  · rw [hij]
  · exact (hf j (hnodup j hj)).comm (hf i (hnodup i hi)) (hapart.forall hj hi (Ne.symm hij)) v

/-- The two halves of a double round, each in any order (R136). -/
theorem foldl_halves_eq (hf : ∀ i : Places, i.words.Nodup → Touches i.words (f · i))
    (hl : (l.flatMap Places.words).Nodup) (hm : (m.flatMap Places.words).Nodup) (hp : p.Perm l) (hq : q.Perm m)
    (w : Vector Word 16) : (p ++ q).foldl f w = (l ++ m).foldl f w := by
  rw [List.foldl_append, List.foldl_append, foldl_eq_of_distinct hf hl hp, foldl_eq_of_distinct hf hm hq]

end

/-- Settles O38: the four quarter rounds of a half are on sixteen distinct words. -/
theorem quarterRoundsAnyOrder : Obligations.QuarterRoundsAnyOrder := fun w _ _ =>
  ⟨fun hp hq => foldl_halves_eq chachaQuarter_touches (by decide) (by decide) hp hq w,
    fun hp hq => foldl_halves_eq salsaQuarter_touches (by decide) (by decide) hp hq w⟩

end Sys2Proof.Machine
end

section
/-! PROOF. The block counter and the bytes of a block (41_stream_cipher.md R128, R129). -/

namespace Sys2Proof.Machine

open Sys2Proof

/-! ## The block counter -/

theorem counterLow_ne_counterHigh (v : Variant) : counterLow v ≠ counterHigh v := by cases v <;> decide

/-- The carry of a counter step is decided by the low word alone (R128). -/
theorem counterStep_eq (v : Variant) (cs : Vector Word 16) :
    counterStep v cs =
      if cs[counterLow v] + 1 = 0 then
        (cs.set (counterLow v) (cs[counterLow v] + 1)).set (counterHigh v) (cs[counterHigh v] + 1)
      else cs.set (counterLow v) (cs[counterLow v] + 1) := by
  simp only [counterStep, getElem_set_word, if_true, (counterLow_ne_counterHigh v).symm, if_false]

/-- Each word after a counter step (R128). -/
theorem getElem_counterStep (v : Variant) (cs : Vector Word 16) (j : Fin 16) :
    (counterStep v cs)[j] =
      if j = counterLow v then cs[counterLow v] + 1
      else if j = counterHigh v ∧ cs[counterLow v] + 1 = 0 then cs[counterHigh v] + 1
      else cs[j] := by
  rw [counterStep_eq]
  by_cases hwrap : cs[counterLow v] + 1 = 0
  · rw [if_pos hwrap, getElem_set_word, getElem_set_word]
    by_cases hj : j = counterHigh v
    · simp only [hj, (counterLow_ne_counterHigh v).symm, hwrap, and_self, if_true, if_false]
    · simp only [hj, false_and, if_false]
  · rw [if_neg hwrap, getElem_set_word]
    simp only [hwrap, and_false, if_false]

/-- A counter step changes the two counter words alone (R128). -/
theorem getElem_counterStep_of_ne {v : Variant} {j : Fin 16} (hlow : j ≠ counterLow v) (hhigh : j ≠ counterHigh v)
    (cs : Vector Word 16) : (counterStep v cs)[j] = cs[j] := by
  rw [getElem_counterStep, if_neg hlow, if_neg fun h => hhigh h.1]

/-- A word wraps to 0 exactly at its largest value. -/
theorem word_add_one_eq_zero_iff (x : Word) : x + 1 = 0 ↔ x.toNat + 1 = 2 ^ 32 := by
  have hx := x.isLt
  rw [← BitVec.toNat_inj, BitVec.toNat_add]
  change (x.toNat + 1) % 2 ^ 32 = 0 ↔ _
  omega

theorem toNat_word_add_one (x : Word) : (x + 1).toNat = (x.toNat + 1) % 2 ^ 32 := BitVec.toNat_add x 1

/-- Settles O35: the high word moves on exactly when the low word wraps. -/
theorem blockCounterSteps : Obligations.BlockCounterSteps := by
  refine fun v cs => ⟨?_, fun i hlow hhigh => getElem_counterStep_of_ne hlow hhigh cs⟩
  have hwrap := word_add_one_eq_zero_iff cs[counterLow v]
  have hlow := cs[counterLow v].isLt
  have hhigh := cs[counterHigh v].isLt
  simp only [blockCounter, getElem_counterStep, (counterLow_ne_counterHigh v).symm, if_true, if_false, true_and,
    toNat_word_add_one]
  split_ifs with h
  · have hfull := hwrap.1 h
    rw [toNat_word_add_one]
    omega
  · have hroom := mt hwrap.2 h
    omega

/-! ## The bytes of a block -/

theorem doubleRounds_eq_iterate (v : Variant) (n : Nat) (w : Vector Word 16) :
    doubleRounds v n w = (doubleRound v)^[n] w := by
  induction n generalizing w with
  | zero => rfl
  | succ n ih => rw [doubleRounds, ih, Function.iterate_succ_apply]

/-- Byte `j` of a little-endian string (00_scope.md R11). -/
theorem getD_toLe {n j : Nat} (h : j < n) (v : Nat) : (toLe n v).getD j 0 = BitVec.ofNat 8 (v / 256 ^ j) := by
  induction n generalizing j v with
  | zero => omega
  | succ n ih =>
    cases j with
    | zero => simp [toLe]
    | succ j => rw [toLe, List.getD_cons_succ, ih (by omega), Nat.div_div_eq_div_mul, Nat.pow_succ']

theorem length_toLe32 (x : Word) : (toLe32 x).length = 4 := length_toLe 4 _

/-- Byte `j` of a word is its bits `8j` to `8j + 7` (00_scope.md R11). -/
theorem getD_toLe32 (x : Word) (j : Fin 4) : (toLe32 x).getD j.val 0 = x.extractLsb' (8 * j.val) 8 := by
  rw [toLe32, getD_toLe j.isLt, BitVec.extractLsb', Nat.shiftRight_eq_div_pow, Nat.pow_mul]

/-- Byte `j` of piece `i` of a string put together from pieces of one length. -/
theorem getD_flatMap_const {α : Type} {f : α → Bytes} {n : Nat} (hf : ∀ a, (f a).length = n) (l : List α) {i j : Nat}
    (hi : i < l.length) (hj : j < n) : (l.flatMap f).getD (n * i + j) 0 = (f (l[i]'hi)).getD j 0 := by
  induction l generalizing i with
  | nil => exact absurd hi (Nat.not_lt_zero i)
  | cons a l ih =>
    rw [List.flatMap_cons]
    cases i with
    | zero =>
      rw [Nat.mul_zero, Nat.zero_add, List.getD_append _ _ _ _ (by rwa [hf])]
      rfl
    | succ i =>
      have hpos : n * (i + 1) + j = n * i + j + n := by rw [Nat.mul_succ]; omega
      rw [hpos, List.getD_append_right _ _ _ _ (by rw [hf]; omega), hf, Nat.add_sub_cancel]
      exact ih (by simpa using hi)

/-- Byte `4i + j` of a block is byte `j` of word `i` of the sum (R129). -/
theorem getD_keystreamBlock (c : ScCfg) (cs : Vector Word 16) (i : Fin 16) (j : Fin 4) :
    (keystreamBlock c cs).getD (4 * i.val + j.val) 0 =
      ((doubleRounds c.variant (c.rounds.count / 2) cs)[i] + cs[i]).extractLsb' (8 * j.val) 8 := by
  rw [keystreamBlock, ← List.flatMap_def,
    getD_flatMap_const length_toLe32 _ (by simp) j.isLt, getD_toLe32]
  simp

/-- Settles O36: a block is the little-endian bytes of its words, four for each. -/
theorem blockFunctionBytes : Obligations.BlockFunctionBytes := by
  refine fun c cs => ⟨length_keystreamBlock c cs, fun i j => ?_⟩
  rw [getD_keystreamBlock, doubleRounds_eq_iterate]
  obtain ⟨variant, rounds⟩ := c
  cases variant <;> cases rounds <;> rfl

end Sys2Proof.Machine
end

section
/-! PROOF. SC.KEY and SC.NONCE: their faults in order, the layouts of the CipherState, and the constants that every step
keeps in place (41_stream_cipher.md R124 to R127, R130, R131). -/

namespace Sys2Proof

/-! ## Words of the stream cipher, their unused fields joined (R81, R87) -/

section
variable (o : Op) (ra rb rd : Reg)

theorem formatR_ra : formatR o ra 0 0 0 0 = o.code ++ ra ++ 0#20 := by
  refine BitVec.eq_of_getLsbD_eq fun k hk => ?_
  simp only [formatR, BitVec.getLsbD_append]
  interval_cases k <;> simp

theorem formatR_ra_rb : formatR o ra rb 0 0 0 = o.code ++ ra ++ rb ++ 0#16 := by
  refine BitVec.eq_of_getLsbD_eq fun k hk => ?_
  simp only [formatR, BitVec.getLsbD_append]
  interval_cases k <;> simp

theorem formatR_rd : formatR o 0 0 0 rd 0 = o.code ++ 0#12 ++ rd ++ 0#8 := by
  refine BitVec.eq_of_getLsbD_eq fun k hk => ?_
  simp only [formatR, BitVec.getLsbD_append]
  interval_cases k <;> simp

end

end Sys2Proof

namespace Sys2Proof.Machine

open Sys2Proof

/-! ## SC.KEY -/

section
variable {key : Bytes} {j : Nat}

/-- The key words `K[0..3]` are those of the first 16 bytes (R124). -/
theorem keyWord_low (h : j < 4) : keyWord key j = wordAt key j := by
  rw [keyWord, Nat.mod_eq_of_lt h, ite_self]

/-- The key words `K[4..7]` are those of the last 16 bytes (R124). -/
theorem keyWord_high (h : j < 4) : keyWord key (4 + j) = wordAt key ((if key.length = 32 then 4 else 0) + j) := by
  rw [keyWord]
  split
  · rfl
  · rw [Nat.add_mod_left, Nat.mod_eq_of_lt h, Nat.zero_add]

end

/-- The ChaCha layout after `SC.KEY` (R124, R130). -/
theorem keyedState_chacha (key : Bytes) (j : Fin 4) :
    let cs := keyedState .chacha key
    cs[j.val] = (keyConstants key)[j] ∧ cs[4 + j.val] = wordAt key j ∧
      cs[8 + j.val] = wordAt key ((if key.length = 32 then 4 else 0) + j) ∧ cs[12 + j.val] = 0 := by
  rw [← keyWord_low j.isLt, ← keyWord_high j.isLt]
  fin_cases j <;> exact ⟨rfl, rfl, rfl, rfl⟩

/-- The Salsa layout after `SC.KEY` (R125, R130). -/
theorem keyedState_salsa (key : Bytes) (j : Fin 4) :
    let cs := keyedState .salsa key
    cs[5 * j.val] = (keyConstants key)[j] ∧ cs[1 + j.val] = wordAt key j ∧
      cs[11 + j.val] = wordAt key ((if key.length = 32 then 4 else 0) + j) ∧ cs[6 + j.val] = 0 := by
  rw [← keyWord_low j.isLt, ← keyWord_high j.isLt]
  fin_cases j <;> exact ⟨rfl, rfl, rfl, rfl⟩

section
variable {s : State} {ra rb : Reg}

theorem pairsOk_scKey : (Instr.scKey ra).pairsOk = true ↔ ra ≠ 15 := by
  simp [Instr.pairsOk, Instr.pairFields, Reg.pairOk]

theorem pairsOk_scNonce : (Instr.scNonce ra rb).pairsOk = true ↔ ra ≠ 15 := by
  simp [Instr.pairsOk, Instr.pairFields, Reg.pairOk]

/-- All that `SC.KEY` does once its pair is legal: its checks in their order, then its effect (R130). -/
theorem exec_scKey_eq (hra : ra ≠ 15) :
    exec (.scKey ra) s =
      if (s.buf ra).len = 16 ∨ (s.buf ra).len = 32 then
        if s.admits (s.buf ra) = true then
          retire { s with sc := ⟨keyedState s.scCfg.variant (s.load (s.buf ra)), true, false⟩ }
        else raise .address (encode (.scKey ra)) s
      else raise .argument (encode (.scKey ra)) s := by
  change execScKey ra s = _
  simp only [execScKey, checked_cons, checked_nil, pairCheck, needArgument, needAddress, pairsOk_scKey.2 hra,
    Bool.or_eq_true, beq_iff_eq, if_true]

theorem nonceLengthOk_iff {v : Variant} {n : Nat} :
    nonceLengthOk v n = true ↔ n = 8 ∨ n = 16 ∨ (n = 12 ∧ v = .chacha) := by
  simp [nonceLengthOk, or_assoc]

/-- All that `SC.NONCE` does once its pair is legal: its checks in their order, then its effect (R131). -/
theorem exec_scNonce_eq (hra : ra ≠ 15) :
    exec (.scNonce ra rb) s =
      if s.sc.keyed = true then
        if (s.buf ra).len = 8 ∨ (s.buf ra).len = 16 ∨ ((s.buf ra).len = 12 ∧ s.scCfg.variant = .chacha) then
          if s.admits (s.buf ra) = true then
            retire { s with sc := { s.sc with
              cs := loadNonce s.scCfg.variant (s.load (s.buf ra)) (s.reg rb) s.sc.cs, nonced := true } }
          else raise .address (encode (.scNonce ra rb)) s
        else raise .argument (encode (.scNonce ra rb)) s
      else raise .state (encode (.scNonce ra rb)) s := by
  change execScNonce ra rb s = _
  simp only [execScNonce, checked_cons, checked_nil, pairCheck, needState, needArgument, needAddress,
    pairsOk_scNonce.2 hra, nonceLengthOk_iff, if_true]

end

/-- Settles O29: each clause is one branch of `exec_scKey_eq`; the layouts are those of `keyedState`. -/
theorem scKeyLoads : Obligations.ScKeyLoads := by
  intro ra s
  refine ⟨formatR_ra .scKey ra, fun hra => ?pair, fun hra h16 h32 => ?length, fun hra hlen hadm => ?address,
    fun hra hlen hadm => ⟨_, (exec_scKey_eq hra).trans ((if_pos hlen).trans (if_pos hadm)), rfl, fun hv j => ?chacha,
      fun hv j => ?salsa⟩⟩
  case pair => exact runWord_encode_of_pairsOk_false (Bool.eq_false_iff.2 fun h => pairsOk_scKey.1 h hra) s
  case length => rw [exec_scKey_eq hra, if_neg (not_or.2 ⟨h16, h32⟩)]
  case address => rw [exec_scKey_eq hra, if_pos hlen, if_neg (by simp [hadm])]
  case chacha =>
    have hlayout := keyedState_chacha (s.load (s.buf ra)) j
    rw [keyConstants, State.length_load] at hlayout
    simp only [hv]
    exact hlayout
  case salsa =>
    have hlayout := keyedState_salsa (s.load (s.buf ra)) j
    rw [keyConstants, State.length_load] at hlayout
    simp only [hv]
    exact hlayout

/-! ## SC.NONCE -/

/-- The first of the four words that hold nonce and counter (R124, R125). -/
def nonceBase : Variant → Nat
  | .chacha => 12
  | .salsa => 6

/-- The words that `SC.NONCE` puts there, in order (R127). -/
def nonceWords (v : Variant) (nonce : Bytes) (ctr : Word) : List Word :=
  let n := wordAt nonce
  match v with
  | .chacha =>
    if nonce.length = 8 then [ctr, 0, n 0, n 1]
    else if nonce.length = 12 then [ctr, n 0, n 1, n 2]
    else [n 0, n 1, n 2, n 3]
  | .salsa => if nonce.length = 8 then [n 0, n 1, ctr, 0] else [n 0, n 1, n 2, n 3]

/-- Four successive words written, read at any word. -/
theorem getElem_set_four (cs : Vector Word 16) {b : Nat} (hb : b + 3 < 16) (p q r u : Word) (j : Fin 16) :
    ((((cs.set b p).set (b + 1) q).set (b + 2) r).set (b + 3) u)[j] =
      if b ≤ j.val ∧ j.val < b + 4 then [p, q, r, u].getD (j.val - b) 0 else cs[j] := by
  simp only [Fin.getElem_fin, Vector.getElem_set]
  by_cases hin : b ≤ j.val ∧ j.val < b + 4
  · obtain ⟨k, hk⟩ := Nat.exists_eq_add_of_le hin.1
    have hk4 : k < 4 := by omega
    simp only [hk, Nat.add_sub_cancel_left]
    interval_cases k <;> simp
  · rw [if_neg hin, if_neg (by omega), if_neg (by omega), if_neg (by omega), if_neg (by omega)]

/-- Each word after the nonce and the counter are placed (R127). -/
theorem getElem_loadNonce (v : Variant) (nonce : Bytes) (ctr : Word) (cs : Vector Word 16) (j : Fin 16) :
    (loadNonce v nonce ctr cs)[j] =
      if nonceBase v ≤ j.val ∧ j.val < nonceBase v + 4 then (nonceWords v nonce ctr).getD (j.val - nonceBase v) 0
      else cs[j] := by
  cases v with
  | chacha =>
    simp only [loadNonce, nonceBase, nonceWords]
    split
    · exact getElem_set_four cs (b := 12) (by decide) _ _ _ _ j
    · split <;> exact getElem_set_four cs (b := 12) (by decide) _ _ _ _ j
  | salsa =>
    simp only [loadNonce, nonceBase, nonceWords]
    split <;> exact getElem_set_four cs (b := 6) (by decide) _ _ _ _ j

/-- Settles O30: each clause is one branch of `exec_scNonce_eq`; the words are those of `getElem_loadNonce`. -/
theorem scNonceLoads : Obligations.ScNonceLoads := by
  intro ra rb s
  refine ⟨formatR_ra_rb .scNonce ra rb, fun hra => ?pair, fun hra hkey => ?state, fun hra hkey hacc => ?length,
    fun hra hkey hacc hadm => ?address, fun hra hkey hacc hadm =>
      ⟨{ s with
          sc := ⟨loadNonce s.scCfg.variant (s.load (s.buf ra)) (s.reg rb) s.sc.cs, true, true⟩
          cp := s.cp + 1 }, ?run, rfl, fun j => ?words⟩⟩
  case pair => exact runWord_encode_of_pairsOk_false (Bool.eq_false_iff.2 fun h => pairsOk_scNonce.1 h hra) s
  case state => rw [exec_scNonce_eq hra, if_neg (by simp [hkey])]
  case length => rw [exec_scNonce_eq hra, if_pos hkey, if_neg hacc]
  case address => rw [exec_scNonce_eq hra, if_pos hkey, if_pos hacc, if_neg (by simp [hadm])]
  case run =>
    rw [exec_scNonce_eq hra, if_pos hkey, if_pos hacc, if_pos hadm]
    simp only [hkey, retire_eq]
  case words =>
    have hword := getElem_loadNonce s.scCfg.variant (s.load (s.buf ra)) (s.reg rb) s.sc.cs j
    simp only [nonceWords, State.length_load] at hword
    exact hword

/-! ## The constants -/

/-- The constants lie apart from the words that hold nonce and counter (R124, R125). -/
theorem constantWords_congr {v : Variant} {cs cs' : Vector Word 16}
    (h : ∀ j : Fin 16, ¬ (nonceBase v ≤ j.val ∧ j.val < nonceBase v + 4) → cs'[j] = cs[j]) :
    constantWords v cs' = constantWords v cs := by
  cases v with
  | chacha =>
    have h0 : cs'[0] = cs[0] := h 0 (by decide)
    have h1 : cs'[1] = cs[1] := h 1 (by decide)
    have h2 : cs'[2] = cs[2] := h 2 (by decide)
    have h3 : cs'[3] = cs[3] := h 3 (by decide)
    rw [constantWords, constantWords, h0, h1, h2, h3]
  | salsa =>
    have h0 : cs'[0] = cs[0] := h 0 (by decide)
    have h5 : cs'[5] = cs[5] := h 5 (by decide)
    have h10 : cs'[10] = cs[10] := h 10 (by decide)
    have h15 : cs'[15] = cs[15] := h 15 (by decide)
    rw [constantWords, constantWords, h0, h5, h10, h15]

theorem constantWords_keyedState (v : Variant) (key : Bytes) :
    constantWords v (keyedState v key) = keyConstants key := by
  refine Vector.ext fun i hi => ?_
  cases v <;> interval_cases i <;> rfl

theorem constantWords_loadNonce (v : Variant) (nonce : Bytes) (ctr : Word) (cs : Vector Word 16) :
    constantWords v (loadNonce v nonce ctr cs) = constantWords v cs :=
  constantWords_congr fun j hj => (getElem_loadNonce v nonce ctr cs j).trans (if_neg hj)

theorem constantWords_counterStep (v : Variant) (cs : Vector Word 16) :
    constantWords v (counterStep v cs) = constantWords v cs :=
  constantWords_congr fun j hj => getElem_counterStep_of_ne
    (by rintro rfl; cases v <;> exact hj (by decide)) (by rintro rfl; cases v <;> exact hj (by decide)) cs

theorem constantWords_advance (v : Variant) (n : Nat) (cs : Vector Word 16) :
    constantWords v (advance v n cs) = constantWords v cs := by
  induction n generalizing cs with
  | zero => rfl
  | succ n ih => rw [advance, ih, constantWords_counterStep]

section
variable {s u : State}

/-- A unit that keeps its constants and is keyed no more than before. -/
theorem constantsInPlace_withSc (h : s.constantsInPlace) {c : ScUnit} (hkeyed : c.keyed = true → s.sc.keyed = true)
    (hcs : constantWords s.scCfg.variant c.cs = constantWords s.scCfg.variant s.sc.cs) :
    State.constantsInPlace { s with sc := c } := by
  intro hc
  change constantWords _ c.cs = _ ∨ constantWords _ c.cs = _
  rw [hcs]
  exact h (hkeyed hc)

theorem constantsInPlace_of_wiped (h : s.sc = ScUnit.zero) : s.constantsInPlace := by
  rw [State.constantsInPlace, h]
  exact fun hkeyed => Bool.noConfusion hkeyed

theorem csrStore_constantsInPlace {v : Word} {csr : Csr} (h : s.constantsInPlace) (hu : csrStore s v csr = some u) :
    u.constantsInPlace := by
  cases csr with
  | scCfg =>
    obtain ⟨c, -, rfl⟩ := Option.map_eq_some_iff.1 hu
    exact constantsInPlace_of_wiped rfl
  | evAlg | evSaltsz | evHsaltsz =>
    obtain ⟨c, -, rfl⟩ := Option.map_eq_some_iff.1 hu
    exact h
  | evIter =>
    obtain rfl := Option.some.inj hu
    exact h
  | id | status | err | errcp | errcmd | cp => cases hu

/-- A key comes with its constants, a nonce and the counter leave them, and a wipe takes the key (R126, R131). -/
theorem Effect.constantsInPlace {i : Instr} (he : Effect s i u) (h : s.constantsInPlace) : u.constantsInPlace := by
  cases he with
  | csrw stored => exact csrStore_constantsInPlace h stored
  | wipe | scWipe => exact constantsInPlace_of_wiped rfl
  | scKey =>
    intro _
    change constantWords _ (keyedState _ _) = _ ∨ constantWords _ (keyedState _ _) = _
    rw [constantWords_keyedState]
    exact ite_eq_or_eq _ _ _
  | scNonce => exact constantsInPlace_withSc h id (constantWords_loadNonce _ _ _ _)
  | scBlock | scXor | scKs => exact constantsInPlace_withSc h id (constantWords_advance _ _ _)
  | evDec => split <;> exact h
  | _ => exact h

theorem FaultsFrom.constantsInPlace {i : Instr} (hf : FaultsFrom s i u) (h : s.constantsInPlace) :
    u.constantsInPlace := by
  cases hf <;> exact h

theorem exec_constantsInPlace {i : Instr} (h : s.constantsInPlace) (hu : exec i s = .next u) : u.constantsInPlace := by
  rcases exec_ends i s with ⟨f, v, hv, he⟩ | ⟨v, hv, he⟩ <;> rw [he] at hu <;> cases hu
  · exact hv.constantsInPlace h
  · exact hv.constantsInPlace h

theorem sequencerStep_constantsInPlace (h : s.constantsInPlace) (hu : sequencerStep s = .next u) :
    u.constantsInPlace := by
  rcases sequencerStep_cases s with ⟨-, he⟩ | ⟨w, q, -, -, he⟩ <;> rw [he] at hu
  · cases hu
    exact h
  · rcases runWord_cases w { s with queue := q } with ⟨i, -, hrun⟩ | ⟨e, -, hrun⟩ <;> rw [hrun] at hu
    · exact exec_constantsInPlace (s := { s with queue := q }) h hu
    · cases hu
      exact h

theorem hostMove_constantsInPlace {m : HostMove} (h : s.constantsInPlace) (hu : hostMove m s = .next u) :
    u.constantsInPlace := by
  rcases hostMove_cases hu with
    ⟨w, -, -, rfl⟩ | ⟨a, b, -, -, -, rfl⟩ | ⟨-, rfl⟩ | ⟨-, -, rfl⟩ | ⟨-, rfl⟩ | ⟨-, hs⟩
  · exact h
  · exact h
  · exact h
  · exact constantsInPlace_of_wiped rfl
  · exact constantsInPlace_of_wiped rfl
  · exact sequencerStep_constantsInPlace h hs

end

/-- Settles O20: by the first host move, or the command the sequencer takes. -/
theorem stepKeepsCipherConstants : Obligations.StepKeepsCipherConstants := by
  intro s t h ht
  rcases step_cases s with ⟨-, he⟩ | ⟨m, ms, -, he⟩ <;> rw [he] at ht
  · exact sequencerStep_constantsInPlace h ht
  · exact hostMove_constantsInPlace (s := { s with moves := ms }) h ht

end Sys2Proof.Machine
end

section
/-! PROOF. SC.BLOCK, SC.KS and SC.XOR applied twice: the keystream in BUF (41_stream_cipher.md R129, R132 to R134). -/

namespace Sys2Proof.Machine

open Sys2Proof

/-! ## SC.BLOCK and SC.KS -/

section
variable {s : State} {rd : Reg} {n : Nat}

/-- What `SC.BLOCK` and `SC.KS` do to store `n` bytes of keystream, `w` being their word: the checks in their order,
then the effect (R132, R134). -/
def storeKeystream (w : Word) (rd : Reg) (n : Nat) (s : State) : Result :=
  checked w s [needState s.scReady, needAddress (s.admits (s.dest rd n))] fun _ =>
    retire ((advanceSc s n).store (s.num rd) (keystreamBytes s n))

theorem exec_scBlock_eq : exec (.scBlock rd) s = storeKeystream (encode (.scBlock rd)) rd 64 s := rfl

theorem exec_scKs_eq {ra : Reg} :
    exec (.scKs rd ra) s = storeKeystream (encode (.scKs rd ra)) rd (s.num ra) s := rfl

variable {w : Word}

theorem storeKeystream_not_ready (h : s.sc.keyed = false ∨ s.sc.nonced = false) :
    storeKeystream w rd n s = raise .state w s := by
  have hready : s.scReady = false := by rcases h with h | h <;> simp [State.scReady, h]
  simp [storeKeystream, needState, hready]

theorem storeKeystream_not_admitted (hkey : s.sc.keyed = true) (hnonce : s.sc.nonced = true)
    (h : s.admits (s.dest rd n) = false) : storeKeystream w rd n s = raise .address w s := by
  simp [storeKeystream, needState, needAddress, scReady_iff.2 ⟨hkey, hnonce⟩, h]

theorem storeKeystream_of_accepted (hkey : s.sc.keyed = true) (hnonce : s.sc.nonced = true)
    (h : s.admits (s.dest rd n) = true) :
    storeKeystream w rd n s =
      .next { s with
        sc := { s.sc with cs := cipherStateAfter s n }
        mem := s.mem.write (s.num rd) (keystreamBytes s n)
        cp := s.cp + 1 } := by
  rw [← advance_blocksFor]
  simp [storeKeystream, needState, needAddress, scReady_iff.2 ⟨hkey, hnonce⟩, h, retire_eq, State.store, advanceSc]

/-- What stored keystream leaves in BUF (R61, R134). -/
theorem readByte_write_keystreamBytes (hwf : s.mem.wf = true) (a : Nat) :
    (s.mem.write (s.num rd) (keystreamBytes s n)).readByte a =
      if s.num rd ≤ a ∧ a < s.num rd + n then keystreamByte s (a - s.num rd) else s.mem.readByte a := by
  rw [Memory.write_stored hwf, length_keystreamBytes]
  split
  next h => exact getD_keystreamBytes s (by omega)
  next => rfl

/-- The first 64 bytes of the keystream are one block (R129, R132). -/
theorem keystreamBytes_block (s : State) : keystreamBytes s 64 = keystreamBlock s.scCfg s.sc.cs := by
  have hblock : keystream s.scCfg (blocksFor 64) s.sc.cs = keystreamBlock s.scCfg s.sc.cs :=
    List.append_nil _
  rw [keystreamBytes, hblock, List.take_of_length_le (length_keystreamBlock _ _).le]

end

/-- Settles O31: `SC.BLOCK` stores 64 bytes of keystream, which are one block. -/
theorem scBlockWrites : Obligations.ScBlockWrites := by
  refine fun rd s => ⟨formatR_rd .scBlock rd, fun hsc => exec_scBlock_eq.trans (storeKeystream_not_ready hsc),
    fun hkey hnonce hadm => exec_scBlock_eq.trans (storeKeystream_not_admitted hkey hnonce hadm),
    fun hkey hnonce hadm hwf =>
      ⟨_, exec_scBlock_eq.trans (storeKeystream_of_accepted hkey hnonce hadm), rfl, rfl, ?_⟩⟩
  rw [keystreamBytes_block]
  exact Memory.write_stored hwf _ _

/-- Settles O33: `SC.KS` stores as many bytes of keystream as its register says. -/
theorem scKsWrites : Obligations.ScKsWrites := fun rd ra _ =>
  ⟨formatR_rd_ra .scKs ra rd 0, fun hsc => exec_scKs_eq.trans (storeKeystream_not_ready hsc),
    fun hkey hnonce hadm => exec_scKs_eq.trans (storeKeystream_not_admitted hkey hnonce hadm),
    fun hkey hnonce hadm hwf =>
      ⟨_, exec_scKs_eq.trans (storeKeystream_of_accepted hkey hnonce hadm), rfl, rfl,
        readByte_write_keystreamBytes hwf⟩⟩

/-! ## SC.XOR twice -/

section
variable {s t u : State} {rd ra : Reg}

/-- An `SC.XOR` that retires leaves the exclusive or at its output (R133). -/
theorem load_of_exec_scXor (hwf : s.mem.wf = true) (ht : exec (.scXor rd ra) s = .next t) (hcp : t.cp = s.cp + 1) :
    t.load (s.dest rd (s.buf ra).len) = s.xored ra := by
  rcases exec_ends (.scXor rd ra) s with ⟨f, v, hv, he⟩ | ⟨v, hv, he⟩ <;> rw [he] at ht <;> cases ht
  · cases hv
    simp at hcp
  · cases hv
    have hload := State.load_store_same hwf (s.num rd) (s.xored ra)
    rw [length_xored] at hload
    exact hload

/-- The keystream is decided by the configuration and the CipherState (R129). -/
theorem keystreamBytes_congr (hsc : u.sc = s.sc) (hcfg : u.scCfg = s.scCfg) (n : Nat) :
    keystreamBytes u n = keystreamBytes s n := by
  rw [keystreamBytes, hsc, hcfg]
  rfl

/-- The same keystream exclusive-ored twice drops out (R133). -/
theorem xorBytes_xorBytes {a b : Bytes} (h : a.length ≤ b.length) : xorBytes (xorBytes a b) b = a := by
  refine List.ext_getElem (by simp [h]) fun i h1 h2 => ?_
  simp [xorBytes]

end

/-- Settles O34: the second `SC.XOR` takes the same keystream off again. -/
theorem scXorTwiceRestores : Obligations.ScXorTwiceRestores := by
  intro rd ra rd' ra' s t u v hs hu ht htcp hsc hcfg hlen hinput hv hvcp
  have hfirst := load_of_exec_scXor hs ht htcp
  have hsecond := load_of_exec_scXor hu hv hvcp
  calc v.load (u.dest rd' (s.buf ra).len)
      = u.xored ra' := by rw [← hlen, hsecond]
    _ = xorBytes (s.xored ra) (keystreamBytes s (s.buf ra).len) := by
        rw [State.xored, hinput, hfirst, hlen, keystreamBytes_congr hsc hcfg]
    _ = s.load (s.buf ra) := xorBytes_xorBytes (by simp [State.length_load])

end Sys2Proof.Machine
end

section
/-! PROOF. Absorption into the B2 unit: byte by byte, into a buffer with room, and past its end (42_blake2b.md R157,
R158). -/

namespace Sys2Proof.Machine

open Sys2Proof

section
variable {b : B2Unit}

/-! ## One byte -/

/-- The cut of the input does not matter (R158). -/
theorem blakeAbsorb_append (b : B2Unit) (x y : Bytes) : blakeAbsorb b (x ++ y) = blakeAbsorb (blakeAbsorb b x) y :=
  List.foldl_append

/-- A byte goes into a buffer with room (R158). -/
theorem blakeAbsorbByte_of_room (h : b.c < 128) (d : Byte) :
    blakeAbsorbByte b d = { b with bbuf := b.bbuf.setIfInBounds b.c d, c := b.c + 1 } := by
  rw [blakeAbsorbByte, if_neg h.ne]

/-- One more byte empties a full buffer first (R158). -/
theorem blakeAbsorbByte_of_full (h : b.c = 128) (d : Byte) :
    blakeAbsorbByte b d = { blakeFlush b with bbuf := (Vector.replicate 128 0).set 0 d, c := 1 } := by
  simp [blakeAbsorbByte, h, blakeFlush, Vector.setIfInBounds, Vector.set, Array.setIfInBounds]

/-! ## The bytes past the offset -/

/-- The offset is 0 to 128, and the bytes of the buffer past it are 0 (R43, R158). -/
structure B2Unit.Padded (b : B2Unit) : Prop where
  offset : b.c ≤ 128
  padding : ∀ j : Fin 128, b.c ≤ j.val → b.bbuf[j] = 0

/-- A byte placed at the offset keeps the bytes past it 0, in whatever unit that holds such a buffer (R158). -/
theorem padded_of_set {u : B2Unit} (h : b.Padded) (hroom : b.c < 128) (d : Byte) (hc : u.c = b.c + 1)
    (hbuf : u.bbuf = b.bbuf.setIfInBounds b.c d) : u.Padded where
  offset := hc.trans_le hroom
  padding := fun j hj => by
    have hpast : b.c ≠ j.val ∧ b.c ≤ j.val := by omega
    simpa [hbuf, Vector.getElem_setIfInBounds, hpast.1] using h.padding j hpast.2

theorem blakeFlush_padded (b : B2Unit) : (blakeFlush b).Padded where
  offset := Nat.zero_le _
  padding := fun j _ => by simp [blakeFlush]

theorem blakeAbsorbByte_padded (h : b.Padded) (d : Byte) : (blakeAbsorbByte b d).Padded := by
  unfold blakeAbsorbByte
  split
  next => exact padded_of_set (blakeFlush_padded b) (by decide : 0 < 128) d rfl rfl
  next hne => exact padded_of_set h (lt_of_le_of_ne h.offset hne) d rfl rfl

theorem blakeAbsorb_padded (h : b.Padded) (x : Bytes) : (blakeAbsorb b x).Padded := by
  induction x generalizing b with
  | nil => exact h
  | cons d x ih => exact ih (blakeAbsorbByte_padded h d)

/-! ## Offset and counter -/

/-- A flush counts a whole block (R157, R158). -/
theorem count_blakeFlush (b : B2Unit) : (blakeFlush b).count = (b.count + 128) % 2 ^ 128 :=
  (byteCounterAdds b 128 (by decide) (by decide)).1

/-- A byte that finds room moves the offset, and the counter stays (R158). -/
theorem blakeAbsorbByte_offset_of_room (h : b.c < 128) (d : Byte) :
    (blakeAbsorbByte b d).c = b.c + 1 ∧ (blakeAbsorbByte b d).count = b.count := by
  rw [blakeAbsorbByte_of_room h]
  exact ⟨rfl, rfl⟩

/-- A byte that finds the buffer full is the first of the next block, and the counter takes the last one (R158). -/
theorem blakeAbsorbByte_offset_of_full (h : b.c = 128) (d : Byte) :
    (blakeAbsorbByte b d).c = 1 ∧ (blakeAbsorbByte b d).count = (b.count + 128) % 2 ^ 128 := by
  rw [blakeAbsorbByte_of_full h, ← count_blakeFlush]
  exact ⟨rfl, rfl⟩

/-- Offset and counter after `L > 0` bytes from a fresh unit, by induction on the last byte (R158). -/
theorem blakeAbsorb_offset (hc : b.c = 0) (hcount : b.count = 0) {x : Bytes} (hx : x ≠ []) :
    (blakeAbsorb b x).c = (x.length - 1) % 128 + 1 ∧
      (blakeAbsorb b x).count = (128 * ((x.length - 1) / 128)) % 2 ^ 128 := by
  induction x using List.reverseRecOn with
  | nil => exact absurd rfl hx
  | append_singleton y d ih =>
    have hlast : blakeAbsorb b (y ++ [d]) = blakeAbsorbByte (blakeAbsorb b y) d := blakeAbsorb_append b y [d]
    rw [hlast, List.length_append, List.length_singleton, Nat.add_sub_cancel]
    by_cases hy : y = []
    · subst hy
      obtain ⟨hoff, hctr⟩ := blakeAbsorbByte_offset_of_room (b := b) (by omega) d
      exact ⟨hoff.trans (by rw [hc]; rfl), hctr.trans hcount⟩
    · obtain ⟨ihoff, ihctr⟩ := ih hy
      have hpos := List.length_pos_of_ne_nil hy
      by_cases hfull : (blakeAbsorb b y).c = 128
      · obtain ⟨hoff, hctr⟩ := blakeAbsorbByte_offset_of_full hfull d
        omega
      · obtain ⟨hoff, hctr⟩ := blakeAbsorbByte_offset_of_room (b := blakeAbsorb b y) (by omega) d
        omega

end

/-- Settles O43: the two ways a byte is taken, the fold over the input, and what each byte does to padding, offset and
counter. -/
theorem absorptionLaws : Obligations.AbsorptionLaws := fun b hb =>
  ⟨fun d hroom => blakeAbsorbByte_of_room hroom d, fun d hfull => blakeAbsorbByte_of_full hfull d, rfl,
    fun x y => (blakeAbsorb_append b x y).symm,
    fun hpad x => ⟨(blakeAbsorb_padded ⟨hb, hpad⟩ x).offset, (blakeAbsorb_padded ⟨hb, hpad⟩ x).padding⟩,
    fun hc hcount _ hx => blakeAbsorb_offset hc hcount hx⟩

end Sys2Proof.Machine
end

section
/-! PROOF. B2.UPDATE and B2.FINAL: their faults in order, and the digest (42_blake2b.md R157 to R160). -/

namespace Sys2Proof.Machine

open Sys2Proof

theorem b2Ready_iff {b : B2Unit} : b.ready = true ↔ b.outlen ≠ 0 ∧ b.f0 = 0 := by
  simp [B2Unit.ready, B2Unit.active, B2Unit.final]

/-! ## B2.UPDATE -/

section
variable {s : State} {ra : Reg}

theorem pairsOk_b2Update : (Instr.b2Update ra).pairsOk = true ↔ ra ≠ 15 := by
  simp [Instr.pairsOk, Instr.pairFields, Reg.pairOk]

/-- All that `B2.UPDATE` does once its pair is legal: its checks in their order, then its effect (R159). -/
theorem exec_b2Update_eq (hra : ra ≠ 15) :
    exec (.b2Update ra) s =
      if s.b2.outlen ≠ 0 ∧ s.b2.f0 = 0 then
        if s.admits (s.buf ra) = true then retire { s with b2 := blakeAbsorb s.b2 (s.load (s.buf ra)) }
        else raise .address (encode (.b2Update ra)) s
      else raise .state (encode (.b2Update ra)) s := by
  change execB2Update ra s = _
  simp only [execB2Update, checked_cons, checked_nil, pairCheck, needState, needAddress, pairsOk_b2Update.2 hra,
    b2Ready_iff, if_true]

/-- An empty input is absorbed without a trace (R159). -/
theorem blakeAbsorb_load_of_len_zero (b : B2Unit) {r : Range} (h : r.len = 0) : blakeAbsorb b (s.load r) = b := by
  have hempty : s.load r = [] := List.eq_nil_of_length_eq_zero ((State.length_load s r).trans h)
  rw [hempty]
  rfl

end

/-- Settles O40: each clause is one branch of `exec_b2Update_eq`. -/
theorem b2UpdateAbsorbs : Obligations.B2UpdateAbsorbs := by
  intro ra s
  refine ⟨formatR_ra .b2Update ra, fun hra => ?pair, fun hra hstate => ?state, fun hra hout hflag hadm => ?address,
    fun hra hout hflag hadm => ?absorbs⟩
  case pair => exact runWord_encode_of_pairsOk_false (Bool.eq_false_iff.2 fun h => pairsOk_b2Update.1 h hra) s
  case state => rw [exec_b2Update_eq hra, if_neg (by tauto)]
  case address => rw [exec_b2Update_eq hra, if_pos ⟨hout, hflag⟩, if_neg (by simp [hadm])]
  case absorbs =>
    rw [exec_b2Update_eq hra, if_pos ⟨hout, hflag⟩, if_pos hadm]
    exact ⟨rfl, fun hlen => by rw [blakeAbsorb_load_of_len_zero s.b2 hlen]; rfl⟩

/-! ## B2.FINAL -/

section
variable {b : B2Unit}

/-- The two counter words are the digits of the number they hold (R157). -/
theorem eq_withCounter_of_count {u : B2Unit} {n : Nat} (hframe : u = { b with t0 := u.t0, t1 := u.t1 })
    (hcount : u.count = n) : u = { b with t0 := BitVec.ofNat 64 n, t1 := BitVec.ofNat 64 (n / 2 ^ 64) } := by
  have hlow := u.t0.isLt
  have hhigh := u.t1.isLt
  rw [B2Unit.count] at hcount
  have ht0 : u.t0 = BitVec.ofNat 64 n := BitVec.eq_of_toNat_eq (by rw [BitVec.toNat_ofNat]; omega)
  have ht1 : u.t1 = BitVec.ofNat 64 (n / 2 ^ 64) := BitVec.eq_of_toNat_eq (by rw [BitVec.toNat_ofNat]; omega)
  rwa [← ht0, ← ht1]

theorem B2Unit.count_lt (b : B2Unit) : b.count < 2 ^ 128 := by
  have hlow := b.t0.isLt
  have hhigh := b.t1.isLt
  rw [B2Unit.count]
  omega

/-- The number of message bytes at the end: the blocks counted before and the buffered bytes (R157, R160). -/
def B2Unit.total (b : B2Unit) : Nat := (b.count + b.c) % 2 ^ 128

/-- The unit that the last compression works on: all bytes counted, the flag set (R160). -/
def B2Unit.lastInput (b : B2Unit) : B2Unit :=
  { b with t0 := BitVec.ofNat 64 b.total, t1 := BitVec.ofNat 64 (b.total / 2 ^ 64), f0 := 0xFFFFFFFFFFFFFFFF }

/-- Counting the buffered bytes, where there are any, counts all bytes (R157, R160). -/
theorem count_buffered (h : b.c ≤ 128) :
    (if 0 < b.c then blakeCount b b.c else b) =
      { b with t0 := BitVec.ofNat 64 b.total, t1 := BitVec.ofNat 64 (b.total / 2 ^ 64) } := by
  split
  next hpos =>
    obtain ⟨hcount, hframe⟩ := byteCounterAdds b b.c hpos h
    exact eq_withCounter_of_count hframe hcount
  next hzero =>
    have hempty : b.c = 0 := Nat.eq_zero_of_not_pos hzero
    exact eq_withCounter_of_count rfl (by rw [B2Unit.total, hempty, Nat.add_zero, Nat.mod_eq_of_lt b.count_lt])

/-- The finalization flag is all ones (R160). -/
theorem allOnes_eq_flag : BitVec.allOnes 64 = 0xFFFFFFFFFFFFFFFF := by decide

/-- The last compression (R160). -/
theorem blakeLast_eq (h : b.c ≤ 128) :
    blakeLast b = { b.lastInput with h := blakeCompress b.lastInput b.bbuf.toList } := by
  unfold blakeLast
  rw [count_buffered h, allOnes_eq_flag]
  rfl

end

/-- The digest is the chaining words of the last compression, little-endian and cut (R160). -/
theorem blakeDigest_blakeLast {b : B2Unit} (h : b.c ≤ 128) :
    blakeDigest (blakeLast b) =
      ((blakeCompress b.lastInput b.bbuf.toList).toList.map toLe64).flatten.take b.outlen := by
  obtain ⟨-, -, hout⟩ := blakeLast_flags b
  rw [blakeDigest, hout, blakeLast_eq h]

/-- The unit after `B2.FINAL`, every field (R160). -/
theorem blakeDone_blakeLast (b : B2Unit) :
    blakeDone (blakeLast b) =
      ⟨Vector.replicate 8 0, 0, 0, 0xFFFFFFFFFFFFFFFF, b.f1, Vector.replicate 128 0, 0, b.outlen⟩ := by
  obtain ⟨hlow, hhigh, hout⟩ := blakeLast_flags b
  simp only [blakeDone, hlow, hhigh, hout, allOnes_eq_flag, B2Unit.zero]

section
variable {s : State} {rd : Reg}

/-- All that `B2.FINAL` does: its checks in their order, then its effect (R160). -/
theorem exec_b2Final_eq :
    exec (.b2Final rd) s =
      if s.b2.outlen ≠ 0 ∧ s.b2.f0 = 0 then
        if s.admits (s.dest rd s.b2.outlen) = true then
          retire ({ s with b2 := blakeDone (blakeLast s.b2) }.store (s.num rd) (blakeDigest (blakeLast s.b2)))
        else raise .address (encode (.b2Final rd)) s
      else raise .state (encode (.b2Final rd)) s := by
  change execB2Final rd s = _
  simp only [execB2Final, checked_cons, checked_nil, needState, needAddress, b2Ready_iff]

/-- There is nothing to finalize without a hash, or twice (R160). -/
theorem exec_b2Final_of_not_ready (h : s.b2.outlen = 0 ∨ s.b2.f0 ≠ 0) :
    exec (.b2Final rd) s = raise .state (encode (.b2Final rd)) s := by
  rw [exec_b2Final_eq, if_neg (by tauto)]

end

/-- Settles O41: each clause is one branch of `exec_b2Final_eq`; the last compression is that of `blakeLast_eq`. -/
theorem b2FinalWritesDigest : Obligations.B2FinalWritesDigest := by
  intro rd s
  refine ⟨formatR_rd .b2Final rd, exec_b2Final_of_not_ready, fun hout hflag hadm => ?address,
    fun hout hflag hadm hc hwf =>
      ⟨_, exec_b2Final_eq.trans ((if_pos ⟨hout, hflag⟩).trans (if_pos hadm)), rfl, ?unit, ?digest, fun q => ?again⟩⟩
  case address => rw [exec_b2Final_eq, if_pos ⟨hout, hflag⟩, if_neg (by simp [hadm])]
  case unit => exact blakeDone_blakeLast s.b2
  case digest =>
    change s.mem.Stored _ _ (s.mem.write _ (blakeDigest (blakeLast s.b2)))
    rw [blakeDigest_blakeLast hc, B2Unit.lastInput, B2Unit.total]
    exact Memory.write_stored hwf _ _
  case again =>
    refine exec_b2Final_of_not_ready (.inr ?_)
    change (blakeLast s.b2).f0 ≠ 0
    rw [(blakeLast_flags s.b2).1]
    decide

end Sys2Proof.Machine
end

section
/-! PROOF. B2.INIT: its faults in order, the configuration block, and the key in the buffer (42_blake2b.md R155,
R156). -/

namespace Sys2Proof.Machine

open Sys2Proof

/-! ## The configuration block -/

theorem leNat_zeros (n : Nat) : leNat (zeros n) = 0 := by
  induction n with
  | zero => rfl
  | succ n ih =>
    change 0 + 256 * leNat (zeros n) = 0
    rw [ih]

theorem le64_zeros (n : Nat) : le64 (zeros n) = 0 := congrArg (BitVec.ofNat 64) (leNat_zeros n)

/-- A piece of the zeros behind a string. -/
theorem slice_append_zeros {b : Bytes} {i j n : Nat} (hi : b.length ≤ i) (hj : j ≤ b.length + n) :
    slice (b ++ zeros n) i j = zeros (j - i) := by
  rw [slice, List.drop_append, List.drop_eq_nil_of_le hi, List.nil_append, zeros, List.drop_replicate,
    List.take_replicate, min_eq_left (by omega)]
  rfl

section
variable (outlen : Byte) (key salt pers : Bytes)

/-- The configuration block, its zero fields joined (R155). -/
theorem blakeConfig_eq :
    blakeConfig outlen key salt pers =
      [outlen, BitVec.ofNat 8 key.length, 1, 1] ++ zeros 28 ++ (if salt.length = 0 then zeros 16 else salt) ++
        (if pers.length = 0 then zeros 16 else pers) := rfl

/-- Without salt and personalization only the first four bytes of the block are set (R155). -/
theorem blakeConfig_plain (hsalt : salt.length = 0) (hpers : pers.length = 0) :
    blakeConfig outlen key salt pers = [outlen, BitVec.ofNat 8 key.length, 1, 1] ++ zeros 60 := by
  rw [blakeConfig_eq, if_pos hsalt, if_pos hpers]
  rfl

end

section
variable {outlen : Byte} {n : Nat}

/-- The first word of a block without salt and personalization (R155). -/
theorem le64_config_first (hn : n ≤ 128) :
    le64 (slice ([outlen, BitVec.ofNat 8 n, 1, 1] ++ zeros 60) 0 8) =
      BitVec.ofNat 64 (0x01010000 + n * 256 + outlen.toNat) := by
  have hslice : slice ([outlen, BitVec.ofNat 8 n, 1, 1] ++ zeros 60) 0 8 =
      [outlen, BitVec.ofNat 8 n, 1, 1, 0, 0, 0, 0] := rfl
  have hkeyByte : (BitVec.ofNat 8 n).toNat = n :=
    (BitVec.toNat_ofNat n 8).trans (Nat.mod_eq_of_lt (by omega))
  have hone : (1 : Byte).toNat = 1 := rfl
  have hzero : (0 : Byte).toNat = 0 := rfl
  rw [hslice, le64]
  refine congrArg (BitVec.ofNat 64) ?_
  simp only [leNat, hkeyByte, hone, hzero]
  omega

/-- Every other word of that block is 0 (R155). -/
theorem le64_config_rest {j : Nat} (hpos : j ≠ 0) (hj : j < 8) :
    le64 (slice ([outlen, BitVec.ofNat 8 n, 1, 1] ++ zeros 60) (8 * j) (8 * j + 8)) = 0 := by
  rw [slice_append_zeros (by simp only [List.length_cons, List.length_nil]; omega)
    (by simp only [List.length_cons, List.length_nil]; omega), le64_zeros]

end

/-! ## The key in the buffer -/

/-- An input that the buffer has room for moves the offset and lands behind it; nothing is compressed (R158). -/
theorem blakeAbsorb_of_room {b : B2Unit} {x : Bytes} (h : b.c + x.length ≤ 128) :
    blakeAbsorb b x = { b with bbuf := (blakeAbsorb b x).bbuf, c := b.c + x.length } ∧
      ∀ j : Fin 128, (blakeAbsorb b x).bbuf[j] =
        if b.c ≤ j.val ∧ j.val < b.c + x.length then x.getD (j.val - b.c) 0 else b.bbuf[j] := by
  induction x using List.reverseRecOn with
  | nil => exact ⟨rfl, fun j => (if_neg (by rw [List.length_nil]; omega)).symm⟩
  | append_singleton y d ih =>
    rw [List.length_append, List.length_singleton] at h ⊢
    obtain ⟨hframe, hbuf⟩ := ih (by omega)
    have hc : (blakeAbsorb b y).c = b.c + y.length := congrArg B2Unit.c hframe
    have hlast : blakeAbsorb b (y ++ [d]) = _ :=
      (blakeAbsorb_append b y [d]).trans (blakeAbsorbByte_of_room (by omega) d)
    rw [hlast, hc]
    refine ⟨?frame, fun j => ?byte⟩
    case frame => rw [hframe, Nat.add_assoc]
    case byte =>
      rw [Fin.getElem_fin, Vector.getElem_setIfInBounds, ← Fin.getElem_fin, hbuf]
      by_cases hnew : b.c + y.length = j.val
      · rw [if_pos hnew, if_pos (by omega), ← hnew, Nat.add_sub_cancel_left, List.getD_append_right _ _ _ _ le_rfl,
          Nat.sub_self]
        rfl
      · rw [if_neg hnew]
        by_cases hold : b.c ≤ j.val ∧ j.val < b.c + y.length
        · rw [if_pos hold, if_pos (by omega), List.getD_append _ _ _ _ (by omega)]
        · rw [if_neg hold, if_neg (by omega)]

/-- Zeros behind a string read as what lies past its end. -/
theorem getD_append_zeros (b : Bytes) (n j : Nat) : (b ++ zeros n).getD j 0 = b.getD j 0 := by
  rcases Nat.lt_or_ge j b.length with h | h
  · exact List.getD_append _ _ _ _ h
  · rw [List.getD_append_right _ _ _ _ h, List.getD_eq_default _ _ h, zeros, List.getD_eq_getElem?_getD,
      List.getElem?_replicate]
    split <;> rfl

/-- The unit after `B2.INIT`: it is the unit at its start, with the key zero-padded in a full buffer when there is one
(R156). -/
theorem blakeInit_eq (outlen : Byte) {key : Bytes} (salt pers : Bytes) (hkey : key.length ≤ 128) :
    blakeInit outlen key salt pers =
        { blakeStart outlen key salt pers with
          bbuf := (blakeInit outlen key salt pers).bbuf, c := if key.length = 0 then 0 else 128 } ∧
      ∀ j : Fin 128, (blakeInit outlen key salt pers).bbuf[j] = key.getD j 0 := by
  unfold blakeInit
  dsimp only
  split
  next hpos =>
    have hlen : (key ++ zeros (128 - key.length)).length = 128 := by
      rw [List.length_append, length_zeros]
      omega
    obtain ⟨hframe, hbuf⟩ := blakeAbsorb_of_room (b := blakeStart outlen key salt pers)
      (x := key ++ zeros (128 - key.length)) (by rw [hlen]; rfl)
    rw [hlen] at hframe hbuf
    rw [if_neg hpos.ne']
    refine ⟨hframe, fun j => (hbuf j).trans ?_⟩
    rw [if_pos ⟨Nat.zero_le _, by have := j.isLt; omega⟩]
    exact getD_append_zeros key _ j
  next hzero =>
    have hempty : key = [] := List.eq_nil_of_length_eq_zero (by omega)
    subst hempty
    exact ⟨rfl, fun j => by simp [blakeStart, B2Unit.zero]⟩

section
variable {outlen : Byte} {key salt pers : Bytes}

/-- The chaining words after `B2.INIT`: the IV with the configuration block, whatever the key (R156). -/
theorem getElem_h_blakeInit (hkey : key.length ≤ 128) (j : Fin 8) :
    (blakeInit outlen key salt pers).h[j] =
      blakeIv[j] ^^^ le64 (slice (blakeConfig outlen key salt pers) (8 * j.val) (8 * j.val + 8)) := by
  rw [(blakeInit_eq outlen salt pers hkey).1]
  exact Vector.getElem_ofFn j.isLt

/-- Without salt and personalization only the first chaining word differs from the IV (R155, R156). -/
theorem getElem_h_blakeInit_plain (hkey : key.length ≤ 128) (hsalt : salt.length = 0) (hpers : pers.length = 0) :
    (blakeInit outlen key salt pers).h[0] =
        blakeIv[0] ^^^ BitVec.ofNat 64 (0x01010000 + key.length * 256 + outlen.toNat) ∧
      ∀ j : Fin 8, j ≠ 0 → (blakeInit outlen key salt pers).h[j] = blakeIv[j] := by
  have hword := getElem_h_blakeInit (outlen := outlen) (salt := salt) (pers := pers) hkey
  rw [blakeConfig_plain outlen key salt pers hsalt hpers] at hword
  refine ⟨?_, fun j hj => ?_⟩
  · exact (hword 0).trans (congrArg (blakeIv[0] ^^^ ·) (le64_config_first hkey))
  · rw [hword, le64_config_rest (Fin.val_ne_zero_iff.2 hj) j.isLt]
    exact BitVec.xor_zero

end

/-! ## The command -/

section
variable {s : State} {ra rb rc : Reg} {imm : Byte}

theorem pairsOk_b2Init : (Instr.b2Init ra rb rc imm).pairsOk = true ↔ ra ≠ 15 ∧ rb ≠ 15 ∧ rc ≠ 15 := by
  simp [Instr.pairsOk, Instr.pairFields, Reg.pairOk]

/-- All that `B2.INIT` does once its pairs are legal: its checks in their order, then its effect (R156). -/
theorem exec_b2Init_eq (hpairs : ra ≠ 15 ∧ rb ≠ 15 ∧ rc ≠ 15) :
    exec (.b2Init ra rb rc imm) s =
      if 1 ≤ imm.toNat ∧ imm.toNat ≤ 64 ∧ (s.buf ra).len ≤ 128 ∧ ((s.buf rb).len = 0 ∨ (s.buf rb).len = 16) ∧
          ((s.buf rc).len = 0 ∨ (s.buf rc).len = 16) then
        if s.admits (s.buf ra) = true ∧ s.admits (s.buf rb) = true ∧ s.admits (s.buf rc) = true then
          retire { s with b2 := blakeInit imm (s.load (s.buf ra)) (s.load (s.buf rb)) (s.load (s.buf rc)) }
        else raise .address (encode (.b2Init ra rb rc imm)) s
      else raise .argument (encode (.b2Init ra rb rc imm)) s := by
  change execB2Init ra rb rc imm s = _
  simp only [execB2Init, checked_cons, checked_nil, pairCheck, needArgument, needAddress, pairsOk_b2Init.2 hpairs,
    Bool.and_eq_true, Bool.or_eq_true, decide_eq_true_eq, beq_iff_eq, and_assoc, if_true]
  rfl

end

/-- Settles O39: each clause is one branch of `exec_b2Init_eq`; the unit is that of `blakeInit_eq`. -/
theorem b2InitStarts : Obligations.B2InitStarts := by
  intro ra rb rc imm s
  refine ⟨rfl, fun hpair => ?pair, fun hra hrb hrc hacc => ?argument, fun hra hrb hrc hacc hadm => ?address,
    fun hra hrb hrc hacc hadm => ?starts⟩
  case pair =>
    refine runWord_encode_of_pairsOk_false (Bool.eq_false_iff.2 fun h => ?_) s
    obtain ⟨hra, hrb, hrc⟩ := pairsOk_b2Init.1 h
    tauto
  case argument => rw [exec_b2Init_eq ⟨hra, hrb, hrc⟩, if_neg hacc]
  case address => rw [exec_b2Init_eq ⟨hra, hrb, hrc⟩, if_pos hacc, if_neg hadm]
  case starts =>
    obtain ⟨-, -, hkeyLen, -, -⟩ := id hacc
    have hkey : (s.load (s.buf ra)).length ≤ 128 := (State.length_load s _).trans_le hkeyLen
    obtain ⟨hunit, hbuf⟩ := blakeInit_eq imm (s.load (s.buf rb)) (s.load (s.buf rc)) hkey
    refine ⟨_, (exec_b2Init_eq ⟨hra, hrb, hrc⟩).trans ((if_pos hacc).trans (if_pos hadm)), rfl, fun j => ?words,
      congrArg B2Unit.t0 hunit, congrArg B2Unit.t1 hunit, congrArg B2Unit.f0 hunit, congrArg B2Unit.f1 hunit,
      congrArg B2Unit.outlen hunit, ?offset, hbuf, fun hsl hpl => ?plain⟩
    case words =>
      have hword := getElem_h_blakeInit (outlen := imm) (salt := s.load (s.buf rb)) (pers := s.load (s.buf rc)) hkey j
      rw [blakeConfig_eq] at hword
      simp only [State.length_load] at hword
      exact hword
    case offset =>
      have hoffset := congrArg B2Unit.c hunit
      rw [State.length_load] at hoffset
      exact hoffset
    case plain =>
      have hplain := getElem_h_blakeInit_plain (outlen := imm) hkey ((State.length_load s _).trans hsl)
        ((State.length_load s _).trans hpl)
      rw [State.length_load] at hplain
      exact hplain

end Sys2Proof.Machine
end

section
/-! PROOF. The padding of the SHA family, the key block and the nested hash of HMAC, and HM.MAC: its faults in order and
the tag (20_memory.md R63; 43_sha_hmac.md R180, R181, R195, R197, R199). -/

namespace Sys2Proof.Machine

open Sys2Proof

/-! ## Big-endian numbers -/

/-- The `n` digits in base 256 hold the number modulo `256 ^ n` (R11). -/
theorem leNat_toLe (n v : Nat) : leNat (toLe n v) = v % 256 ^ n := by
  induction n generalizing v with
  | zero => exact (Nat.mod_one v).symm
  | succ n ih =>
    calc leNat (toLe (n + 1) v)
        = v % 256 + 256 * (v / 256 % 256 ^ n) := by rw [toLe, leNat, ih, BitVec.toNat_ofNat]
      _ = v % 256 ^ (n + 1) := by rw [Nat.pow_succ', Nat.mod_mul]

theorem beNat_toBe (n v : Nat) : beNat (toBe n v) = v % 256 ^ n := by
  rw [beNat, toBe, List.reverse_reverse, leNat_toLe]

/-! ## The padding -/

/-- The number of zero bytes in the padding of a message of `len` bytes (R181). -/
def shaZeros (size len : Nat) : Nat := (2 * size - size / 8 - 1 - len % size) % size

theorem shaPad_eq (size : Nat) (msg : Bytes) :
    shaPad size msg =
      msg ++ [0x80] ++ List.replicate (shaZeros size msg.length) 0 ++ toBe (size / 8) (8 * msg.length) := rfl

theorem length_shaPad (size : Nat) (msg : Bytes) :
    (shaPad size msg).length = msg.length + 1 + shaZeros size msg.length + size / 8 := by
  simp only [shaPad_eq, List.length_append, List.length_singleton, List.length_replicate, length_toBe]

section
variable {size : Nat} (hsize : size = 64 ∨ size = 128) (len : Nat)
include hsize

/-- The zeros leave room for just the bit length in the last block (R181). -/
theorem shaZeros_reach : (len + 1 + shaZeros size len) % size = size - size / 8 := by
  rw [shaZeros]
  rcases hsize with rfl | rfl <;> omega

/-- No smaller number of zeros does (R181). -/
theorem shaZeros_fewest {z : Nat} (hz : z < shaZeros size len) : (len + 1 + z) % size ≠ size - size / 8 := by
  rw [shaZeros] at hz
  rcases hsize with rfl | rfl <;> omega

/-- A padded message is a positive number of whole blocks (R181). -/
theorem length_shaPad_whole (msg : Bytes) :
    (shaPad size msg).length % size = 0 ∧ size ≤ (shaPad size msg).length := by
  have hreach := shaZeros_reach hsize msg.length
  rw [length_shaPad]
  rcases hsize with rfl | rfl <;> omega

end

/-- Settles O46: the number of zeros is `shaZeros`, and the bit length is read back by `beNat_toBe`. -/
theorem shaPadding : Obligations.ShaPadding :=
  ⟨fun size msg hsize =>
    ⟨shaZeros size msg.length, shaPad_eq size msg, shaZeros_reach hsize msg.length,
      fun _ hz => shaZeros_fewest hsize msg.length hz, length_shaPad_whole hsize msg⟩,
    fun n v => ⟨length_toBe n v, beNat_toBe n v⟩⟩

/-! ## The key block -/

section
variable {alg : HashAlg} {key : Bytes}

/-- A key that fits the block is padded with zeros (R197). -/
theorem keyBlock_of_le (h : key.length ≤ alg.blockLen) :
    keyBlock alg key = key ++ zeros (alg.blockLen - key.length) := by
  simp only [keyBlock, if_neg h.not_gt]

/-- A longer key counts as its hash, which fits the block (R197). -/
theorem keyBlock_hashOf (h : alg.blockLen < key.length) : keyBlock alg (hashOf alg key) = keyBlock alg key := by
  have hfits : (hashOf alg key).length ≤ alg.blockLen := (length_hashOf alg key).trans_le alg.hLen_le_blockLen
  rw [keyBlock_of_le hfits]
  simp only [keyBlock, if_pos h]

theorem zeros_append_zeros (m n : Nat) : zeros m ++ zeros n = zeros (m + n) := List.replicate_append_replicate

/-- Zeros after a key, up to the block, make the same block (R197). -/
theorem keyBlock_append_zeros {n : Nat} (h : key.length + n ≤ alg.blockLen) :
    keyBlock alg (key ++ zeros n) = keyBlock alg key := by
  have hlen : (key ++ zeros n).length = key.length + n := by rw [List.length_append, length_zeros]
  have hfill : n + (alg.blockLen - (key.length + n)) = alg.blockLen - key.length := by omega
  rw [keyBlock_of_le (hlen.trans_le h), keyBlock_of_le ((Nat.le_add_right _ n).trans h), hlen, List.append_assoc,
    zeros_append_zeros, hfill]

end

/-! ## The nested hash -/

/-- A string exclusive-ored with one repeated byte, byte by byte. -/
theorem xorBytes_replicate (b : Bytes) (c : Byte) : xorBytes b (List.replicate b.length c) = b.map (· ^^^ c) := by
  induction b with
  | nil => rfl
  | cons x b ih => exact congrArg ((x ^^^ c) :: ·) ih

/-- HMAC is the nested hash over the two paddings of the key block (R195). -/
theorem hmac_eq_nested (alg : HashAlg) (key msg : Bytes) :
    hmac alg key msg =
      hashOf alg (xorBytes (keyBlock alg key) (List.replicate alg.blockLen 0x5c) ++
        hashOf alg (xorBytes (keyBlock alg key) (List.replicate alg.blockLen 0x36) ++ msg)) := by
  rw [← length_keyBlock alg key, xorBytes_replicate, xorBytes_replicate, hmac, hmacBlock]

/-- Keys with the same block give the same tags (R195). -/
theorem hmac_congr_keyBlock {alg : HashAlg} {key key' : Bytes} (h : keyBlock alg key = keyBlock alg key')
    (msg : Bytes) : hmac alg key msg = hmac alg key' msg :=
  congrArg (hmacBlock alg · msg) h

/-- Settles O45: the laws of the keys are those of `keyBlock`, and HMAC sees the key through its block alone. -/
theorem hmacKeys : Obligations.HmacKeys := fun alg key msg =>
  ⟨length_hmac alg key msg, length_keyBlock alg key,
    fun hlong => hmac_congr_keyBlock (keyBlock_hashOf hlong).symm msg,
    fun _ hfits => hmac_congr_keyBlock (keyBlock_append_zeros hfits) msg, hmac_eq_nested alg key msg⟩

/-! ## HM.MAC -/

/-- The ids of no algorithm (R180). -/
theorem hashAlgOf_eq_none {id : Nat} (h : id = 0 ∨ 4 < id) : hashAlgOf id = none := by
  unfold hashAlgOf
  split
  case h_5 => rfl
  all_goals omega

section
variable {s : State} {rd ra rb : Reg} {imm : Byte}

theorem pairsOk_hmMac : (Instr.hmMac rd ra rb imm).pairsOk = true ↔ ra ≠ 15 ∧ rb ≠ 15 := by
  simp [Instr.pairsOk, Instr.pairFields, Reg.pairOk]

/-- All that `HM.MAC` does with an id of no algorithm (R199). -/
theorem exec_hmMac_of_unsupported (hpairs : ra ≠ 15 ∧ rb ≠ 15) (halg : hashAlgOf imm.toNat = none) :
    exec (.hmMac rd ra rb imm) s = raise .argument (encode (.hmMac rd ra rb imm)) s := by
  change execHmMac rd ra rb imm s = _
  simp only [execHmMac, checked_cons, checked_nil, pairCheck, pairsOk_hmMac.2 hpairs, halg, if_true]

/-- All that `HM.MAC` does with the id of an algorithm: its checks of ranges in their order, then its effect (R63,
R199). -/
theorem exec_hmMac_eq {alg : HashAlg} (hpairs : ra ≠ 15 ∧ rb ≠ 15) (halg : hashAlgOf imm.toNat = some alg) :
    exec (.hmMac rd ra rb imm) s =
      if s.admits (s.buf ra) = true ∧ s.admits (s.buf rb) = true ∧ s.admits (s.dest rd alg.hLen) = true then
        if (s.dest rd alg.hLen).overlaps (s.buf ra) = false ∧ (s.dest rd alg.hLen).overlaps (s.buf rb) = false then
          retire (s.store (s.num rd) (hmac alg (s.load (s.buf ra)) (s.load (s.buf rb))))
        else raise .address (encode (.hmMac rd ra rb imm)) s
      else raise .address (encode (.hmMac rd ra rb imm)) s := by
  change execHmMac rd ra rb imm s = _
  simp only [execHmMac, checked_cons, checked_nil, pairCheck, needAddress, pairsOk_hmMac.2 hpairs, halg,
    Bool.and_eq_true, Bool.not_eq_true', and_assoc, if_true]
  rfl

end

/-- Settles O44: the pairs are `runWord`'s, and each other clause is `exec_hmMac_of_unsupported` or one branch of
`exec_hmMac_eq`. -/
theorem hmMacWritesTag : Obligations.HmMacWritesTag := by
  intro rd ra rb imm s
  refine ⟨rfl, fun hpair => ?pair,
    fun hra hrb hid => exec_hmMac_of_unsupported ⟨hra, hrb⟩ (hashAlgOf_eq_none hid), fun alg hra hrb hid => ?supported⟩
  case pair =>
    refine runWord_encode_of_pairsOk_false (Bool.eq_false_iff.2 fun h => ?_) s
    obtain ⟨hra, hrb⟩ := pairsOk_hmMac.1 h
    exact hpair.elim hra hrb
  case supported =>
    have halg : hashAlgOf imm.toNat = some alg := hid ▸ hashAlgOf_number alg
    have hexec := exec_hmMac_eq (s := s) (rd := rd) ⟨hra, hrb⟩ halg
    exact ⟨fun hadm => hexec.trans (if_neg hadm),
      fun hadm hapart => hexec.trans ((if_pos hadm).trans (if_neg hapart)), fun hadm hapart hwf =>
      ⟨_, hexec.trans ((if_pos hadm).trans (if_pos hapart)), rfl, length_hmac alg _ _, Memory.write_stored hwf _ _⟩⟩

end Sys2Proof.Machine
end

section
/-! PROOF. PBKDF2: the derived block, KD.INIT and KD.GET: their faults in order, the instance and the bytes of its
stream (44_pbkdf2.md R210 to R213). -/

namespace Sys2Proof.Machine

open Sys2Proof

/-! ## The derived block -/

/-- The rounds fold the iterated HMACs of `u` into `t`, in order (R210). -/
theorem deriveRounds_eq_foldl (alg : HashAlg) (k0 : Bytes) (n : Nat) (u t : Bytes) :
    deriveRounds alg k0 n u t =
      (List.range n).foldl (fun t j => xorBytes t ((hmacBlock alg k0)^[j + 1] u)) t := by
  induction n generalizing u t with
  | zero => rfl
  | succ n ih =>
    rw [deriveRounds, ih, List.range_succ_eq_map, List.foldl_cons, List.foldl_map]
    rfl

/-- Settles O47: the rounds are those of `deriveRounds_eq_foldl`, from the HMAC over the salt and the block index. -/
theorem derivedBlockIsXor : Obligations.DerivedBlockIsXor := fun alg k0 salt iter c _ =>
  ⟨deriveRounds_eq_foldl alg k0 (iter - 1) _ _, length_deriveBlock alg k0 salt iter c⟩

/-! ## KD.INIT -/

/-- Every id from 1 to 4 is that of an algorithm (R180). -/
theorem exists_number_eq {id : Nat} (hlow : 1 ≤ id) (hhigh : id ≤ 4) : ∃ alg : HashAlg, id = alg.number := by
  interval_cases id
  exacts [⟨.sha1, rfl⟩, ⟨.sha256, rfl⟩, ⟨.sha384, rfl⟩, ⟨.sha512, rfl⟩]

section
variable {s : State} {ra rb rc : Reg} {imm : Byte}

/-- `KD.INIT` with an id of no algorithm (R212). -/
theorem exec_kdInit_of_unsupported (hpairs : ra ≠ 15 ∧ rb ≠ 15) (halg : hashAlgOf imm.toNat = none) :
    exec (.kdInit ra rb rc imm) s = raise .argument (encode (.kdInit ra rb rc imm)) s := by
  change execKdInit ra rb rc imm s = _
  simp only [execKdInit, checked_cons, checked_nil, pairCheck, pairsOk_kdInit.2 hpairs, halg, if_true]

/-- `KD.INIT` with an iteration count or a salt length out of range (R212). -/
theorem exec_kdInit_of_bad_argument {alg : HashAlg} (hpairs : ra ≠ 15 ∧ rb ≠ 15) (halg : imm.toNat = alg.number)
    (hargs : ¬ (0 < (s.reg rc).toInt ∧ 8 ≤ (s.buf rb).len ∧ (s.buf rb).len ≤ kdSaltMax)) :
    exec (.kdInit ra rb rc imm) s = raise .argument (encode (.kdInit ra rb rc imm)) s := by
  change execKdInit ra rb rc imm s = _
  simp only [execKdInit, checked_cons, checked_nil, pairCheck, needArgument, pairsOk_kdInit.2 hpairs, halg,
    hashAlgOf_number, Bool.and_eq_true, decide_eq_true_eq, and_assoc, if_true, if_neg hargs]

/-- `KD.INIT` with a password or a salt outside BUF (R212). -/
theorem exec_kdInit_of_not_admitted {alg : HashAlg} (hpairs : ra ≠ 15 ∧ rb ≠ 15) (halg : imm.toNat = alg.number)
    (hargs : 0 < (s.reg rc).toInt ∧ 8 ≤ (s.buf rb).len ∧ (s.buf rb).len ≤ kdSaltMax)
    (hadm : ¬ (s.admits (s.buf ra) = true ∧ s.admits (s.buf rb) = true)) :
    exec (.kdInit ra rb rc imm) s = raise .address (encode (.kdInit ra rb rc imm)) s := by
  change execKdInit ra rb rc imm s = _
  simp only [execKdInit, checked_cons, checked_nil, pairCheck, needArgument, needAddress, pairsOk_kdInit.2 hpairs, halg,
    hashAlgOf_number, Bool.and_eq_true, decide_eq_true_eq, and_assoc, if_true, if_pos hargs, if_neg hadm]

end

/-- Settles O48: each clause is one lemma about `KD.INIT`; the instance is that of `kdStart_inv`. -/
theorem kdInitStarts : Obligations.KdInitStarts := by
  intro ra rb rc imm s
  refine ⟨rfl, fun hpair => ?pair, fun hra hrb hacc => ?argument, fun hra hrb hacc hadm => ?address,
    fun hra hrb hacc hadm => ?starts⟩
  case pair =>
    refine runWord_encode_of_pairsOk_false (Bool.eq_false_iff.2 fun h => ?_) s
    obtain ⟨hra, hrb⟩ := pairsOk_kdInit.1 h
    exact hpair.elim hra hrb
  case argument =>
    by_cases hid : 1 ≤ imm.toNat ∧ imm.toNat ≤ 4
    · obtain ⟨hlow, hhigh⟩ := hid
      obtain ⟨alg, halg⟩ := exists_number_eq hlow hhigh
      exact exec_kdInit_of_bad_argument ⟨hra, hrb⟩ halg fun hargs => hacc ⟨hlow, hhigh, hargs⟩
    · exact exec_kdInit_of_unsupported ⟨hra, hrb⟩ (hashAlgOf_eq_none (by omega))
  case address =>
    obtain ⟨hlow, hhigh, hargs⟩ := hacc
    obtain ⟨alg, halg⟩ := exists_number_eq hlow hhigh
    exact exec_kdInit_of_not_admitted ⟨hra, hrb⟩ halg hargs hadm
  case starts =>
    obtain ⟨hlow, hhigh, hiter, hmin, hmax⟩ := hacc
    obtain ⟨hpwd, hsalt⟩ := hadm
    obtain ⟨alg, halg⟩ := exists_number_eq hlow hhigh
    have hinv := kdStart_inv alg (s.load (s.buf ra)) (salt := s.load (s.buf rb)) (by
      rw [State.length_load]
      exact ⟨hmin, hmax⟩) hiter
    refine ⟨_, _, exec_kdInit_of_accepted hra hrb halg hiter hmin hmax hpwd hsalt, rfl, hinv, halg.symm, rfl, rfl, rfl,
      rfl, rfl, rfl, ?handedOut⟩
    case handedOut => simp [KdInstance.handedOut, kdStart]

/-! ## The stream -/

/-- Derived blocks in a row: `m` of them, then the `n` that follow (R211). -/
theorem deriveBlocks_add (alg : HashAlg) (k0 salt : Bytes) (iter m n : Nat) (c : Word) :
    deriveBlocks alg k0 salt iter (m + n) c =
      deriveBlocks alg k0 salt iter m c ++ deriveBlocks alg k0 salt iter n (c + BitVec.ofNat 32 m) := by
  induction m generalizing c with
  | zero => simp [deriveBlocks]
  | succ m ih =>
    have hindex : c + 1 + BitVec.ofNat 32 m = c + BitVec.ofNat 32 (m + 1) := by
      rw [Nat.add_comm m 1, BitVec.ofNat_add, BitVec.add_assoc]
      rfl
    rw [Nat.add_right_comm, deriveBlocks, ih, hindex, deriveBlocks, List.append_assoc]

section
variable {k : KdInstance}

/-- After the first block, what is handed out is the blocks before the last one and `pos` bytes of it (R211). -/
theorem handedOut_of_blk {b : Nat} (h : k.blk.toNat = b + 1) : k.handedOut = k.alg.hLen * b + k.pos := by
  rw [KdInstance.handedOut, h, Nat.succ_mul, Nat.mul_comm]
  omega

/-- What the stream holds past the bytes handed out: the rest of the last block, then the blocks after it (R211). -/
theorem drop_handedOut_stream (h : k.Inv) (need : Nat) :
    (k.stream (k.blk.toNat + need)).drop k.handedOut =
      k.dbuf.drop k.pos ++ deriveBlocks k.alg k.k0 k.salt k.iter need (k.blk + 1) := by
  cases hblk : k.blk.toNat with
  | zero =>
    have hzero : k.blk = 0 := BitVec.eq_of_toNat_eq hblk
    have hout : k.handedOut = 0 := by simp [KdInstance.handedOut, hblk, h.posRange]
    have hempty : k.dbuf.drop k.pos = [] := List.drop_eq_nil_of_le (by rw [h.fresh hzero, h.bufferLength])
    rw [hout, hempty, hzero, Nat.zero_add]
    rfl
  | succ b =>
    have hlast : (1 : Word) + BitVec.ofNat 32 b = k.blk :=
      calc (1 : Word) + BitVec.ofNat 32 b
          = BitVec.ofNat 32 (b + 1) := by rw [BitVec.add_comm, BitVec.ofNat_add]; rfl
        _ = k.blk := by rw [← hblk, BitVec.ofNat_toNat, BitVec.setWidth_eq]
    have hbuf : deriveBlock k.alg k.k0 k.salt k.iter k.blk = k.dbuf :=
      (h.buffered fun hz => by simp [hz] at hblk).symm
    have hpos : k.pos ≤ k.dbuf.length := h.posRange.trans_eq h.bufferLength.symm
    rw [handedOut_of_blk hblk, KdInstance.stream, Nat.add_assoc, deriveBlocks_add, hlast, Nat.add_comm 1 need,
      deriveBlocks, hbuf, ← length_deriveBlocks k.alg k.k0 k.salt k.iter b 1, List.drop_length_add_append,
      List.drop_append_of_le_length hpos]

/-! ## What `GetBytes` leaves -/

/-- `GetBytes` moves the last block, its index and the offset alone (R213). -/
theorem kdTake_frame (k : KdInstance) (need n : Nat) :
    (kdTake k need n).2 =
      { k with blk := (kdTake k need n).2.blk, dbuf := (kdTake k need n).2.dbuf, pos := (kdTake k need n).2.pos } := by
  induction need generalizing k n with
  | zero => rfl
  | succ need ih => exact ih (kdRefill { k with pos := k.pos + min n (kdAvail k) }) (n - min n (kdAvail k))

/-- `GetBytes` derives the blocks it needs and no more (R213). -/
theorem toNat_blk_kdTake {need : Nat} (hindex : k.blk.toNat + need ≤ 0xFFFFFFFF) (n : Nat) :
    (kdTake k need n).2.blk.toNat = k.blk.toNat + need := by
  induction need generalizing k n with
  | zero => rfl
  | succ need ih =>
    have hnext : (kdRefill { k with pos := k.pos + min n (kdAvail k) }).blk.toNat = k.blk.toNat + 1 :=
      toNat_blk_kdRefill (show k.blk.toNat + 1 < 2 ^ 32 by omega)
    rw [kdTake, ih (by rw [hnext]; omega), hnext, Nat.add_assoc, Nat.add_comm 1 need]

/-- After as many blocks as cover the request and no more, the place in the stream is `n` bytes on (R211, R213). -/
theorem pos_kdTake {need n : Nat} (hpos : k.pos ≤ k.alg.hLen) (henough : n ≤ kdAvail k + k.alg.hLen * need)
    (hneeded : need ≠ 0 → kdAvail k + k.alg.hLen * need ≤ n + k.alg.hLen) :
    (kdTake k need n).2.pos + k.alg.hLen * need = k.pos + n := by
  induction need generalizing k n with
  | zero =>
    change k.pos + min n (kdAvail k) + _ = _
    rw [Nat.mul_zero] at henough ⊢
    omega
  | succ need ih =>
    rw [Nat.mul_succ] at henough hneeded ⊢
    have hall : kdAvail k ≤ n := by omega
    have havail : k.pos + kdAvail k = k.alg.hLen := Nat.add_sub_of_le hpos
    have hrest := ih (k := kdRefill { k with pos := k.pos + min n (kdAvail k) }) (n := n - min n (kdAvail k))
      (Nat.zero_le _)
      (show n - min n (kdAvail k) ≤ k.alg.hLen + k.alg.hLen * need by omega)
      (fun _ => show k.alg.hLen + k.alg.hLen * need ≤ n - min n (kdAvail k) + k.alg.hLen by omega)
    change (kdTake k (need + 1) n).2.pos + k.alg.hLen * need = 0 + (n - min n (kdAvail k)) at hrest
    omega

end

section
variable {k : KdInstance} (n : Nat)

/-- The blocks asked for and what is left of the last one cover the request (R213). -/
theorem le_avail_add_kdNeed : n ≤ kdAvail k + k.alg.hLen * kdNeed k n := by
  rw [kdNeed]
  split
  next hn => omega
  next =>
    have hcover := (ceilDiv_le_iff (n := n - kdAvail k) k.alg.hLen_pos).1 le_rfl
    omega

/-- One block fewer would not (R213). -/
theorem avail_add_kdNeed_le (h : kdNeed k n ≠ 0) : kdAvail k + k.alg.hLen * kdNeed k n ≤ n + k.alg.hLen := by
  rw [kdNeed] at h ⊢
  split at h
  next => exact absurd rfl h
  next hn =>
    have hblocks : k.alg.hLen * ceilDiv (n - kdAvail k) k.alg.hLen ≤ n - kdAvail k + k.alg.hLen - 1 :=
      Nat.mul_div_le _ _
    rw [if_neg hn]
    omega

variable (h : k.Inv)
include h

/-- `GetBytes` hands out the next bytes of the stream (R211, R213). -/
theorem kdTake_eq_slice (need : Nat) :
    (kdTake k need n).1 = slice (k.stream (k.blk.toNat + need)) k.handedOut (k.handedOut + n) := by
  rw [slice, drop_handedOut_stream h, Nat.add_sub_cancel_left, kdTake_eq_take h.bufferLength]

/-- `GetBytes` hands out as many bytes as it is asked for (R213). -/
theorem length_kdTake_kdNeed : (kdTake k (kdNeed k n) n).1.length = n := by
  rw [kdTake_eq_take h.bufferLength, List.length_take, List.length_append, length_leftover h.bufferLength,
    length_deriveBlocks, min_eq_left (le_avail_add_kdNeed n)]

/-- The bytes handed out are counted (R211, R213). -/
theorem handedOut_kdTake (hindex : k.blk.toNat + kdNeed k n ≤ 0xFFFFFFFF) :
    (kdTake k (kdNeed k n) n).2.handedOut = k.handedOut + n := by
  have hpos := pos_kdTake h.posRange (le_avail_add_kdNeed n) (avail_add_kdNeed_le n)
  have hstart : k.alg.hLen ≤ k.blk.toNat * k.alg.hLen + k.pos := by
    by_cases hz : k.blk = 0
    · exact (h.fresh hz).ge.trans (Nat.le_add_left _ _)
    · have := Nat.le_mul_of_pos_left k.alg.hLen (Nat.pos_of_ne_zero fun ht => hz (BitVec.eq_of_toNat_eq ht))
      omega
  have halg : (kdTake k (kdNeed k n) n).2.alg = k.alg := by rw [kdTake_frame]
  rw [KdInstance.handedOut, halg, toNat_blk_kdTake hindex, KdInstance.handedOut, Nat.add_mul,
    Nat.mul_comm (kdNeed k n)]
  omega

end

/-! ## KD.GET -/

section
variable {s : State} {rd ra : Reg}

/-- `KD.GET` without an instance (R213). -/
theorem exec_kdGet_of_unavailable (h : s.kd.disposed = true ∨ s.kd.inst = none) :
    exec (.kdGet rd ra) s = raise .state (encode (.kdGet rd ra)) s := by
  change execKdGet rd ra s = _
  simp only [execKdGet, checked_cons, checked_nil, needState]
  rcases h with h | h <;> simp [h]

variable {k : KdInstance} (hlive : s.kd.disposed = false) (hinst : s.kd.inst = some k)
include hlive hinst

/-- `KD.GET` past the last block index (R213). -/
theorem exec_kdGet_of_exhausted (hindex : 0xFFFFFFFF < k.blk.toNat + kdNeed k (s.num ra)) :
    exec (.kdGet rd ra) s = raise .argument (encode (.kdGet rd ra)) s := by
  change execKdGet rd ra s = _
  simp [execKdGet, needState, needArgument, hlive, hinst, hindex]

/-- `KD.GET` to a range outside BUF (R213). -/
theorem exec_kdGet_of_not_admitted (hindex : k.blk.toNat + kdNeed k (s.num ra) ≤ 0xFFFFFFFF)
    (hdest : s.admits (s.dest rd (s.num ra)) = false) :
    exec (.kdGet rd ra) s = raise .address (encode (.kdGet rd ra)) s := by
  change execKdGet rd ra s = _
  simp [execKdGet, needState, needArgument, needAddress, hlive, hinst, hindex, hdest]

end

/-- Settles O49: the faults are the lemmas about `KD.GET`; the bytes are those of `kdTake_eq_slice`, in a place that
`handedOut_kdTake` keeps. -/
theorem kdGetWritesStream : Obligations.KdGetWritesStream := by
  intro rd ra s
  refine ⟨formatR_rd_ra .kdGet ra rd 0, exec_kdGet_of_unavailable, fun k hlive hinst hinv =>
    ⟨exec_kdGet_of_exhausted hlive hinst, exec_kdGet_of_not_admitted hlive hinst, fun hindex hdest hwf => ?writes⟩⟩
  case writes =>
    have hkd : s.kd = ⟨some k, false⟩ := by rw [← hinst, ← hlive]
    have hbytes := kdTake_eq_slice (s.num ra) hinv (kdNeed k (s.num ra))
    have hcount := length_kdTake_kdNeed (s.num ra) hinv
    have hstored := Memory.write_stored hwf (s.num rd) (kdTake k (kdNeed k (s.num ra)) (s.num ra)).1
    rw [hbytes] at hcount
    refine ⟨_, _, exec_kdGet_of_accepted hkd hindex hdest, rfl, kdTake_frame k _ _, kdTake_inv hinv _ _ hindex,
      toNat_blk_kdTake hindex _, handedOut_kdTake _ hinv hindex, hcount, ?_⟩
    exact hbytes ▸ hstored

end Sys2Proof.Machine
end

section
/-! PROOF. The field of the block cipher, the matrices of the column mix, and the S-box (45_aes_cbc.md R231, R232,
R234). -/

namespace Sys2Proof.Machine

open Sys2Proof

/-! ## The field -/

theorem ite_bne_eq_xor (p q : Bool) (a : Byte) :
    (if p ^^ q then a else 0) = (if p then a else 0) ^^^ (if q then a else 0) := by
  cases p <;> cases q <;> simp

/-- `xtime` is a shift and, for the bit shifted out, the modulus (R231). -/
theorem xtime_eq_shift_xor (a : Byte) : xtime a = a <<< 1 ^^^ if a.getLsbD 7 then 0x1B else 0 := by
  rw [xtime]
  split
  · rfl
  · rw [xor_zero]

theorem xtime_xor (a b : Byte) : xtime (a ^^^ b) = xtime a ^^^ xtime b := by
  simp only [xtime_eq_shift_xor, BitVec.getLsbD_xor, BitVec.shiftLeft_xor_distrib, ite_bne_eq_xor]
  ac_rfl

/-- The sum is additive in the factor that is multiplied up. -/
theorem gfSum_xor_left (k : Byte) (n i : Nat) (a b : Byte) :
    gfSum k n i (a ^^^ b) = gfSum k n i a ^^^ gfSum k n i b := by
  induction n generalizing i a b with
  | zero => exact (xor_zero _).symm
  | succ n ih =>
    rw [gfSum, gfSum, gfSum, xtime_xor, ih]
    split
    · ac_rfl
    · simp only [zero_xor]

/-- The sum is additive in the factor whose bits are read. -/
theorem gfSum_xor_right (j k : Byte) (n i : Nat) (a : Byte) :
    gfSum (j ^^^ k) n i a = gfSum j n i a ^^^ gfSum k n i a := by
  induction n generalizing i a with
  | zero => exact (xor_zero _).symm
  | succ n ih =>
    rw [gfSum, gfSum, gfSum, BitVec.getLsbD_xor, ite_bne_eq_xor, ih]
    ac_rfl

theorem gfMul_xor_left (a b k : Byte) : gfMul (a ^^^ b) k = gfMul a k ^^^ gfMul b k := gfSum_xor_left k 8 0 a b

theorem gfMul_xor_right (a j k : Byte) : gfMul a (j ^^^ k) = gfMul a j ^^^ gfMul a k := gfSum_xor_right j k 8 0 a

theorem gfMul_zero_right (a : Byte) : gfMul a 0 = 0 := by simp [gfMul, gfSum]

theorem gfMul_one_right (a : Byte) : gfMul a 1 = a := by simp [gfMul, gfSum]

theorem xtime_gfSum (k : Byte) (n i : Nat) (a : Byte) : xtime (gfSum k n i a) = gfSum k n i (xtime a) := by
  induction n generalizing i a with
  | zero => simp [gfSum, xtime]
  | succ n ih =>
    rw [gfSum, gfSum, xtime_xor, ih]
    split <;> rfl

/-- The sum over the bits of a shifted byte is the sum over those of the byte, multiplied up once more. -/
theorem gfSum_shiftLeft (k : Byte) {n i : Nat} (h : i + n < 8) (a : Byte) :
    gfSum (k <<< 1) n (i + 1) a = gfSum k n i a := by
  induction n generalizing i a with
  | zero => rfl
  | succ n ih =>
    have hbit : (k <<< 1).getLsbD (i + 1) = k.getLsbD i := by
      simp [show i + 1 < 8 by omega, BitVec.getLsbD_eq_getElem (show i < 8 by omega)]
    rw [gfSum, gfSum, hbit, ih (by omega)]

/-- The modulus: `x^8` is `x^4 + x^3 + x + 1`, which is `0x1B` (R231). -/
theorem iterate_xtime_eight (a : Byte) : xtime^[8] a = gfMul a 0x1B := by
  revert a
  decide

/-- A product with the top bit of its second factor split off. -/
theorem gfMul_eq_split (a k : Byte) :
    gfMul a k = gfSum k 7 0 a ^^^ if k.getLsbD 7 then xtime^[7] a else 0 := by
  simp [gfMul, gfSum, BitVec.xor_assoc]

theorem gfMul_shiftLeft (a k : Byte) : gfMul a (k <<< 1) = gfSum k 7 0 (xtime a) := by
  calc gfMul a (k <<< 1)
      = (if (k <<< 1).getLsbD 0 then a else 0) ^^^ gfSum (k <<< 1) 7 1 (xtime a) := rfl
    _ = gfSum k 7 0 (xtime a) := by simp [gfSum_shiftLeft]

/-- A factor `x` can be taken out of a product (R231). -/
theorem gfMul_xtime (a k : Byte) : gfMul a (xtime k) = xtime (gfMul a k) := by
  have htop : gfMul a (if k.getLsbD 7 then 0x1B else 0) = if k.getLsbD 7 then xtime^[7] (xtime a) else 0 := by
    split
    · exact (iterate_xtime_eight a).symm
    · exact gfMul_zero_right a
  calc gfMul a (xtime k)
      = gfMul a (k <<< 1 ^^^ if k.getLsbD 7 then 0x1B else 0) := by rw [xtime_eq_shift_xor]
    _ = gfMul (xtime a) k := by rw [gfMul_xor_right, gfMul_shiftLeft, htop, ← gfMul_eq_split]
    _ = xtime (gfMul a k) := (xtime_gfSum k 8 0 a).symm

theorem gfMul_gfSum (a j k : Byte) (n i : Nat) : gfMul a (gfSum k n i j) = gfSum k n i (gfMul a j) := by
  induction n generalizing i j with
  | zero => exact gfMul_zero_right a
  | succ n ih =>
    rw [gfSum, gfSum, gfMul_xor_right, ih, gfMul_xtime]
    split
    · rfl
    · rw [gfMul_zero_right]

/-- Multiplication in the field is associative (R231). -/
theorem gfMul_assoc (a j k : Byte) : gfMul (gfMul a j) k = gfMul a (gfMul j k) := (gfMul_gfSum a j k 8 0).symm

/-! ## MixColumns -/

/-- Two circulant matrices one after the other are their product, whose rows follow from its first (R234). -/
theorem mixColumn_mixColumn (j0 j1 j2 j3 k0 k1 k2 k3 : Byte) (a : Bytes) :
    mixColumn k0 k1 k2 k3 (mixColumn j0 j1 j2 j3 a) =
      mixColumn (gfMul j0 k0 ^^^ gfMul j3 k1 ^^^ gfMul j2 k2 ^^^ gfMul j1 k3)
        (gfMul j1 k0 ^^^ gfMul j0 k1 ^^^ gfMul j3 k2 ^^^ gfMul j2 k3)
        (gfMul j2 k0 ^^^ gfMul j1 k1 ^^^ gfMul j0 k2 ^^^ gfMul j3 k3)
        (gfMul j3 k0 ^^^ gfMul j2 k1 ^^^ gfMul j1 k2 ^^^ gfMul j0 k3) a := by
  simp only [mixColumn, List.getD_cons_zero, List.getD_cons_succ, gfMul_xor_left, gfMul_xor_right, gfMul_assoc,
    List.cons.injEq, and_true]
  refine ⟨?_, ?_, ?_, ?_⟩ <;> ac_rfl

/-- The unit matrix leaves a column as it is. -/
theorem mixColumn_one {a : Bytes} (h : a.length = 4) : mixColumn 1 0 0 0 a = a := by
  obtain ⟨a0, a1, a2, a3, rfl⟩ := List.length_eq_four.1 h
  simp only [mixColumn, List.getD_cons_zero, List.getD_cons_succ, gfMul_one_right, gfMul_zero_right, xor_zero,
    zero_xor]

/-- The matrix of `InvMixColumns` is the inverse of that of `MixColumns`: their product is the unit matrix (R234). -/
theorem mixColumn_inverse {a : Bytes} (h : a.length = 4) :
    mixColumn 0x0e 0x0b 0x0d 0x09 (mixColumn 0x02 0x03 0x01 0x01 a) = a := by
  calc mixColumn 0x0e 0x0b 0x0d 0x09 (mixColumn 0x02 0x03 0x01 0x01 a)
      = mixColumn 1 0 0 0 a := mixColumn_mixColumn _ _ _ _ _ _ _ _ a
    _ = a := mixColumn_one h

/-! ## The S-box -/

/-- The affine map of the S-box, undone (R232). -/
def invAffine (s : Byte) : Byte := s.rotateLeft 1 ^^^ s.rotateLeft 3 ^^^ s.rotateLeft 6 ^^^ 0x05

theorem affine_invAffine (s : Byte) :
    s = invAffine s ^^^ (invAffine s).rotateLeft 1 ^^^ (invAffine s).rotateLeft 2 ^^^ (invAffine s).rotateLeft 3 ^^^
      (invAffine s).rotateLeft 4 ^^^ 0x63 := by
  revert s
  decide

/-- The inverse in the field, 0 for 0, as the S-box table has it under the affine map (R232). -/
def gfInv (a : Byte) : Byte := invAffine (sbox a)

theorem gfInv_zero : gfInv 0 = 0 := by decide

theorem gfMul_gfInv {a : Byte} (h : a ≠ 0) : gfMul a (gfInv a) = 1 := by
  revert a
  decide

theorem gfInv_eq_zero_iff {a : Byte} : gfInv a = 0 ↔ a = 0 := by
  refine ⟨fun hinv => by_contra fun h => ?_, fun h => h ▸ gfInv_zero⟩
  have hone := gfMul_gfInv h
  rw [hinv, gfMul_zero_right] at hone
  exact absurd hone (by decide)

/-- A byte is read back from its inverse (R231). -/
theorem gfMul_one_gfInv_gfInv {a : Byte} (h : a ≠ 0) : gfMul 1 (gfInv (gfInv a)) = a := by
  rw [← gfMul_gfInv h, gfMul_assoc, gfMul_gfInv (mt gfInv_eq_zero_iff.1 h), gfMul_one_right]

theorem gfInv_injective : Function.Injective gfInv := fun a b h => by
  have hzero : a = 0 ↔ b = 0 := by rw [← gfInv_eq_zero_iff, h, gfInv_eq_zero_iff]
  by_cases ha : a = 0
  · rw [ha, hzero.1 ha]
  · rw [← gfMul_one_gfInv_gfInv ha, h, gfMul_one_gfInv_gfInv (mt hzero.2 ha)]

theorem sbox_injective : Function.Injective sbox := fun _ _ h => gfInv_injective (congrArg invAffine h)

/-- The rows of the table, one after the other, are the S-box of every byte in order (R232). -/
theorem flatten_sboxRows : sboxRows.flatten = (List.range 256).map fun i => sbox (BitVec.ofNat 8 i) := by
  decide +kernel

theorem nodup_sboxRows : sboxRows.flatten.Nodup := by
  rw [flatten_sboxRows]
  refine List.Nodup.map_on (fun i hi j hj h => ?_) List.nodup_range
  have hbyte := congrArg BitVec.toNat (sbox_injective h)
  rwa [BitVec.toNat_ofNat, BitVec.toNat_ofNat, Nat.mod_eq_of_lt (List.mem_range.1 hi),
    Nat.mod_eq_of_lt (List.mem_range.1 hj)] at hbyte

/-- The inverse S-box undoes the S-box: no entry stands twice in the table (R232). -/
theorem invSbox_sbox (a : Byte) : invSbox (sbox a) = a := by
  have hlen : a.toNat < sboxRows.flatten.length := by
    simpa only [flatten_sboxRows, List.length_map, List.length_range] using a.isLt
  have hentry : sboxRows.flatten[a.toNat] = sbox a := by
    simp only [flatten_sboxRows, List.getElem_map, List.getElem_range, BitVec.ofNat_toNat, BitVec.setWidth_eq]
  rw [invSbox, ← hentry, nodup_sboxRows.idxOf_getElem, BitVec.ofNat_toNat, BitVec.setWidth_eq]

/-- Settles O51: the inverse is `gfInv`, and the affine map is that of `affine_invAffine`. -/
theorem sboxIsDefinition : Obligations.SboxIsDefinition := fun a => by
  refine ⟨⟨gfInv a, ?inverse, affine_invAffine (sbox a)⟩, invSbox_sbox a⟩
  case inverse =>
    by_cases h : a = 0
    · exact .inl ⟨h, h ▸ gfInv_zero⟩
    · exact .inr ⟨h, gfMul_gfInv h⟩

end Sys2Proof.Machine
end

section
/-! PROOF. The cipher and its inverse (45_aes_cbc.md R233 to R235). -/

namespace Sys2Proof.Machine

open Sys2Proof

/-! ## Strings in blocks -/

/-- Every string of a list has `size` bytes: the words of a key schedule, the columns of a block (R233, R234). -/
def WholeBlocks (size : Nat) (l : List Bytes) : Prop := ∀ t ∈ l, t.length = size

section
variable {size : Nat} {l : List Bytes} (h : WholeBlocks size l)
include h

theorem WholeBlocks.length_getD {i : Nat} (hi : i < l.length) : (l.getD i []).length = size := by
  rw [List.getD_eq_getElem _ _ hi]
  exact h _ (List.getElem_mem hi)

theorem WholeBlocks.concat {t : Bytes} (ht : t.length = size) : WholeBlocks size (l ++ [t]) :=
  List.forall_mem_append.2 ⟨h, List.forall_mem_singleton.2 ht⟩

theorem WholeBlocks.take_drop (m n : Nat) : WholeBlocks size ((l.drop m).take n) :=
  fun t ht => h t (List.mem_of_mem_drop (List.mem_of_mem_take ht))

theorem WholeBlocks.length_flatten : l.flatten.length = size * l.length := by
  induction l with
  | nil => rfl
  | cons t l ih =>
    obtain ⟨ht, hl⟩ := List.forall_mem_cons.1 h
    rw [List.flatten_cons, List.length_append, ht, ih hl, List.length_cons, Nat.mul_succ, Nat.add_comm]

/-- Joined blocks are cut where they were joined. -/
theorem WholeBlocks.blocksOf_flatten : blocksOf size l.length l.flatten = l := by
  induction l with
  | nil => rfl
  | cons t l ih =>
    obtain ⟨ht, hl⟩ := List.forall_mem_cons.1 h
    rw [List.length_cons, blocksOf, List.flatten_cons, List.take_left' ht, List.drop_left' ht, ih hl]

end

/-- The blocks of a string that holds them are whole (R234, R237). -/
theorem wholeBlocks_blocksOf {size count : Nat} {b : Bytes} (hb : size * count ≤ b.length) :
    WholeBlocks size (blocksOf size count b) := by
  induction count generalizing b with
  | zero => exact fun _ ht => absurd ht List.not_mem_nil
  | succ n ih =>
    rw [Nat.mul_succ] at hb
    refine List.forall_mem_cons.2 ⟨?_, ih (by rw [List.length_drop]; omega)⟩
    rw [List.length_take]
    omega

/-- The blocks of a string, joined, are the string. -/
theorem flatten_blocksOf {size count : Nat} {b : Bytes} (hb : b.length = size * count) :
    (blocksOf size count b).flatten = b := by
  induction count generalizing b with
  | zero => exact (List.length_eq_zero_iff.1 hb).symm
  | succ n ih =>
    rw [Nat.mul_succ] at hb
    rw [blocksOf, List.flatten_cons, ih (by rw [List.length_drop]; omega), List.take_append_drop]

theorem length_xorBytes_of {a b : Bytes} {n : Nat} (ha : a.length = n) (hb : b.length = n) :
    (xorBytes a b).length = n := by
  rw [length_xorBytes, ha, hb, min_self]

/-! ## The key schedule -/

@[simp] theorem length_subWord (t : Bytes) : (subWord t).length = t.length := List.length_map _

@[simp] theorem length_rotWord (t : Bytes) : (rotWord t).length = t.length := by
  rw [rotWord, List.length_append, Nat.add_comm, ← List.length_append, List.take_append_drop]

/-- The next words are appended, each a word again (R233). -/
theorem expandWords_whole {n i : Nat} {rc : Byte} {w : List Bytes} (hi : i = w.length) (hpast : 8 ≤ i)
    (h : WholeBlocks 4 w) :
    (expandWords n i rc w).length = w.length + n ∧ WholeBlocks 4 (expandWords n i rc w) := by
  induction n generalizing i rc w with
  | zero => exact ⟨rfl, h⟩
  | succ n ih =>
    have hlast : (w.getD (i - 1) []).length = 4 := h.length_getD (by omega)
    have hold : (w.getD (i - 8) []).length = 4 := h.length_getD (by omega)
    have happend (rc : Byte) {t : Bytes} (ht : t.length = 4) :
        (expandWords n (i + 1) rc (w ++ [t])).length = w.length + (n + 1) ∧
          WholeBlocks 4 (expandWords n (i + 1) rc (w ++ [t])) := by
      have hrest := ih (i := i + 1) (rc := rc) (w := w ++ [t]) (by simp [hi]) (by omega) (h.concat ht)
      rwa [List.length_append, List.length_singleton, Nat.add_assoc, Nat.add_comm 1 n] at hrest
    rw [expandWords]
    split_ifs
    · exact happend _ (length_xorBytes_of hold (length_xorBytes_of (by rw [length_subWord, length_rotWord, hlast]) rfl))
    · exact happend _ (length_xorBytes_of hold (by rw [length_subWord, hlast]))
    · exact happend _ (length_xorBytes_of hold hlast)

theorem keySchedule_whole {key : Bytes} (h : key.length = 32) :
    (keySchedule key).length = 60 ∧ WholeBlocks 4 (keySchedule key) :=
  expandWords_whole (by simp) le_rfl (wholeBlocks_blocksOf h.ge)

/-- A round key is a block (R233). -/
theorem length_roundKey {key : Bytes} (h : key.length = 32) {r : Nat} (hr : r ≤ 14) :
    (roundKey (keySchedule key) r).length = 16 := by
  obtain ⟨hlen, hwhole⟩ := keySchedule_whole h
  rw [roundKey, (hwhole.take_drop (4 * r) 4).length_flatten, List.length_take, List.length_drop, hlen]
  omega

/-! ## The steps of a round, each with its inverse -/

@[simp] theorem length_subBytes (s : Bytes) : (subBytes s).length = s.length := List.length_map _

@[simp] theorem length_shiftRows (s : Bytes) : (shiftRows s).length = 16 := by simp [shiftRows]

theorem invSubBytes_subBytes (s : Bytes) : invSubBytes (subBytes s) = s := by
  simp [invSubBytes, subBytes, Function.comp_def, invSbox_sbox]

theorem getD_shiftRows (s : Bytes) {i : Nat} (hi : i < 16) :
    (shiftRows s).getD i 0 = s.getD (4 * ((i / 4 + i % 4) % 4) + i % 4) 0 := by
  rw [List.getD_eq_getElem _ _ (by simpa using hi)]
  simp [shiftRows]

/-- The inverse row shift moves every byte back to its column (R234). -/
theorem invShiftRows_shiftRows {s : Bytes} (h : s.length = 16) : invShiftRows (shiftRows s) = s := by
  refine List.ext_getElem (by simp [invShiftRows, h]) fun i _ hi => ?_
  have hplace : 4 * ((i / 4 + 4 - i % 4) % 4) + i % 4 < 16 := by omega
  rw [← List.getD_eq_getElem s 0 hi]
  simp only [invShiftRows, List.getElem_map, List.getElem_range, getD_shiftRows s hplace]
  congr 1
  omega

theorem mixedColumns_whole (s : Bytes) : WholeBlocks 4 ((blocksOf 4 4 s).map (mixColumn 0x02 0x03 0x01 0x01)) :=
  List.forall_mem_map.2 fun _ _ => rfl

@[simp] theorem length_mixColumns (s : Bytes) : (mixColumns s).length = 16 := by
  rw [mixColumns, (mixedColumns_whole s).length_flatten, List.length_map, length_blocksOf]

/-- The inverse column mix takes every column back (R234). -/
theorem invMixColumns_mixColumns {s : Bytes} (h : s.length = 16) : invMixColumns (mixColumns s) = s := by
  have hcut := (mixedColumns_whole s).blocksOf_flatten
  rw [List.length_map, length_blocksOf] at hcut
  have hback : ((blocksOf 4 4 s).map (mixColumn 0x02 0x03 0x01 0x01)).map (mixColumn 0x0e 0x0b 0x0d 0x09) =
      blocksOf 4 4 s := by
    rw [List.map_map]
    exact (List.map_congr_left fun t ht => mixColumn_inverse (wholeBlocks_blocksOf h.ge t ht)).trans (List.map_id _)
  rw [invMixColumns, mixColumns, hcut, hback, flatten_blocksOf h]

/-! ## The rounds -/

/-- The inverse cipher's row shift and substitution undo the cipher's, taken in the other order (R235). -/
theorem invSubBytes_invShiftRows {s : Bytes} (h : s.length = 16) :
    invSubBytes (invShiftRows (shiftRows (subBytes s))) = s := by
  rw [invShiftRows_shiftRows (by simpa using h), invSubBytes_subBytes]

section
variable {w : List Bytes} (hw : ∀ r ≤ 14, (roundKey w r).length = 16)

/-- The rounds of the cipher, the last one split off (R235). -/
theorem encRounds_succ (n r : Nat) (s : Bytes) :
    encRounds w (n + 1) r s =
      xorBytes (mixColumns (shiftRows (subBytes (encRounds w n r s)))) (roundKey w (r + n)) := by
  induction n generalizing r s with
  | zero => rfl
  | succ n ih =>
    rw [encRounds, ih, ← encRounds, Nat.add_assoc, Nat.add_comm 1 n]

include hw

theorem length_encRounds {n : Nat} (hn : n ≤ 14) {s : Bytes} (hs : s.length = 16) :
    (encRounds w n 1 s).length = 16 := by
  cases n with
  | zero => exact hs
  | succ n =>
    rw [encRounds_succ]
    exact length_xorBytes_of (length_mixColumns _) (hw _ (by omega))

/-- The inverse rounds take the cipher's rounds off, the last one first (R235). -/
theorem decRounds_encRounds {n : Nat} (hn : n ≤ 14) {s : Bytes} (hs : s.length = 16) :
    decRounds w n (shiftRows (subBytes (encRounds w n 1 s))) = shiftRows (subBytes s) := by
  induction n with
  | zero => rfl
  | succ n ih =>
    have hkey : (roundKey w (n + 1)).length = 16 := hw _ hn
    rw [decRounds, invSubBytes_invShiftRows (length_encRounds hw hn hs), encRounds_succ, Nat.add_comm 1 n,
      xorBytes_xorBytes (by rw [length_mixColumns, hkey]), invMixColumns_mixColumns (length_shiftRows _),
      ih (Nat.le_of_succ_le hn)]

end

theorem length_aesEnc {key : Bytes} (hkey : key.length = 32) (blk : Bytes) : (aesEnc key blk).length = 16 := by
  simp [aesEnc, length_roundKey hkey]

/-- The inverse cipher undoes the cipher (R235). -/
theorem aesDec_aesEnc {key blk : Bytes} (hkey : key.length = 32) (hblk : blk.length = 16) :
    aesDec key (aesEnc key blk) = blk := by
  have hround : ∀ r ≤ 14, (roundKey (keySchedule key) r).length = 16 := fun _ => length_roundKey hkey
  have hstart : (xorBytes blk (roundKey (keySchedule key) 0)).length = 16 :=
    length_xorBytes_of hblk (hround 0 (by decide))
  have hlast : (roundKey (keySchedule key) 14).length = 16 := hround 14 le_rfl
  rw [aesDec, aesEnc, xorBytes_xorBytes (by rw [length_shiftRows, hlast]),
    decRounds_encRounds hround (by decide) hstart, invSubBytes_invShiftRows hstart, xorBytes_xorBytes (by rw [hblk, hround 0 (by decide)])]

/-- Settles O52: both halves are laws of `aesEnc`, the second by taking the rounds off with `decRounds_encRounds`. -/
theorem aesDecryptsItself : Obligations.AesDecryptsItself := fun _ blk hkey hblk =>
  ⟨length_aesEnc hkey blk, aesDec_aesEnc hkey hblk⟩

end Sys2Proof.Machine
end

section
/-! PROOF. The padding of PKCS7 and the CBC chains (45_aes_cbc.md R236, R237). -/

namespace Sys2Proof.Machine

open Sys2Proof

/-! ## PKCS7 -/

/-- How many bytes the padding of a string of `len` bytes has (R236). -/
def pkcsPadLen (len : Nat) : Nat := 16 - len % 16

theorem pkcsPad_eq (data : Bytes) :
    pkcsPad data = data ++ List.replicate (pkcsPadLen data.length) (BitVec.ofNat 8 (pkcsPadLen data.length)) := rfl

theorem pkcsPadLen_pos (len : Nat) : 0 < pkcsPadLen len := by
  rw [pkcsPadLen]
  omega

theorem toNat_pkcsPadLen (len : Nat) : (BitVec.ofNat 8 (pkcsPadLen len)).toNat = pkcsPadLen len := by
  rw [BitVec.toNat_ofNat, pkcsPadLen]
  omega

/-- Padding reaches the next multiple of 16 (R236). -/
theorem length_pkcsPad (data : Bytes) : (pkcsPad data).length = (data.length / 16 + 1) * 16 := by
  rw [pkcsPad_eq, List.length_append, List.length_replicate, pkcsPadLen]
  omega

/-- What `Unpad` accepts: the last byte is a count from 1 to 16, and as many bytes at the end equal it (R236). -/
theorem pkcsUnpad_eq_some_iff {buf data : Bytes} :
    pkcsUnpad buf = some data ↔
      (1 ≤ (buf.getLastD 0).toNat ∧ (buf.getLastD 0).toNat ≤ 16) ∧
        (∀ b ∈ buf.drop (buf.length - (buf.getLastD 0).toNat), b = buf.getLastD 0) ∧
        buf.take (buf.length - (buf.getLastD 0).toNat) = data := by
  simp only [pkcsUnpad, Option.ite_none_left_eq_some, Option.ite_none_right_eq_some, Option.some.injEq, Bool.or_eq_true,
    decide_eq_true_eq, not_or, not_lt, List.all_eq_true, beq_iff_eq]

theorem pkcsUnpad_pkcsPad (data : Bytes) : pkcsUnpad (pkcsPad data) = some data := by
  have hlast : (pkcsPad data).getLastD 0 = BitVec.ofNat 8 (pkcsPadLen data.length) := by
    obtain ⟨n, hn⟩ := Nat.exists_eq_succ_of_ne_zero (pkcsPadLen_pos data.length).ne'
    rw [pkcsPad_eq, hn, List.replicate_succ', ← List.append_assoc, List.getLastD_concat]
  have hplain : (pkcsPad data).length - pkcsPadLen data.length = data.length := by
    rw [pkcsPad_eq, List.length_append, List.length_replicate, Nat.add_sub_cancel]
  rw [pkcsUnpad_eq_some_iff, hlast, toNat_pkcsPadLen, hplain]
  refine ⟨⟨pkcsPadLen_pos _, Nat.sub_le _ _⟩, fun b hb => ?_, List.take_left' rfl⟩
  rw [pkcsPad_eq, List.drop_left' rfl] at hb
  exact List.eq_of_mem_replicate hb

theorem pkcsPad_of_pkcsUnpad {buf data : Bytes} (hne : buf ≠ []) (hwhole : buf.length % 16 = 0)
    (h : pkcsUnpad buf = some data) : pkcsPad data = buf := by
  obtain ⟨⟨hlow, hhigh⟩, hall, rfl⟩ := pkcsUnpad_eq_some_iff.1 h
  have hpos : 0 < buf.length := List.length_pos_of_ne_nil hne
  have hcount : pkcsPadLen (buf.take (buf.length - (buf.getLastD 0).toNat)).length = (buf.getLastD 0).toNat := by
    rw [List.length_take, pkcsPadLen]
    omega
  have htail : buf.drop (buf.length - (buf.getLastD 0).toNat) =
      List.replicate (buf.getLastD 0).toNat (buf.getLastD 0) :=
    List.eq_replicate_iff.2 ⟨by rw [List.length_drop]; omega, hall⟩
  rw [pkcsPad_eq, hcount, BitVec.ofNat_toNat, BitVec.setWidth_eq, ← htail, List.take_append_drop]

/-- Settles O53: the length is `length_pkcsPad`, and each direction is one lemma about `pkcsUnpad`. -/
theorem paddingIsExact : Obligations.PaddingIsExact :=
  ⟨length_pkcsPad, fun _ data hne hwhole =>
    ⟨pkcsPad_of_pkcsUnpad hne hwhole, fun h => h ▸ pkcsUnpad_pkcsPad data⟩⟩

/-! ## CBC -/

section
variable {key prev : Bytes} (hkey : key.length = 32) {ps : List Bytes}
include hkey

theorem length_cbcChain : (cbcChain key prev ps).length = 16 * ps.length := by
  induction ps generalizing prev with
  | nil => rfl
  | cons p ps ih =>
    rw [cbcChain, List.length_append, length_aesEnc hkey, ih, List.length_cons, Nat.mul_succ, Nat.add_comm]

/-- The chain of decryption takes the blocks of the chain of encryption back (R237). -/
theorem cbcUnchain_cbcChain (hprev : prev.length = 16) (hps : WholeBlocks 16 ps) :
    cbcUnchain key prev (blocksOf 16 ps.length (cbcChain key prev ps)) = ps.flatten := by
  induction ps generalizing prev with
  | nil => rfl
  | cons p ps ih =>
    obtain ⟨hp, hps⟩ := List.forall_mem_cons.1 hps
    have hblock : (aesEnc key (xorBytes p prev)).length = 16 := length_aesEnc hkey _
    rw [cbcChain, List.length_cons, blocksOf, List.take_left' hblock, List.drop_left' hblock, cbcUnchain,
      ih hblock hps, aesDec_aesEnc hkey (length_xorBytes_of hp hprev), xorBytes_xorBytes (hp.trans hprev.symm).le,
      List.flatten_cons]

/-- The ciphertext is as long as the padded plaintext (R237). -/
theorem length_cbcEncrypt (iv data : Bytes) : (cbcEncrypt key iv data).length = (data.length / 16 + 1) * 16 := by
  rw [cbcEncrypt, length_cbcChain hkey, length_blocksOf, length_pkcsPad, Nat.mul_div_cancel _ (by decide), Nat.mul_comm]

theorem cbcDecrypt_cbcEncrypt {iv : Bytes} (hiv : iv.length = 16) (data : Bytes) :
    cbcDecrypt key iv (cbcEncrypt key iv data) = some data := by
  have hct := length_cbcEncrypt hkey iv data
  have hblocks : (pkcsPad data).length = 16 * ((pkcsPad data).length / 16) := by
    rw [length_pkcsPad]
    omega
  have hunchain := cbcUnchain_cbcChain hkey hiv (wholeBlocks_blocksOf hblocks.ge)
  rw [length_blocksOf, flatten_blocksOf hblocks] at hunchain
  have hsame : (cbcEncrypt key iv data).length / 16 = (pkcsPad data).length / 16 := by rw [hct, length_pkcsPad]
  rw [cbcDecrypt, if_neg (by simp [hct]), hsame, cbcEncrypt, hunchain, pkcsUnpad_pkcsPad]

end

/-- Settles O54: the chains cancel block by block (`cbcUnchain_cbcChain`), and the padding by `pkcsUnpad_pkcsPad`. -/
theorem cbcRoundTrip : Obligations.CbcRoundTrip := fun _ iv data hkey hiv =>
  ⟨length_cbcEncrypt hkey iv data, cbcDecrypt_cbcEncrypt hkey hiv data⟩

end Sys2Proof.Machine
end

section
/-! PROOF. Which commands draw from the RNG (46_envelope.md R256, 60_exceptions.md R300). -/

namespace Sys2Proof.Machine

open Sys2Proof

/-- A legal write of a CSR leaves all but that CSR and, with `SC_CFG`, the SC unit (R105). -/
theorem csrStore_frame {s u : State} {v : Word} {csr : Csr} (h : csrStore s v csr = some u) :
    u = { s with
      scCfg := u.scCfg, evAlg := u.evAlg, evIter := u.evIter, evSaltsz := u.evSaltsz, evHsaltsz := u.evHsaltsz,
      sc := u.sc } := by
  cases csr with
  | scCfg | evAlg | evSaltsz | evHsaltsz =>
    obtain ⟨_, -, rfl⟩ := Option.map_eq_some_iff.1 h
    rfl
  | evIter =>
    obtain rfl := Option.some.inj h
    rfl
  | id | status | err | errcp | errcmd | cp => cases h

section
variable {s u : State} {i : Instr}

/-- An effect leaves `cp`, which moves on after it (R24). -/
theorem Effect.cp_eq (he : Effect s i u) : u.cp = s.cp := by
  cases he with
  | csrw stored => rw [csrStore_frame stored]
  | evDec => split <;> rfl
  | _ => rfl

/-- `EV.ENC` draws its two salts and the IV (R256). -/
theorem Effect.rngPos_evEnc {rd ra rb rc : Reg} (he : Effect s (.evEnc rd ra rb rc) u) :
    u.rngPos = s.rngPos + s.evSaltsz.toNat + s.evHsaltsz.toNat + 16 := by
  cases he
  rfl

/-- No other command draws (R300). -/
theorem Effect.rngPos_eq (he : Effect s i u) (hne : ∀ rd ra rb rc, i ≠ .evEnc rd ra rb rc) :
    u.rngPos = s.rngPos := by
  cases he with
  | csrw stored => rw [csrStore_frame stored]
  | evEnc => exact absurd rfl (hne _ _ _ _)
  | evDec => split <;> rfl
  | _ => rfl

theorem FaultsFrom.rngPos_eq (hf : FaultsFrom s i u) : u.rngPos = s.rngPos := by cases hf <;> rfl

theorem FaultsFrom.cp_eq (hf : FaultsFrom s i u) : u.cp = s.cp := by cases hf <;> rfl

end

theorem word_add_one_ne (x : Word) : x + 1 ≠ x := by simp

/-- Settles O17: `cp` tells the two ends of a command apart; a fault leaves the read position, and of the effects that
of `EV.ENC` alone moves it. -/
theorem onlyEnvelopeEncodeDraws : Obligations.OnlyEnvelopeEncodeDraws := by
  intro i s t ht
  rcases exec_ends i s with ⟨f, u, hu, he⟩ | ⟨u, hu, he⟩ <;> rw [he] at ht <;> cases ht
  · refine ⟨fun hcp => ?_, fun _ => hu.rngPos_eq⟩
    have hstay : u.cp = s.cp + 1 := hcp
    exact absurd (hstay.symm.trans hu.cp_eq) (word_add_one_ne s.cp)
  · refine ⟨fun _ rd ra rb rc hi => ?_, fun h => ?_⟩
    · subst hi
      exact hu.rngPos_evEnc
    · rcases h with hcp | hne
      · have hmoved : u.cp + 1 = s.cp := hcp
        rw [hu.cp_eq] at hmoved
        exact absurd hmoved (word_add_one_ne s.cp)
      · exact hu.rngPos_eq hne

end Sys2Proof.Machine
end

section
/-! PROOF. The wire format of an envelope (46_envelope.md R250): what `EV.DEC` reads from the bytes that `EV.ENC` wrote,
and the comparison of tags (R263). -/

namespace Sys2Proof.Machine

open Sys2Proof

/-! ## The comparison of tags -/

theorem foldl_or_eq_zero_iff (l : Bytes) (x : Byte) : l.foldl (· ||| ·) x = 0#8 ↔ x = 0#8 ∧ ∀ b ∈ l, b = 0#8 := by
  induction l generalizing x with
  | nil => simp
  | cons b l ih => rw [List.foldl_cons, ih, BitVec.or_eq_zero_iff, List.forall_mem_cons, and_assoc]

/-- Strings of one length differ nowhere exactly when they are equal (R263). -/
theorem xorBytes_all_zero_iff {a b : Bytes} (h : a.length = b.length) : (∀ c ∈ xorBytes a b, c = 0#8) ↔ a = b := by
  induction a generalizing b with
  | nil => simp [xorBytes, List.length_eq_zero_iff.1 h.symm]
  | cons x a ih =>
    cases b with
    | nil => cases h
    | cons y b =>
      have hrest := ih (Nat.succ.inj h)
      rw [xorBytes] at hrest
      rw [xorBytes, List.zipWith_cons_cons, List.forall_mem_cons, hrest, BitVec.xor_eq_zero_iff, List.cons.injEq]

theorem ctEqual_iff {a b : Bytes} (h : a.length = b.length) : ctEqual a b = true ↔ a = b := by
  rw [ctEqual, decide_eq_true_eq]
  exact (foldl_or_eq_zero_iff _ _).trans ((and_iff_right rfl).trans (xorBytes_all_zero_iff h))

/-- Settles O60: the differences or to 0 exactly when each of them is 0. -/
theorem ctEqualIsEquality : Obligations.CtEqualIsEquality := fun _ _ => ctEqual_iff

/-! ## The fields of the header -/

theorem le16_toLe16 (v : Half) : le16 (toLe16 v) = v := by
  rw [le16, toLe16, leNat_toLe, Nat.mod_eq_of_lt (show v.toNat < 256 ^ 2 from v.isLt), BitVec.ofNat_toNat,
    BitVec.setWidth_eq]

theorem le32_toLe32 (v : Word) : le32 (toLe32 v) = v := by
  rw [le32, toLe32, leNat_toLe, Nat.mod_eq_of_lt (show v.toNat < 256 ^ 4 from v.isLt), BitVec.ofNat_toNat,
    BitVec.setWidth_eq]

/-- The header is read back from its own bytes (R250). -/
theorem parseHeader_headerBytes (h : EnvelopeHeader) : parseHeader (headerBytes h) = h :=
  calc parseHeader (headerBytes h)
      = ⟨le16 (toLe16 h.version), le16 (toLe16 h.algId), le32 (toLe32 h.metadataSize), le32 (toLe32 h.iterations),
          le16 (toLe16 h.saltSize), le16 (toLe16 h.hashSaltSize)⟩ := rfl
    _ = h := by simp only [le16_toLe16, le32_toLe32]

/-- The header is read back from an envelope (R250). -/
theorem parseHeader_envelopeBytes (h : EnvelopeHeader) (e : EnvelopeBody) : parseHeader (envelopeBytes h e) = h := by
  rw [← parseHeader_take, envelopeBytes]
  simp only [List.append_assoc]
  rw [List.take_left' (length_headerBytes h), parseHeader_headerBytes]

/-! ## The parts after the header -/

/-- A piece of the first of two strings. -/
theorem slice_append_left {x : Bytes} (y : Bytes) {i j n : Nat} (hx : x.length = n) (hj : j ≤ n) :
    slice (x ++ y) i j = slice x i j := by
  rw [← slice_take (x ++ y) hj, List.take_left' hx]

/-- The piece that the second of two strings is. -/
theorem slice_append_right {x y : Bytes} {i j n : Nat} (hx : x.length = i) (hy : y.length = n) (hj : i + n = j) :
    slice (x ++ y) i j = y := by
  rw [slice, List.drop_left' hx, List.take_of_length_le (by omega)]

/-- The parts of an envelope have the sizes that its header and its algorithm give them (R250). -/
structure EnvelopeBody.Fits (e : EnvelopeBody) (h : EnvelopeHeader) (alg : HashAlg) : Prop where
  salt : e.salt.length = h.saltSize.toNat
  hashSalt : e.hashSalt.length = h.hashSaltSize.toNat
  iv : e.iv.length = 16
  metadata : e.metadata.length = h.metadataSize.toNat
  tag : e.tag.length = alg.hLen

/-- What stands before the tag of an envelope (R250). -/
def envelopeFront (h : EnvelopeHeader) (e : EnvelopeBody) : Bytes :=
  headerBytes h ++ e.salt ++ e.hashSalt ++ e.iv ++ e.metadata

theorem envelopeBytes_eq (h : EnvelopeHeader) (e : EnvelopeBody) :
    envelopeBytes h e = envelopeFront h e ++ e.tag ++ e.ciphertext := rfl

section
variable {h : EnvelopeHeader} {e : EnvelopeBody} {alg : HashAlg} (hfits : e.Fits h alg)
include hfits

theorem EnvelopeBody.Fits.length_front :
    (envelopeFront h e).length = 32 + h.saltSize.toNat + h.hashSaltSize.toNat + h.metadataSize.toNat := by
  simp only [envelopeFront, List.length_append, length_headerBytes, hfits.salt, hfits.hashSalt, hfits.iv,
    hfits.metadata]
  omega

theorem EnvelopeBody.Fits.length_envelopeBytes :
    (envelopeBytes h e).length = h.need alg + e.ciphertext.length := by
  rw [envelopeBytes_eq, List.length_append, List.length_append, hfits.length_front, hfits.tag, EnvelopeHeader.need]

/-- Parts that fit their header are read back from an envelope (R250, R262). -/
theorem EnvelopeBody.Fits.splitEnvelope_envelopeBytes :
    splitEnvelope (envelopeBytes h e) h.saltSize.toNat h.hashSaltSize.toNat h.metadataSize.toNat alg.hLen = e := by
  have hmd := hfits.length_front
  have htag : (envelopeFront h e ++ e.tag).length = _ := (List.length_append.trans (by rw [hmd, hfits.tag]))
  have hsalt : (headerBytes h ++ e.salt).length = 16 + h.saltSize.toNat := by
    rw [List.length_append, length_headerBytes, hfits.salt]
  have hhash : (headerBytes h ++ e.salt ++ e.hashSalt).length = 16 + h.saltSize.toNat + h.hashSaltSize.toNat := by
    rw [List.length_append, hsalt, hfits.hashSalt]
  have hiv : (headerBytes h ++ e.salt ++ e.hashSalt ++ e.iv).length = 32 + h.saltSize.toNat + h.hashSaltSize.toNat := by
    rw [List.length_append, hhash, hfits.iv]
    omega
  simp only [splitEnvelope, envelopeBytes_eq]
  congr 1
  · rw [slice_append_left _ htag (by omega), slice_append_left _ hmd (by omega), envelopeFront,
      slice_append_left _ hiv (by omega), slice_append_left _ hhash (by omega), slice_append_left _ hsalt le_rfl,
      slice_append_right (length_headerBytes h) hfits.salt rfl]
  · rw [slice_append_left _ htag (by omega), slice_append_left _ hmd (by omega), envelopeFront,
      slice_append_left _ hiv (by omega), slice_append_left _ hhash (by omega),
      slice_append_right hsalt hfits.hashSalt rfl]
  · rw [slice_append_left _ htag (by omega), slice_append_left _ hmd (by omega), envelopeFront,
      slice_append_left _ hiv le_rfl, slice_append_right hhash hfits.iv (by omega)]
  · rw [slice_append_left _ htag (by omega), slice_append_left _ hmd le_rfl, envelopeFront,
      slice_append_right hiv hfits.metadata rfl]
  · rw [slice_append_left _ htag le_rfl, slice_append_right hmd hfits.tag rfl]
  · exact List.drop_left' htag

theorem EnvelopeBody.Fits.withTag {tag : Bytes} (hlen : tag.length = alg.hLen) :
    EnvelopeBody.Fits { e with tag := tag } h alg :=
  { hfits with tag := hlen }

variable {j : Nat} (hlow : 32 + h.saltSize.toNat + h.hashSaltSize.toNat + h.metadataSize.toNat ≤ j)
  (hhigh : j < 32 + h.saltSize.toNat + h.hashSaltSize.toNat + h.metadataSize.toNat + alg.hLen)
include hlow hhigh

theorem EnvelopeBody.Fits.index_in_tag :
    (envelopeFront h e).length ≤ j ∧ j - (envelopeFront h e).length < e.tag.length := by
  rw [hfits.length_front, hfits.tag]
  omega

/-- A changed byte of the tag changes the tag alone (R250, R266). -/
theorem EnvelopeBody.Fits.set_tag (b : Byte) :
    (envelopeBytes h e).set j b =
      envelopeBytes h { e with tag := e.tag.set (j - (envelopeFront h e).length) b } := by
  obtain ⟨hfront, htag⟩ := hfits.index_in_tag hlow hhigh
  rw [envelopeBytes_eq, List.append_assoc, List.set_append_right _ _ hfront, List.set_append_left _ _ htag,
    ← List.append_assoc]
  rfl

/-- A byte of the tag, where it stands in the envelope (R250). -/
theorem EnvelopeBody.Fits.getD_tag :
    (envelopeBytes h e).getD j 0 = e.tag.getD (j - (envelopeFront h e).length) 0 := by
  obtain ⟨hfront, htag⟩ := hfits.index_in_tag hlow hhigh
  rw [envelopeBytes_eq, List.append_assoc, List.getD_append_right _ _ _ _ hfront, List.getD_append _ _ _ _ htag]

end

end Sys2Proof.Machine
end

section
/-! PROOF. EV.ENC: its faults in order and the envelope it writes (46_envelope.md R250 to R252, R256; 60_exceptions.md
R300). -/

namespace Sys2Proof.Machine

open Sys2Proof

/-! ## The envelope as its parts -/

section
variable (s : State) (ra rb rc : Reg) (alg : HashAlg)

/-- The header of the envelope `EV.ENC` writes (R250, R256). -/
def State.sealHeader : EnvelopeHeader :=
  ⟨1, s.evAlg, BitVec.ofNat 32 (s.buf rc).len, s.evIter, s.evSaltsz, s.evHsaltsz⟩

/-- The ciphertext of the envelope `EV.ENC` writes (R251, R256). -/
def State.sealCiphertext : Bytes :=
  cbcEncrypt (pbkdf2 alg (s.load (s.buf rb)) (rngBytes s s.rngPos s.evSaltsz.toNat) s.evIter.toNat 32)
    (rngBytes s (s.rngPos + s.evSaltsz.toNat + s.evHsaltsz.toNat) 16) (s.load (s.buf ra))

/-- The parts of the envelope `EV.ENC` writes: salt, hash salt and IV are the RNG's next bytes, in this order (R250,
R252, R256). -/
def State.sealBody : EnvelopeBody where
  salt := rngBytes s s.rngPos s.evSaltsz.toNat
  hashSalt := rngBytes s (s.rngPos + s.evSaltsz.toNat) s.evHsaltsz.toNat
  iv := rngBytes s (s.rngPos + s.evSaltsz.toNat + s.evHsaltsz.toNat) 16
  metadata := s.load (s.buf rc)
  tag := hmac alg
    (pbkdf2 alg (s.load (s.buf rb)) (rngBytes s (s.rngPos + s.evSaltsz.toNat) s.evHsaltsz.toNat) s.evIter.toNat 32)
    (s.sealCiphertext ra rb alg)
  ciphertext := s.sealCiphertext ra rb alg

/-- The argument checks of `EV.ENC` past the algorithm: key, iteration count, salt sizes, metadata length (R256). -/
abbrev State.encAccepts : Prop :=
  (s.buf rb).len ≠ 0 ∧ 0 < s.evIter.toInt ∧ 8 ≤ s.evSaltsz.toInt ∧ 8 ≤ s.evHsaltsz.toInt ∧ (s.buf rc).len ≤ 0x7FFFFFFF

end

section
variable {s : State} {ra rb rc : Reg} {alg : HashAlg}

/-- What `EV.ENC` writes is an envelope of these parts (R250, R256). -/
theorem sealed_eq (halg : s.evAlg.toNat = alg.number) :
    s.sealed ra rb rc alg = envelopeBytes (s.sealHeader rc) (s.sealBody ra rb rc alg) := by
  simp only [State.sealed, sealEnvelope, drawSalts_eq, length_rngBytes, State.length_load, ← halg, BitVec.ofNat_toNat,
    BitVec.setWidth_eq]
  rfl

theorem toNat_metadataSize (hml : (s.buf rc).len ≤ 0x7FFFFFFF) :
    (s.sealHeader rc).metadataSize.toNat = (s.buf rc).len :=
  (BitVec.toNat_ofNat _ _).trans (Nat.mod_eq_of_lt (by omega))

theorem sealBody_fits (hml : (s.buf rc).len ≤ 0x7FFFFFFF) :
    (s.sealBody ra rb rc alg).Fits (s.sealHeader rc) alg where
  salt := length_rngBytes _ _ _
  hashSalt := length_rngBytes _ _ _
  iv := length_rngBytes _ _ _
  metadata := (State.length_load _ _).trans (toNat_metadataSize hml).symm
  tag := length_hmac _ _ _

theorem length_sealCiphertext : (s.sealCiphertext ra rb alg).length = cipherLen (s.buf ra).len := by
  rw [State.sealCiphertext, length_cbcEncrypt (length_pbkdf2 ..), State.length_load, cipherLen]

/-- The envelope is as long as `EV.ENC` reckons (R250, R256). -/
theorem length_sealed (rd : Reg) (halg : s.evAlg.toNat = alg.number) (hml : (s.buf rc).len ≤ 0x7FFFFFFF) :
    (s.sealed ra rb rc alg).length = (s.envelopeOut rd ra rc alg).len := by
  rw [sealed_eq halg, (sealBody_fits hml).length_envelopeBytes, EnvelopeHeader.need, toNat_metadataSize hml]
  exact congrArg (_ + ·) length_sealCiphertext

/-- The envelope, field by field (R250, R256). -/
theorem sealed_eq_fields (halg : s.evAlg.toNat = alg.number) (hml : (s.buf rc).len ≤ 0x7FFFFFFF) :
    s.sealed ra rb rc alg =
      [1, 0] ++ toLe 2 s.evAlg.toNat ++ toLe 4 (s.buf rc).len ++ toLe 4 s.evIter.toNat ++ toLe 2 s.evSaltsz.toNat ++
        toLe 2 s.evHsaltsz.toNat ++ (s.sealBody ra rb rc alg).salt ++ (s.sealBody ra rb rc alg).hashSalt ++
        (s.sealBody ra rb rc alg).iv ++ s.load (s.buf rc) ++ (s.sealBody ra rb rc alg).tag ++
        s.sealCiphertext ra rb alg := by
  have hversion : toLe16 1 = [1, 0] := by decide
  rw [sealed_eq halg, ← toNat_metadataSize hml, ← hversion]
  rfl

end

/-! ## The command -/

/-- What `EV.ENC` makes of the state when it writes the envelope `env`, before `cp` moves on (R256). -/
def State.withEnvelope (s : State) (rd : Reg) (env : Bytes) (len : Nat) : State :=
  ({ s with rngPos := s.rngPos + s.evSaltsz.toNat + s.evHsaltsz.toNat + 16 }.store (s.num rd) env).setReg (Reg.next rd)
    (BitVec.ofNat 32 len)

/-- All that changes when `EV.ENC` retires (R24, R256). -/
theorem retire_withEnvelope (s : State) (rd : Reg) (env : Bytes) (len : Nat) :
    ∃ t, retire (s.withEnvelope rd env len) = .next t ∧
      t = { s with
        x := t.x, mem := t.mem, rngPos := s.rngPos + s.evSaltsz.toNat + s.evHsaltsz.toNat + 16, cp := s.cp + 1 } ∧
      (∀ q, t.reg q = if q = rd + 1 then BitVec.ofNat 32 len else s.reg q) ∧ t.mem = s.mem.write (s.num rd) env :=
  ⟨_, rfl, rfl, fun q => State.reg_setReg _ _ q _, rfl⟩

section
variable {s : State} {rd ra rb rc : Reg}

theorem pairsOk_evEnc :
    (Instr.evEnc rd ra rb rc).pairsOk = true ↔ ra ≠ 15 ∧ rb ≠ 15 ∧ rc ≠ 15 ∧ rd ≠ 15 := by
  simp only [Instr.pairsOk, Instr.pairFields, List.all_cons, List.all_nil, Reg.pairOk, Bool.and_eq_true, bne_iff_ne]
  tauto

variable (hpairs : ra ≠ 15 ∧ rb ≠ 15 ∧ rc ≠ 15 ∧ rd ≠ 15)
include hpairs

/-- `EV.ENC` with an id of no algorithm in `EV_ALG` (R256). -/
theorem exec_evEnc_of_unsupported (halg : hashAlgOf s.evAlg.toNat = none) :
    exec (.evEnc rd ra rb rc) s = raise .argument (encode (.evEnc rd ra rb rc)) s := by
  change execEvEnc rd ra rb rc s = _
  simp only [execEvEnc, checked_cons, checked_nil, pairCheck, pairsOk_evEnc.2 hpairs, halg, if_true]

/-- All that `EV.ENC` does with an algorithm: its checks in their order, then its effect (R256). -/
theorem exec_evEnc_eq {alg : HashAlg} (halg : hashAlgOf s.evAlg.toNat = some alg) :
    exec (.evEnc rd ra rb rc) s =
      if s.encAccepts rb rc then
        if s.admits (s.buf ra) = true ∧ s.admits (s.buf rb) = true ∧ s.admits (s.buf rc) = true ∧
            s.admits (s.envelopeOut rd ra rc alg) = true then
          if (s.envelopeOut rd ra rc alg).overlaps (s.buf ra) = false ∧
              (s.envelopeOut rd ra rc alg).overlaps (s.buf rb) = false ∧
              (s.envelopeOut rd ra rc alg).overlaps (s.buf rc) = false then
            retire (s.withEnvelope rd (s.sealed ra rb rc alg) (s.envelopeOut rd ra rc alg).len)
          else raise .address (encode (.evEnc rd ra rb rc)) s
        else raise .address (encode (.evEnc rd ra rb rc)) s
      else raise .argument (encode (.evEnc rd ra rb rc)) s := by
  change execEvEnc rd ra rb rc s = _
  simp only [execEvEnc, checked_cons, checked_nil, pairCheck, needArgument, needAddress, pairsOk_evEnc.2 hpairs, halg,
    Bool.and_eq_true, Bool.not_eq_true', decide_eq_true_eq, and_assoc, if_true]
  rfl

end

/-- Settles O55: each fault is one branch of `exec_evEnc_eq`, and the envelope is that of `sealed_eq_fields`. -/
theorem evEncWritesEnvelope : Obligations.EvEncWritesEnvelope := by
  intro rd ra rb rc s
  refine ⟨rfl, fun hpair => ?pair, fun hpairs hacc => ?argument, fun alg hpairs hacc halg => ?accepted⟩
  case pair => exact runWord_encode_of_pairsOk_false (Bool.eq_false_iff.2 fun h => hpair (pairsOk_evEnc.1 h)) s
  case argument =>
    by_cases hid : 1 ≤ s.evAlg.toNat ∧ s.evAlg.toNat ≤ 4
    · obtain ⟨alg, halg⟩ := exists_number_eq hid.1 hid.2
      rw [exec_evEnc_eq hpairs (halg ▸ hashAlgOf_number alg), if_neg fun h => hacc ⟨h.1, hid, h.2⟩]
    · exact exec_evEnc_of_unsupported hpairs (hashAlgOf_eq_none (by omega))
  case accepted =>
    obtain ⟨hkey, -, hiter, hsalt, hhash, hml⟩ := hacc
    have hexec := exec_evEnc_eq (s := s) hpairs (halg ▸ hashAlgOf_number alg)
    rw [if_pos ⟨hkey, hiter, hsalt, hhash, hml⟩] at hexec
    refine ⟨fun hadm => hexec.trans (if_neg hadm),
      fun hadm hapart => hexec.trans ((if_pos hadm).trans (if_neg hapart)), fun hadm hapart hwf => ?_⟩
    have hfields := sealed_eq_fields (ra := ra) (rb := rb) halg hml
    have hlength := length_sealed (ra := ra) (rb := rb) rd halg hml
    obtain ⟨t, ht, hframe, hreg, hmem⟩ :=
      retire_withEnvelope s rd (s.sealed ra rb rc alg) (s.envelopeOut rd ra rc alg).len
    have hstored := Memory.write_stored hwf (s.num rd) (s.sealed ra rb rc alg)
    rw [← hmem, hfields] at hstored
    rw [hfields] at hlength
    exact ⟨t, (hexec.trans ((if_pos hadm).trans (if_pos hapart))).trans ht, hframe, hreg, hlength, hstored⟩

end Sys2Proof.Machine
end

section
/-! PROOF. EV.DEC: its checks in their order, and what it does with an envelope that passes them (46_envelope.md R262 to
R264, 60_exceptions.md R282). -/

namespace Sys2Proof.Machine

open Sys2Proof

/-! ## The length of a plaintext -/

section
variable {key : Bytes} (hkey : key.length = 32)
include hkey

theorem length_aesDec (blk : Bytes) : (aesDec key blk).length = 16 := by
  simp [aesDec, invSubBytes, invShiftRows, length_roundKey hkey]

theorem length_cbcUnchain {prev : Bytes} {cs : List Bytes} (hprev : prev.length = 16) (hcs : WholeBlocks 16 cs) :
    (cbcUnchain key prev cs).length = 16 * cs.length := by
  induction cs generalizing prev with
  | nil => rfl
  | cons c cs ih =>
    obtain ⟨hc, hcs⟩ := List.forall_mem_cons.1 hcs
    rw [cbcUnchain, List.length_append, ih hc hcs, length_xorBytes_of (length_aesDec hkey c) hprev, List.length_cons,
      Nat.mul_succ, Nat.add_comm]

/-- A plaintext is 1 to 16 bytes shorter than its ciphertext (R236, R237). -/
theorem length_cbcDecrypt {iv ct pt : Bytes} (hiv : iv.length = 16) (h : cbcDecrypt key iv ct = some pt) :
    ct.length - 16 ≤ pt.length ∧ pt.length < ct.length := by
  rw [cbcDecrypt, Option.ite_none_left_eq_some] at h
  obtain ⟨hwhole, hunpad⟩ := h
  simp only [Bool.or_eq_true, decide_eq_true_eq, not_or, ne_eq, not_not] at hwhole
  obtain ⟨hpos, hmod⟩ := hwhole
  have hplain := length_cbcUnchain hkey hiv (wholeBlocks_blocksOf (Nat.mul_div_le ct.length 16))
  rw [length_blocksOf] at hplain
  have hpad := length_pkcsPad pt
  rw [pkcsPad_of_pkcsUnpad (List.ne_nil_of_length_pos (by omega)) (by omega) hunpad] at hpad
  omega

end

/-! ## What an envelope opens to -/

section
variable {s : State} {ra rb : Reg} {alg : HashAlg}

/-- The parts of an envelope that is long enough for its header have their sizes (R250, R262). -/
theorem length_envelopeBody (hneed : (s.envelopeHeader ra).need alg ≤ (s.buf ra).len) :
    (s.envelopeBody ra alg).iv.length = 16 ∧ (s.envelopeBody ra alg).tag.length = alg.hLen := by
  simp only [EnvelopeHeader.need] at hneed
  simp only [State.envelopeBody, splitEnvelope, slice, List.length_take, List.length_drop, State.length_load]
  omega

theorem length_ciphertext (rd : Reg) :
    (s.envelopeBody ra alg).ciphertext.length = (s.plaintextOut rd ra alg).len := by
  simp only [State.envelopeBody, splitEnvelope, List.length_drop, State.length_load, State.plaintextOut,
    EnvelopeHeader.need]

/-- An envelope opens when its tag is that of its ciphertext, and then to what the ciphertext decrypts to (R262 to
R264). -/
theorem opened_eq (hneed : (s.envelopeHeader ra).need alg ≤ (s.buf ra).len) :
    s.opened ra rb alg =
      if (s.envelopeBody ra alg).tag = hmac alg (s.envelopeMacKey ra rb alg) (s.envelopeBody ra alg).ciphertext then
        cbcDecrypt (s.envelopeCipherKey ra rb alg) (s.envelopeBody ra alg).iv (s.envelopeBody ra alg).ciphertext
      else none := by
  obtain ⟨-, htag⟩ := length_envelopeBody hneed
  exact if_congr (ctEqual_iff (htag.trans (length_hmac alg _ _).symm)) rfl rfl

/-- The plaintext is 1 to 16 bytes shorter than its destination (R262). -/
theorem length_opened (rd : Reg) {pt : Bytes} (hneed : (s.envelopeHeader ra).need alg ≤ (s.buf ra).len)
    (h : s.opened ra rb alg = some pt) :
    (s.plaintextOut rd ra alg).len - 16 ≤ pt.length ∧ pt.length < (s.plaintextOut rd ra alg).len := by
  rw [opened_eq hneed, Option.ite_none_right_eq_some] at h
  obtain ⟨-, hplain⟩ := h
  obtain ⟨hiv, -⟩ := length_envelopeBody hneed
  rw [← length_ciphertext rd]
  exact length_cbcDecrypt (length_pbkdf2 ..) hiv hplain

end

/-! ## What the command writes -/

section
variable {s : State} {ra rc : Reg} {alg : HashAlg}

/-- With a capacity the metadata is copied out, without one nothing is (R262). -/
theorem copiedMetadata_eq :
    s.copiedMetadata ra rc alg = if s.num (Reg.next rc) = 0 then [] else (s.envelopeBody ra alg).metadata := by
  by_cases hcap : s.num (Reg.next rc) = 0
  · rw [State.copiedMetadata, if_neg (by simp [State.metadataOut, hcap]), if_pos hcap]
  · have hlen : (s.metadataOut ra rc).len = (s.envelopeHeader ra).metadataSize.toNat := if_neg hcap
    rw [State.copiedMetadata, hlen, if_neg hcap]
    split
    next => rfl
    next hempty =>
      have hmd : (s.envelopeBody ra alg).metadata.length ≤ (s.envelopeHeader ra).metadataSize.toNat :=
        length_metadata_le _ _ _ _ _
      exact (List.eq_nil_of_length_eq_zero (Nat.le_zero.1 (hmd.trans_eq (not_not.1 hempty)))).symm

theorem withMetadata_stored (hwf : s.mem.wf = true) :
    s.mem.Stored (s.num rc) (s.copiedMetadata ra rc alg) (s.withMetadata ra rc alg).mem :=
  Memory.write_stored hwf _ _

theorem withMetadata_wf (hwf : s.mem.wf = true) : (s.withMetadata ra rc alg).mem.wf = true := State.store_wf hwf _ _

/-- Copying the metadata out leaves every byte outside its destination (R262). -/
theorem readByte_withMetadata {a : Nat} (ha : (s.metadataOut ra rc).contains a = false) :
    (s.withMetadata ra rc alg).mem.readByte a = s.mem.readByte a := by
  have hlen := length_copiedMetadata_le s ra rc alg
  simp only [Range.contains, Bool.and_eq_false_iff, decide_eq_false_iff_not] at ha
  exact Memory.readByte_write_outside _ _ (by omega)

end

/-- What `EV.DEC` makes of the state, the metadata of `ms` bytes copied out, when the plaintext is `pt`, before `cp`
moves on (R262). With `rc = rd` the length of the plaintext stays: log entry 16. -/
def State.withPlaintext (s : State) (rd rc : Reg) (ms : Word) (pt : Bytes) : State :=
  (if s.num (Reg.next rc) ≠ 0 then (s.store (s.num rd) pt).setReg (Reg.next rc) ms
    else s.store (s.num rd) pt).setReg (Reg.next rd) (BitVec.ofNat 32 pt.length)

/-- All that changes when `EV.DEC` retires (R24, R262). -/
theorem retire_withPlaintext (s : State) (rd rc : Reg) (ms : Word) (pt : Bytes) :
    ∃ t, retire (s.withPlaintext rd rc ms pt) = .next t ∧
      t = { s with x := t.x, mem := t.mem, cp := s.cp + 1 } ∧
      (∀ q, t.reg q = if q = rd + 1 then BitVec.ofNat 32 pt.length
        else if q = rc + 1 ∧ s.num (Reg.next rc) ≠ 0 then ms else s.reg q) ∧
      t.mem = s.mem.write (s.num rd) pt := by
  by_cases hcap : s.num (Reg.next rc) ≠ 0
  · rw [State.withPlaintext, if_pos hcap]
    refine ⟨_, rfl, rfl, fun q => (State.reg_setReg _ _ q _).trans (if_congr Iff.rfl rfl ?_), rfl⟩
    exact (State.reg_setReg _ _ q _).trans (if_congr (iff_self_and.2 fun _ => hcap) rfl rfl)
  · rw [State.withPlaintext, if_neg hcap]
    refine ⟨_, rfl, rfl, fun q => (State.reg_setReg _ _ q _).trans (if_congr Iff.rfl rfl ?_), rfl⟩
    exact (if_neg fun h => hcap h.2).symm

/-- What `EV.DEC` does once its checks are made (R262, R264). -/
def State.decEnd (s : State) (rd ra rb rc : Reg) (alg : HashAlg) : Result :=
  (s.opened ra rb alg).elim (raise .integrity (encode (.evDec rd ra rb rc)) (s.withMetadata ra rc alg)) fun pt =>
    retire ((s.withMetadata ra rc alg).withPlaintext rd rc (s.envelopeHeader ra).metadataSize pt)

/-! ## The checks -/

section
variable {s : State} {rd ra rb rc : Reg} (hpairs : rd ≠ 15 ∧ ra ≠ 15 ∧ rb ≠ 15 ∧ rc ≠ 15)
include hpairs

/-- `EV.DEC` without a key, or with an envelope shorter than a header (R262, check 2). -/
theorem exec_evDec_of_bad_argument (h : (s.buf rb).len = 0 ∨ (s.buf ra).len < 16) :
    exec (.evDec rd ra rb rc) s = raise .argument (encode (.evDec rd ra rb rc)) s := by
  have hargs : ¬ ((s.buf rb).len ≠ 0 ∧ 16 ≤ (s.buf ra).len) := by omega
  change execEvDec rd ra rb rc s = _
  simp only [execEvDec, checked_cons, pairCheck, needArgument, pairsOk_evDec.2 hpairs, Bool.and_eq_true,
    decide_eq_true_eq, if_true, if_neg hargs]

/-- `EV.DEC` with an envelope or a key outside BUF (R262, check 3). -/
theorem exec_evDec_of_not_admitted (hkey : (s.buf rb).len ≠ 0) (hlen : 16 ≤ (s.buf ra).len)
    (h : s.admits (s.buf ra) = false ∨ s.admits (s.buf rb) = false) :
    exec (.evDec rd ra rb rc) s = raise .address (encode (.evDec rd ra rb rc)) s := by
  have hadm : ¬ (s.admits (s.buf ra) = true ∧ s.admits (s.buf rb) = true) := by
    rcases h with h | h <;> simp [h]
  change execEvDec rd ra rb rc s = _
  simp only [execEvDec, checked_cons, pairCheck, needArgument, needAddress, pairsOk_evDec.2 hpairs, Bool.and_eq_true,
    decide_eq_true_eq, if_true, if_pos (And.intro hkey hlen), if_neg hadm]

variable (hin : s.decInputsOk ra rb)
include hin

/-- `EV.DEC` with the id of no algorithm in the header (R262, check 4). -/
theorem exec_evDec_of_unknown_algorithm (halg : hashAlgOf (s.envelopeHeader ra).algId.toNat = none) :
    exec (.evDec rd ra rb rc) s = raise .unsupported (encode (.evDec rd ra rb rc)) s := by
  obtain ⟨hkey, hlen, hadm⟩ := hin
  change execEvDec rd ra rb rc s = _
  simp only [execEvDec, checked_cons, checked_nil, pairCheck, needArgument, needAddress, pairsOk_evDec.2 hpairs,
    Bool.and_eq_true, decide_eq_true_eq, if_true, if_pos (And.intro hkey hlen), if_pos hadm, parseHeader_load hlen,
    halg]

open Classical in
/-- All that `EV.DEC` does with an algorithm: its checks from 4 on in their order, then its effect (R262). Checks 5 to 7
raise the same fault. -/
theorem exec_evDec_eq {alg : HashAlg} (halg : hashAlgOf (s.envelopeHeader ra).algId.toNat = some alg) :
    exec (.evDec rd ra rb rc) s =
      if (s.envelopeHeader ra).version = 1 then
        if s.decSizesOk ra rc alg then
          if s.decOutputsAdmitted rd ra rc alg then
            if s.decOutputsApart rd ra rb rc alg then s.decEnd rd ra rb rc alg
            else raise .address (encode (.evDec rd ra rb rc)) s
          else raise .address (encode (.evDec rd ra rb rc)) s
        else raise .argument (encode (.evDec rd ra rb rc)) s
      else raise .unsupported (encode (.evDec rd ra rb rc)) s := by
  obtain ⟨hkey, hlen, hadm⟩ := hin
  change execEvDec rd ra rb rc s = _
  simp only [execEvDec, checked_cons, checked_nil, pairCheck, needArgument, needAddress, needSupported,
    pairsOk_evDec.2 hpairs, Bool.and_eq_true, Bool.or_eq_true, Bool.not_eq_true', decide_eq_true_eq, if_true,
    if_pos (And.intro hkey hlen), if_pos hadm, parseHeader_load hlen, halg, dest_eq_metadataOut, envelopeLen_eq_need,
    dest_eq_plaintextOut, splitEnvelope_eq_envelopeBody, copy_eq_withMetadata]
  rw [State.decEnd, State.opened]
  simp only [← ite_and, and_assoc]
  refine if_congr Iff.rfl (if_congr ?sizes (if_congr ?outputs ?finish rfl) rfl) rfl
  case sizes => simp only [State.decSizesOk, EnvelopeHeader.Accepted, and_assoc]
  case outputs => simp only [State.decOutputsAdmitted, State.decOutputsApart, and_assoc]
  case finish => cases openEnvelope _ _ _ _ <;> rfl

end

/-- Settles O56: each fault is one lemma about `EV.DEC` or one branch of `exec_evDec_eq`. -/
theorem evDecCheckOrder : Obligations.EvDecCheckOrder := by
  intro rd ra rb rc s
  refine ⟨rfl, fun hpair => ?pair, exec_evDec_of_bad_argument, exec_evDec_of_not_admitted,
    fun hpairs hin hheader => ?header, fun alg hpairs hin ⟨hversion, halg⟩ => ?checks⟩
  case pair => exact runWord_encode_of_pairsOk_false (Bool.eq_false_iff.2 fun h => hpair (pairsOk_evDec.1 h)) s
  case header =>
    cases halg : hashAlgOf (s.envelopeHeader ra).algId.toNat with
    | none => exact exec_evDec_of_unknown_algorithm hpairs hin halg
    | some alg => rw [exec_evDec_eq hpairs hin halg, if_neg fun hversion => hheader alg ⟨hversion, halg⟩]
  case checks =>
    have hexec := exec_evDec_eq (rd := rd) hpairs hin halg
    rw [if_pos hversion] at hexec
    exact ⟨fun hsizes => hexec.trans (if_neg hsizes),
      fun hsizes houts => hexec.trans ((if_pos hsizes).trans (if_neg houts)),
      fun hsizes houts hapart => hexec.trans ((if_pos hsizes).trans ((if_pos houts).trans (if_neg hapart)))⟩

/-! ## An envelope that passes the checks -/

section
variable {s : State} {rd ra rb rc : Reg} {alg : HashAlg} (hacc : s.decAccepts rd ra rb rc alg)
include hacc

theorem exec_evDec_of_accepts : exec (.evDec rd ra rb rc) s = s.decEnd rd ra rb rc alg := by
  obtain ⟨hpairs, hin, ⟨hversion, halg⟩, hsizes, houts, hapart⟩ := hacc
  rw [exec_evDec_eq hpairs hin halg, if_pos hversion, if_pos hsizes, if_pos houts, if_pos hapart]

/-- An envelope that does not open: fault entry, with the metadata copied out (R262, R264). -/
theorem exec_evDec_of_opened_none (h : s.opened ra rb alg = none) :
    exec (.evDec rd ra rb rc) s =
      .next { s with
        err := some .integrity, errcp := s.cp, errcmd := encode (.evDec rd ra rb rc), queue := []
        mem := (s.withMetadata ra rc alg).mem } := by
  rw [exec_evDec_of_accepts hacc, State.decEnd, h]
  rfl

/-- An envelope that opens: the metadata copied out, then the plaintext written, and their lengths returned (R262). -/
theorem exec_evDec_of_opened_some {pt : Bytes} (h : s.opened ra rb alg = some pt) :
    ∃ t, exec (.evDec rd ra rb rc) s = .next t ∧
      t = { s with x := t.x, mem := t.mem, cp := s.cp + 1 } ∧
      (∀ q, t.reg q = if q = rd + 1 then BitVec.ofNat 32 pt.length
        else if q = rc + 1 ∧ s.num (Reg.next rc) ≠ 0 then (s.envelopeHeader ra).metadataSize else s.reg q) ∧
      t.mem = (s.withMetadata ra rc alg).mem.write (s.num rd) pt := by
  rw [exec_evDec_of_accepts hacc, State.decEnd, h]
  exact retire_withPlaintext _ rd rc _ pt

end

/-- Settles O57: `opened_eq` says when an envelope opens, and each outcome is one lemma about `EV.DEC`. -/
theorem evDecOpensOrFaults : Obligations.EvDecOpensOrFaults := by
  intro rd ra rb rc s alg hacc hwf
  have hneed : (s.envelopeHeader ra).need alg ≤ (s.buf ra).len := by
    obtain ⟨-, -, -, ⟨-, hneed, -⟩, -⟩ := hacc
    exact hneed
  have hcopied := withMetadata_stored (ra := ra) (rc := rc) (alg := alg) hwf
  rw [copiedMetadata_eq] at hcopied
  refine ⟨fun hnone => ?fails, fun pt hsome => ?opens⟩
  case fails => exact ⟨_, exec_evDec_of_opened_none hacc ((opened_eq hneed).trans hnone), rfl, hcopied⟩
  case opens =>
    have hopen := (opened_eq hneed).trans hsome
    obtain ⟨t, ht, hframe, hreg, hmem⟩ := exec_evDec_of_opened_some hacc hopen
    have hplain := Memory.write_stored (withMetadata_wf (ra := ra) (rc := rc) (alg := alg) hwf) (s.num rd) pt
    rw [← hmem] at hplain
    exact ⟨t, _, ht, hframe, hreg, hcopied, hplain, length_opened rd hneed hopen⟩

end Sys2Proof.Machine
end

section
/-! PROOF. An envelope that EV.ENC made, under EV.DEC with the same key: it opens, and with a changed tag it is refused
(46_envelope.md R263, R265, R266). -/

namespace Sys2Proof.Machine

open Sys2Proof

/-! ## An envelope in BUF -/

section
variable {u : State} {ra : Reg} {h : EnvelopeHeader} {e : EnvelopeBody}

theorem envelopeHeader_of_load (hload : u.load (u.buf ra) = envelopeBytes h e) : u.envelopeHeader ra = h := by
  rw [State.envelopeHeader, hload, parseHeader_envelopeBytes]

variable {alg : HashAlg} (hfits : e.Fits h alg) (hload : u.load (u.buf ra) = envelopeBytes h e)
include hfits hload

theorem envelopeBody_of_load : u.envelopeBody ra alg = e := by
  rw [State.envelopeBody, envelopeHeader_of_load hload, hload, hfits.splitEnvelope_envelopeBytes]

theorem len_buf_of_load : (u.buf ra).len = h.need alg + e.ciphertext.length := by
  rw [← hfits.length_envelopeBytes, ← hload, State.length_load]

/-- What an envelope opens to, by its parts (R262 to R264). -/
theorem opened_of_load (rb : Reg) :
    u.opened ra rb alg =
      if e.tag = hmac alg (pbkdf2 alg (u.load (u.buf rb)) e.hashSalt h.iterations.toNat 32) e.ciphertext then
        cbcDecrypt (pbkdf2 alg (u.load (u.buf rb)) e.salt h.iterations.toNat 32) e.iv e.ciphertext
      else none := by
  have hheader := envelopeHeader_of_load hload
  have hneed : (u.envelopeHeader ra).need alg ≤ (u.buf ra).len := by
    rw [hheader, len_buf_of_load hfits hload]
    exact Nat.le_add_right _ _
  rw [opened_eq hneed, State.envelopeMacKey, State.envelopeCipherKey, envelopeBody_of_load hfits hload, hheader,
    deriveKey32, deriveKey32]

end

/-! ## What a retiring EV.ENC leaves -/

/-- A range beside a range that is not empty does not fill BUF (R62, R63). -/
theorem Range.len_lt_of_apart {a b : Range} {size : Nat} (ha : a.admitted size = true) (hb : b.admitted size = true)
    (hne : b.len ≠ 0) (hapart : a.overlaps b = false) : a.len < size := by
  rw [← Bool.not_eq_true, Range.overlaps_iff] at hapart
  rw [Range.admitted_iff] at ha hb
  omega

theorem Config.bufBytes_le {c : Config} (h : c.legal = true) : c.bufBytes ≤ 2 ^ 32 := by
  simp only [Config.legal, Bool.and_eq_true, decide_eq_true_eq] at h
  exact h.1.2

/-- What was written is what the same range reads in any state with that BUF (R61). -/
theorem State.load_of_mem_eq {s t : State} (hwf : s.mem.wf = true) {a : Nat} {v : Bytes}
    (hmem : t.mem = s.mem.write a v) :
    t.load ⟨a, v.length⟩ = v := by
  rw [State.load, hmem]
  exact State.load_store_same hwf a v

section
variable {s t u : State} {rd ra rb rc : Reg} {alg : HashAlg}

/-- The effect of `EV.ENC`, with what its checks found (R256). -/
theorem Effect.evEnc_eq (he : Effect s (.evEnc rd ra rb rc) u) (halg : s.evAlg.toNat = alg.number) :
    s.encAccepts rb rc ∧ s.admits (s.buf rb) = true ∧ s.admits (s.envelopeOut rd ra rc alg) = true ∧
      (s.envelopeOut rd ra rc alg).overlaps (s.buf rb) = false ∧
      u = s.withEnvelope rd (s.sealed ra rb rc alg) (s.envelopeOut rd ra rc alg).len := by
  cases he with
  | @evEnc _ _ _ _ alg' supported key iterations saltSize hashSaltSize metadata inputs admitted apart =>
    obtain rfl : alg' = alg := Option.some.inj (supported.symm.trans (halg ▸ hashAlgOf_number alg))
    obtain ⟨-, hinK, -⟩ := inputs
    obtain ⟨-, hapartK, -⟩ := apart
    exact ⟨⟨key, iterations, saltSize, hashSaltSize, metadata⟩, hinK, admitted, hapartK, rfl⟩

/-- The envelope stands at the destination, and its length in the register after (R256). -/
theorem load_of_retire_withEnvelope (hwf : s.mem.wf = true) {env : Bytes} (hlen : env.length < 2 ^ 32)
    (ht : retire (s.withEnvelope rd env env.length) = .next t) :
    t.num (rd + 1) = env.length ∧ t.load (t.buf rd) = env := by
  obtain ⟨t', ht', -, hreg, hmem⟩ := retire_withEnvelope s rd env env.length
  cases ht'.symm.trans ht
  have hnum : t.num (rd + 1) = env.length := by
    rw [State.num, hreg, if_pos rfl, BitVec.toNat_ofNat, Nat.mod_eq_of_lt hlen]
  have haddr : t.num rd = s.num rd := by
    rw [State.num, hreg, if_neg fun h => Reg.next_ne rd h.symm, State.num]
  refine ⟨hnum, ?_⟩
  rw [State.buf, haddr, Reg.next, hnum]
  exact State.load_of_mem_eq hwf hmem

/-- An `EV.ENC` that retires had good arguments, and leaves the envelope at its destination and its length in the
register after (R256). -/
theorem envelope_of_exec_evEnc (hwf : s.mem.wf = true) (hcfg : s.cfg.legal = true) (halg : s.evAlg.toNat = alg.number)
    (ht : exec (.evEnc rd ra rb rc) s = .next t) (hcp : t.cp = s.cp + 1) :
    s.encAccepts rb rc ∧ t.num (rd + 1) = (s.sealed ra rb rc alg).length ∧
      t.load (t.buf rd) = s.sealed ra rb rc alg := by
  rcases exec_ends (.evEnc rd ra rb rc) s with ⟨f, v, hv, he⟩ | ⟨v, hv, he⟩ <;> rw [he] at ht
  · cases ht
    have hstay : v.cp = s.cp + 1 := hcp
    exact absurd (hstay.symm.trans hv.cp_eq) (word_add_one_ne s.cp)
  · obtain ⟨haccepts, hinK, hadm, hapartK, rfl⟩ := hv.evEnc_eq halg
    obtain ⟨hkey, hiter, hsalt, hhash, hml⟩ := haccepts
    have hlen := length_sealed (ra := ra) (rb := rb) rd halg hml
    have hlt := (Range.len_lt_of_apart hadm hinK hkey hapartK).trans_le (Config.bufBytes_le hcfg)
    rw [← hlen] at ht hlt
    exact ⟨⟨hkey, hiter, hsalt, hhash, hml⟩, load_of_retire_withEnvelope hwf hlt ht⟩

end

/-! ## The round trip -/

/-- The tag of an envelope of `EV.ENC` is that of its ciphertext (R252, R256). -/
theorem sealBody_tag (s : State) (ra rb rc : Reg) (alg : HashAlg) :
    (s.sealBody ra rb rc alg).tag =
      hmac alg
        (pbkdf2 alg (s.load (s.buf rb)) (s.sealBody ra rb rc alg).hashSalt (s.sealHeader rc).iterations.toNat 32)
        (s.sealBody ra rb rc alg).ciphertext := rfl

section
variable {s u : State} {ra rb rc rd' ra' rb' rc' : Reg} {alg : HashAlg} (halg : s.evAlg.toNat = alg.number)
  (hargs : s.encAccepts rb rc) (hload : u.load (u.buf ra') = s.sealed ra rb rc alg)
  (hkey : u.load (u.buf rb') = s.load (s.buf rb))
include halg hargs hload hkey

/-- An envelope of `EV.ENC` passes the checks of `EV.DEC` on header and sizes (R262, R265). -/
theorem decAccepts_of_sealed (hpairs : rd' ≠ 15 ∧ ra' ≠ 15 ∧ rb' ≠ 15 ∧ rc' ≠ 15)
    (hin : u.admits (u.buf ra') = true ∧ u.admits (u.buf rb') = true)
    (hcap : u.num (Reg.next rc') = 0 ∨ (s.buf rc).len ≤ u.num (Reg.next rc'))
    (houts : u.decOutputsAdmitted rd' ra' rc' alg) (hapart : u.decOutputsApart rd' ra' rb' rc' alg) :
    u.decAccepts rd' ra' rb' rc' alg := by
  obtain ⟨hkeyLen, hiter, hsalt, hhash, hml⟩ := hargs
  rw [sealed_eq halg] at hload
  have hheader := envelopeHeader_of_load hload
  have hlen := len_buf_of_load (sealBody_fits hml) hload
  have hsize := toNat_metadataSize hml
  have hsameKey : (u.buf rb').len = (s.buf rb).len := by rw [← State.length_load, hkey, State.length_load]
  have hsigned : 0 ≤ (s.sealHeader rc).metadataSize.toInt := by
    rw [BitVec.toInt_eq_toNat_of_lt (by omega)]
    exact Int.natCast_nonneg _
  have hneed : 32 ≤ (s.sealHeader rc).need alg := by
    simp only [EnvelopeHeader.need]
    omega
  refine ⟨hpairs, ⟨hsameKey ▸ hkeyLen, by omega, hin⟩, ⟨?version, ?algorithm⟩, ⟨?fields, ?need, ?capacity⟩, houts,
    hapart⟩
  case version => rw [hheader]; rfl
  case algorithm =>
    rw [hheader]
    exact halg ▸ hashAlgOf_number alg
  case fields =>
    rw [hheader]
    exact ⟨hsigned, hiter, hsalt, hhash⟩
  case need =>
    rw [hheader, hlen]
    exact Nat.le_add_right _ _
  case capacity => rwa [hheader, hsize]

/-- An envelope of `EV.ENC` opens to its data (R265). -/
theorem opened_of_sealed : u.opened ra' rb' alg = some (s.load (s.buf ra)) := by
  obtain ⟨-, -, -, -, hml⟩ := hargs
  rw [sealed_eq halg] at hload
  rw [opened_of_load (sealBody_fits hml) hload, hkey, if_pos (sealBody_tag s ra rb rc alg)]
  exact cbcDecrypt_cbcEncrypt (length_pbkdf2 ..) (length_rngBytes _ _ _) _

end

theorem Range.overlaps_eq_false_of_le {a b c : Range} (h : a.overlaps b = false) (haddr : c.addr = b.addr)
    (hlen : c.len ≤ b.len) : c.overlaps a = false := by
  rw [← Bool.not_eq_true, Range.overlaps_iff] at h ⊢
  omega

section
variable {u v : State} {rd ra rc : Reg} {alg : HashAlg} {pt : Bytes} (hwf : u.mem.wf = true)
  (hmem : v.mem = (u.withMetadata ra rc alg).mem.write (u.num rd) pt)
include hwf hmem

/-- The plaintext stands at its destination (R262). -/
theorem load_plaintext : v.load ⟨u.num rd, pt.length⟩ = pt := State.load_of_mem_eq (withMetadata_wf hwf) hmem

/-- The metadata stands at its destination, which the plaintext leaves (R262). -/
theorem load_metadata (hcap : u.num (Reg.next rc) ≠ 0) (hlen : pt.length ≤ (u.plaintextOut rd ra alg).len)
    (hfits : (u.envelopeBody ra alg).metadata.length = (u.envelopeHeader ra).metadataSize.toNat)
    (hapart : (u.metadataOut ra rc).overlaps (u.plaintextOut rd ra alg) = false) :
    v.load ⟨u.num rc, (u.envelopeBody ra alg).metadata.length⟩ = (u.envelopeBody ra alg).metadata := by
  have hout : u.metadataOut ra rc = ⟨u.num rc, (u.envelopeBody ra alg).metadata.length⟩ := by
    rw [hfits, State.metadataOut, if_neg hcap]
  rw [hout] at hapart
  have hcopied : (u.withMetadata ra rc alg).mem = u.mem.write (u.num rc) (u.envelopeBody ra alg).metadata := by
    rw [State.withMetadata, store_mem, copiedMetadata_eq, if_neg hcap, hout]
  calc v.load ⟨u.num rc, (u.envelopeBody ra alg).metadata.length⟩
      = ((u.withMetadata ra rc alg).store (u.num rd) pt).load ⟨u.num rc, (u.envelopeBody ra alg).metadata.length⟩ := by
        rw [State.load, hmem, State.load, store_mem]
    _ = (u.withMetadata ra rc alg).load ⟨u.num rc, (u.envelopeBody ra alg).metadata.length⟩ :=
        State.load_store (withMetadata_wf hwf) (Range.overlaps_eq_false_of_le hapart rfl hlen)
    _ = (u.envelopeBody ra alg).metadata := State.load_of_mem_eq hwf hcopied

end

/-- Settles O58: the envelope passes the checks (`decAccepts_of_sealed`) and opens (`opened_of_sealed`); the plaintext
is written last and beside the metadata. -/
theorem envelopeRoundTrip : Obligations.EnvelopeRoundTrip := by
  intro rd ra rb rc rd' ra' rb' rc' s t u alg hs hu hcfg halg ht hcp _ hload hkey hpairs hinE hinK hcap houts hapart
  obtain ⟨hargs, -, hsealed⟩ := envelope_of_exec_evEnc hs hcfg halg ht hcp
  rw [hsealed] at hload
  have hacc := decAccepts_of_sealed halg hargs hload hkey hpairs ⟨hinE, hinK⟩ hcap houts hapart
  have hopen := opened_of_sealed halg hargs hload hkey
  obtain ⟨v, hv, hframe, hreg, hmem⟩ := exec_evDec_of_opened_some hacc hopen
  obtain ⟨-, -, -, -, hml⟩ := hargs
  obtain ⟨-, -, -, ⟨-, hneed, -⟩, -⟩ := hacc
  obtain ⟨hmdPt, -⟩ := hapart
  rw [sealed_eq halg] at hload
  have hheader := envelopeHeader_of_load hload
  have hbody := envelopeBody_of_load (sealBody_fits hml) hload
  have hplain := load_plaintext hu hmem
  rw [State.length_load] at hplain
  have hretired : Retired u v := by
    rw [hframe]
    exact ⟨rfl, rfl, rfl, rfl, rfl, rfl, rfl, rfl⟩
  refine ⟨v, hv, hretired, ?plainLength, hplain, fun hne => ?metadata, fun hne hrc => ?metadataLength⟩
  case plainLength =>
    have hlt : (s.buf ra).len < 2 ^ 32 := (s.reg (Reg.next ra)).isLt
    rw [State.num, hreg, if_pos rfl, State.length_load, BitVec.toNat_ofNat, Nat.mod_eq_of_lt hlt]
  case metadata =>
    obtain ⟨-, hshort⟩ := length_opened rd' hneed hopen
    have hmd := load_metadata hu hmem hne hshort.le (by rw [hbody, hheader]; exact (sealBody_fits hml).metadata) hmdPt
    rw [hbody] at hmd
    have hlen : (s.sealBody ra rb rc alg).metadata.length = (s.buf rc).len := State.length_load _ _
    rwa [hlen] at hmd
  case metadataLength =>
    have hother : rc' + 1 ≠ rd' + 1 := fun h => hrc (add_right_cancel h)
    rw [State.num, hreg, if_neg hother, if_pos ⟨rfl, hne⟩, hheader, toNat_metadataSize hml]

/-! ## A changed tag -/

theorem set_ne_self {l : Bytes} {k : Nat} {b : Byte} (hk : k < l.length) (hb : l.getD k 0 ≠ b) : l.set k b ≠ l := by
  intro h
  rw [← h, List.getD_eq_getElem _ _ (by rwa [List.length_set]), List.getElem_set_self] at hb
  exact hb rfl

/-- With another tag of the same length an envelope of `EV.ENC` does not open (R263, R266). -/
theorem opened_of_other_tag {s u : State} {ra rb rc ra' rb' : Reg} {alg : HashAlg} {tag : Bytes}
    (hml : (s.buf rc).len ≤ 0x7FFFFFFF) (hlen : tag.length = alg.hLen) (hne : tag ≠ (s.sealBody ra rb rc alg).tag)
    (hload : u.load (u.buf ra') =
      envelopeBytes (s.sealHeader rc) { s.sealBody ra rb rc alg with tag := tag })
    (hkey : u.load (u.buf rb') = s.load (s.buf rb)) : u.opened ra' rb' alg = none := by
  rw [opened_of_load ((sealBody_fits hml).withTag hlen) hload, hkey]
  exact if_neg fun h => hne (h.trans (sealBody_tag s ra rb rc alg).symm)

/-- Settles O59: the changed byte makes another tag (`set_ne_self`), and the parts the tag is computed from are as they
were. -/
theorem tamperedTagFaults : Obligations.TamperedTagFaults := by
  intro rd ra rb rc rd' ra' rb' rc' s t u alg j b hs hu hcfg halg ht hcp hlow hhigh hb _ hload hkey hacc
  obtain ⟨⟨-, -, -, -, hml⟩, -, hsealed⟩ := envelope_of_exec_evEnc hs hcfg halg ht hcp
  have hfits := sealBody_fits (ra := ra) (rb := rb) (alg := alg) hml
  rw [sealed_eq halg] at hsealed
  rw [← toNat_metadataSize hml] at hlow hhigh
  rw [hsealed, hfits.getD_tag hlow hhigh] at hb
  rw [hsealed, hfits.set_tag hlow hhigh] at hload
  have hother := set_ne_self (hfits.index_in_tag hlow hhigh).2 hb
  have hclosed := opened_of_other_tag hml (List.length_set.trans hfits.tag) hother hload hkey
  exact ⟨_, exec_evDec_of_opened_none hacc hclosed, rfl, fun a ha => readByte_withMetadata ha⟩

end Sys2Proof.Machine
end

section
/-! PROOF. The halt after a fault, and runs that no host move ends (60_exceptions.md R285, R302, R308;
70_reset_and_hazards.md R340). -/

namespace Sys2Proof.Machine

open Sys2Proof

/-! ## The halted core -/

theorem portReady_of_halted {s : State} (h : s.halted = true) : s.portReady = false := by
  simp [State.portReady, h]

theorem busy_of_halted {s : State} (h : s.halted = true) : s.busy = false := by
  simp [State.busy, h]

/-- The command that halts the core is one that faulted: nothing but the fault registers, the queue and BUF changes
(R284, R285). -/
theorem eq_of_exec_halts {i : Instr} {s t : State} (hrun : s.halted = false) (ht : exec i s = .next t)
    (hhalt : t.halted = true) :
    ∃ f : Trap, t = { s with err := some f, errcp := s.cp, errcmd := encode i, queue := [], mem := t.mem } := by
  obtain ⟨t', ht', hends⟩ := commandRetiresOrFaults i s
  cases ht.symm.trans ht'
  rcases hends with ⟨-, herr, -⟩ | ⟨f, hf, -⟩
  · have hsame : t.halted = s.halted := congrArg Option.isSome herr
    exact absurd (hrun.symm.trans (hsame.symm.trans hhalt)) Bool.false_ne_true
  · exact ⟨f, hf⟩

/-- Settles O9: the sequencer and both outputs look at `halted` first, and only fault entry sets it. -/
theorem haltTakesNoCommand : Obligations.HaltTakesNoCommand := by
  refine ⟨fun s hhalt => ⟨sequencerStep_idle (.inl hhalt), portReady_of_halted hhalt, busy_of_halted hhalt⟩,
    fun i s t hrun ht hhalt => ?_⟩
  obtain ⟨f, hf⟩ := eq_of_exec_halts hrun ht hhalt
  rw [hf]
  exact ⟨rfl, rfl, rfl, rfl, rfl, rfl⟩

/-! ## Runs with no host move to come -/

/-- A command leaves the coming host moves to the host. -/
theorem exec_moves {i : Instr} {s t : State} (h : exec i s = .next t) : t.moves = s.moves := by
  rcases exec_faultRegisters h with ⟨-, -, -, -, -, -, -, hmoves⟩ | ⟨f, -, -, -, -, -, -, hmoves⟩
  · exact hmoves
  · exact hmoves

/-- Every word answers a next state, whether or not it is a command's (R88, R302). -/
theorem runWord_next (w : Word) (s : State) : ∃ t, runWord w s = .next t ∧ t.moves = s.moves := by
  rcases runWord_cases w s with ⟨i, -, he⟩ | ⟨e, -, he⟩
  · obtain ⟨t, ht⟩ := exec_next i s
    exact ⟨t, he.trans ht, exec_moves ht⟩
  · exact ⟨trapEntry .illegalCommand w s, he, rfl⟩

/-- The sequencer never stops the machine: idle or halted it stays, else it runs a word (R25, R285, R308). -/
theorem sequencerStep_next (s : State) : ∃ t, sequencerStep s = .next t ∧ t.moves = s.moves := by
  rcases sequencerStep_cases s with ⟨-, he⟩ | ⟨w, q, -, -, he⟩
  · exact ⟨s, he, rfl⟩
  · obtain ⟨t, ht, hmoves⟩ := runWord_next w { s with queue := q }
    exact ⟨t, he.trans ht, hmoves⟩

theorem safeRun_succ {n : Nat} {s t : State} (hstep : step s = .next t) (h : t.SafeRun n) : s.SafeRun (n + 1) := by
  obtain ⟨u, hu⟩ := h
  exact ⟨u, (run_succ (M := Sys2Proof.core) hstep).trans hu⟩

/-- Settles O14: by induction on the number of steps, each the sequencer's, which answers a next state with again no
host move to come. -/
theorem runNeverStops : Obligations.RunNeverStops := by
  intro n
  induction n with
  | zero => exact fun s _ => ⟨s, rfl⟩
  | succ n ih =>
    intro s hm
    obtain ⟨t, ht, hmoves⟩ := sequencerStep_next s
    exact safeRun_succ ((step_of_moves_nil hm).trans ht) (ih t (hmoves.trans hm))

end Sys2Proof.Machine
end
